-- ==== Sys2Proof/Word.lean ====
section
/-! DEFINITION. The two word widths of the control core (00_scope.md R18): bytes on the bus and in the
buffers, 16-bit counters. -/

namespace Sys2Proof

/-- A byte: bus data, operands of commands, samples, segment bytes (20_memory.md R79, R81). -/
abbrev Byte := BitVec 8

/-- A 16-bit counter: `to_count`, `cd_counter`, `af_index`, the debounce counters and `blink_phase`
(00_scope.md R8, R18). -/
abbrev Counter := BitVec 16

end Sys2Proof
end

