-- ==== Sys2Proof/Config.lean ====
section
/-! DEFINITION. The implementation parameters of 00_scope.md R8: the fixed and decided ones as constants, the
OPEN ones as the fields of `Config`. A configuration is plain data and is carried by the state, so that a claim
about every state is a claim about every configuration (log entry 1). Which configurations are admitted (R9) is
`Sys2Proof.Machine.admitted` in Machine/Operands.lean. -/

namespace Sys2Proof

/-- Clock pulses of one bus recovery: fixed by the source (R8, R162). -/
def recPulses : Nat := 9

/-- Master re-initialisations of one bus recovery: fixed by the source (R8, R162). -/
def recReinits : Nat := 2

/-- Largest byte count of a block operation: decided (R8, R164). -/
def countMax : Nat := 255

/-- Length of the peripheral's data buffer: fixed by the source (R8, R73). -/
def dispPeriphLen : Nat := 16

/-- Buffer index of the colon or separator element: fixed by the source (R8, R232). -/
def sepIndex : Nat := 2

/-- The OPEN parameters of R8. The waveform and glyph tables are lists, so `L_SIREN`, `L_WIN`, `L_LOSE` and
`GLYPH_COUNT` are their lengths. `BLINK_RELOAD` and `HintLed` are tables indexed by the Safe-Choice Index (and, for
`HintLed`, then by the phase); log entry 13. `T_REC` is timing only and in no state (R382), log entry 15. -/
structure Config where
  /-- `N_INPUTS`: the number of discrete inputs. -/
  nInputs : Nat
  /-- `TO_ADDR`: the address-phase budget, in timeout ticks. -/
  toAddr : Counter
  /-- `TO_READ`: the read-phase budget. -/
  toRead : Counter
  /-- `TO_WRITE`: the write-phase budget. -/
  toWrite : Counter
  /-- `CD_START`: the start value of the Countdown Counter. -/
  cdStart : Counter
  /-- `TH_ACTIVE`: the debounce threshold of sensor-active ticks. -/
  thActive : Counter
  /-- `TH_INACTIVE`: the debounce threshold of sensor-inactive ticks. -/
  thInactive : Counter
  /-- `SIREN[0 .. L_SIREN-1]`. -/
  siren : List Byte
  /-- `WIN[0 .. L_WIN-1]`. -/
  win : List Byte
  /-- `LOSE[0 .. L_LOSE-1]`. -/
  lose : List Byte
  /-- `DISP_ADDR`: the display's 7-bit device address. -/
  dispAddr : BitVec 7
  /-- `DISP_BASE`: register address of digit position 0. -/
  dispBase : Byte
  /-- `DISP_STRIDE`: register distance between positions. -/
  dispStride : Byte
  /-- `GLYPH[0 .. GLYPH_COUNT-1]`. -/
  glyph : List Byte
  /-- `GLYPH_DASH`: glyph code of the dash. -/
  glyphDash : Byte
  /-- `SEP_ON`: segment byte of the lit separator. -/
  sepOn : Byte
  /-- `CMD_OSC`: command class of the oscillator command. -/
  cmdOsc : Byte
  /-- `CMD_DISP`: command class of the display and blink command. -/
  cmdDisp : Byte
  /-- `CMD_DIM`: command class of the dimming command. -/
  cmdDim : Byte
  /-- `BLINK_SETUP`: blink rate of wire-setup. -/
  blinkSetup : BitVec 2
  /-- `BLINK_FAIL`: the failure rate. -/
  blinkFail : BitVec 2
  /-- `BLINK_SUCCESS`: blink rate on entry to success. -/
  blinkSuccess : BitVec 2
  /-- `N_DIAG`: blinks of the diagnostic pattern. -/
  nDiag : Nat
  /-- `BLINK_RELOAD(i)`: length of the hint pattern for Safe-Choice Index `i`. -/
  blinkReload : List Counter
  /-- `HintLed(p, i)`: entry `p` of row `i` is the indicator level at phase `p`. -/
  hint : List (List Bool)
  deriving DecidableEq, Repr

/-- CFG-A, the configuration of the spec's own worked vectors (95_test_vectors.md section 0). It stands in
`State.reset` because a reset state must hold some admitted configuration; it is no claim about the device
(DESIGN CHOICE, log entry 1). -/
def Config.cfgA : Config where
  nInputs := 4
  toAddr := 2
  toRead := 2
  toWrite := 2
  cdStart := 3
  thActive := 3
  thInactive := 2
  siren := [0x10, 0x20]
  win := [0x01, 0x02, 0x03]
  lose := [0xA0, 0xB0]
  dispAddr := 0x70
  dispBase := 0x00
  dispStride := 1
  glyph := [0x3F, 0x06, 0x5B, 0x4F, 0x66, 0x6D, 0x7D, 0x07, 0x7F, 0x6F, 0x40]
  glyphDash := 10
  sepOn := 0x02
  cmdOsc := 0x20
  cmdDisp := 0x80
  cmdDim := 0xE0
  blinkSetup := 1
  blinkFail := 2
  blinkSuccess := 3
  nDiag := 2
  blinkReload := [2, 2, 2, 2]
  hint := [[false, true], [false, true], [false, true], [false, true]]

end Sys2Proof
end

