-- ==== Sys2Proof/Syntax.lean ====
section
/-! DEFINITION. The operations of the control core: the host commands of 30_encoding.md R105 and the environment
events of R106, one constructor for each row of opcode_table.json. Operands are typed as far as a type can say
which values the encoding has; what is left is `Instr.wellFormed` (WellFormed.lean). -/

namespace Sys2Proof

/-- The acknowledgment policy of a read (10_state.md R34): `nack` for the last byte, `ack` when more follow. -/
inductive AckPolicy where
  | nack
  | ack
  deriving DecidableEq, Repr

/-- The seven Board States (10_state.md R50). -/
inductive BoardState where
  | sleeping
  | waitingArmed
  | wireSetup
  | countingDown
  | success
  | failure
  | done
  deriving DecidableEq, Repr

/-- The flag set of a `PEER_COMPLETE` (40_bus_primitives.md R136). -/
structure PeerFlags where
  /-- The bus hardware flagged an electrical or protocol fault. -/
  berr : Bool
  /-- Arbitration was lost. -/
  arb : Bool
  /-- The peer declined. -/
  nack : Bool
  deriving DecidableEq, Repr

/-- The operations of R105 (commands) and R106 (events). -/
inductive Instr where
  /-- `INIT`, R140. -/
  | init
  /-- `START ab`, R141: `ab` is the whole address byte. -/
  | start (ab : Byte)
  /-- `RSTART ab`, R142. -/
  | rstart (ab : Byte)
  /-- `WBYTE b`, R143. -/
  | wbyte (b : Byte)
  /-- `RBYTE p`, R145. -/
  | rbyte (p : AckPolicy)
  /-- `STOP`, R146. -/
  | stop
  /-- `RECOVER`, R162. -/
  | recover
  /-- `RDBLK a7, reg, count`, R160. -/
  | rdblk (a7 : BitVec 7) (reg : Byte) (count : Byte)
  /-- `WRBLK a7, reg, bytes`, R161. -/
  | wrblk (a7 : BitVec 7) (reg : Byte) (bytes : List Byte)
  /-- `SETDIGIT index, glyph`, R231. -/
  | setdigit (index : Byte) (glyph : Byte)
  /-- `WRITEALL`, R233. -/
  | writeall
  /-- `SETBLINK rate`, R235. -/
  | setblink (rate : Byte)
  /-- `SETOSC on`, R236. -/
  | setosc (on : Byte)
  /-- `SETDISP on`, R237. -/
  | setdisp (on : Byte)
  /-- `SETDIM level`, R238. -/
  | setdim (level : Byte)
  /-- `BLINKN n`, R246. -/
  | blinkn (n : Byte)
  /-- `TAKEROLL`, R210. -/
  | takeroll
  /-- `GETCNT`, R211. -/
  | getcnt
  /-- `GETSTATE`, R273. -/
  | getstate
  /-- `SETSTATE s`, R272. -/
  | setstate (b : BoardState)
  /-- `GETAF`, R189. -/
  | getaf
  /-- `MAINLOOP`, R261. -/
  | mainloop
  /-- event `TICK_TO`, R135. -/
  | tickTo
  /-- event `TICK_CD pir`, R201. -/
  | tickCd (pir : Bool)
  /-- event `PWM_UNDERFLOW`, R181. -/
  | pwmUnderflow
  /-- event `SENSOR_EDGE`, R208. -/
  | sensorEdge
  /-- event `PEER_COMPLETE f, d`, R136. -/
  | peerComplete (f : PeerFlags) (d : Byte)
  /-- event `BUS_FAULT`, R137. -/
  | busFault
  /-- event `INPUTS mask`, R212. -/
  | inputs (mask : Byte)
  deriving DecidableEq, Repr

end Sys2Proof
end

