-- ==== Sys2Proof/WellFormed.lean ====
section
/-! DEFINITION. Operand legality (30_encoding.md R108), for the operands whose type in `Instr` is wider than the
encoding's range. The number of inputs is an argument, because the legal masks depend on it. -/

namespace Sys2Proof

/-- `mask` has no bit set at or above `n`: the legal masks of `INPUTS` (R108) and the values `S.inputs` can hold
(10_state.md R52). -/
def maskFits (n : Nat) (mask : Byte) : Bool :=
  decide (mask.toNat < 2 ^ n)

/-- R108 for a machine of `n` inputs: `RDBLK` reads at least one byte (R164), `WRBLK`'s count fits its byte (R104,
R164), `INPUTS` names existing inputs only. Every other operand is legal by its type. -/
def Instr.wellFormed (n : Nat) : Instr → Bool
  | .rdblk _ _ count => count != 0
  | .wrblk _ _ bytes => decide (bytes.length ≤ countMax)
  | .inputs mask => maskFits n mask
  | .init => true
  | .start _ => true
  | .rstart _ => true
  | .wbyte _ => true
  | .rbyte _ => true
  | .stop => true
  | .recover => true
  | .setdigit _ _ => true
  | .writeall => true
  | .setblink _ => true
  | .setosc _ => true
  | .setdisp _ => true
  | .setdim _ => true
  | .blinkn _ => true
  | .takeroll => true
  | .getcnt => true
  | .getstate => true
  | .setstate _ => true
  | .getaf => true
  | .mainloop => true
  | .tickTo => true
  | .tickCd _ => true
  | .pwmUnderflow => true
  | .sensorEdge => true
  | .peerComplete _ _ => true
  | .busFault => true

/-- The events of R106: taken by an agent of the environment, never issued by the host. -/
def Instr.isEvent : Instr → Bool
  | .tickTo => true
  | .tickCd _ => true
  | .pwmUnderflow => true
  | .sensorEdge => true
  | .peerComplete _ _ => true
  | .busFault => true
  | .inputs _ => true
  | .init => false
  | .start _ => false
  | .rstart _ => false
  | .wbyte _ => false
  | .rbyte _ => false
  | .stop => false
  | .recover => false
  | .rdblk _ _ _ => false
  | .wrblk _ _ _ => false
  | .setdigit _ _ => false
  | .writeall => false
  | .setblink _ => false
  | .setosc _ => false
  | .setdisp _ => false
  | .setdim _ => false
  | .blinkn _ => false
  | .takeroll => false
  | .getcnt => false
  | .getstate => false
  | .setstate _ => false
  | .getaf => false
  | .mainloop => false

end Sys2Proof
end

