-- ==== Sys2Proof/Decode.lean ====
section
/-! DEFINITION. Decoding and encoding of the command and event stream (30_encoding.md R104 to R110). The decoder is
total on any bytes and rejects by name; the encoder writes the bytes of a well-formed operation from the same
tables. -/

namespace Sys2Proof

/-- Why a byte string spells no operation. -/
inductive DecodeError where
  /-- There is no byte at all. -/
  | empty
  /-- A reserved opcode (R109). -/
  | reserved (op : Byte)
  /-- An operand outside the range of R108. -/
  | illegal (op : Byte)
  /-- The bytes end before the length the opcode determines (R110). -/
  | truncated (op : Byte)
  deriving DecidableEq, Repr

/-- What a decoder answers: an operation and the bytes after it, or a named rejection. -/
abbrev Decoded := Except DecodeError (Instr × List Byte)

/-! ## Fields -/

/-- The policy operand of `RBYTE` (R105): 0 is `NACK`, 1 is `ACK`, anything else illegal. -/
def policyOf (p : Byte) : Option AckPolicy :=
  if p = 0 then some .nack else if p = 1 then some .ack else none

/-- The policy operand's byte. -/
def policyByte : AckPolicy → Byte
  | .nack => 0
  | .ack => 1

/-- The Board State codes of 10_state.md R50; 7 and above are illegal (R108). -/
def boardStateOf (b : Byte) : Option BoardState :=
  match b.toNat with
  | 0 => some .sleeping
  | 1 => some .waitingArmed
  | 2 => some .wireSetup
  | 3 => some .countingDown
  | 4 => some .success
  | 5 => some .failure
  | 6 => some .done
  | _ => none

/-- The code of a Board State (10_state.md R50). -/
def boardStateByte : BoardState → Byte
  | .sleeping => 0
  | .waitingArmed => 1
  | .wireSetup => 2
  | .countingDown => 3
  | .success => 4
  | .failure => 5
  | .done => 6

/-- A 7-bit device address operand; above 127 illegal (R108). -/
def deviceOf (a : Byte) : Option (BitVec 7) :=
  if a.toNat < 128 then some (a.setWidth 7) else none

/-- The operand byte of a device address. -/
def deviceByte (a : BitVec 7) : Byte :=
  a.setWidth 8

/-- The sensor level operand of `TICK_CD`: bit 0, the other bits 0 (R106, R108). -/
def levelOf (p : Byte) : Option Bool :=
  if p = 0 then some false else if p = 1 then some true else none

/-- The sensor level's byte. -/
def levelByte (pir : Bool) : Byte :=
  if pir then 1 else 0

/-- The flag operand of `PEER_COMPLETE`: bit 0 `berr`, bit 1 `arb`, bit 2 `nack`, bits 7 to 3 zero (R106, R108). -/
def flagsOf (f : Byte) : Option PeerFlags :=
  if f.toNat < 8 then
    some { berr := f.getLsbD 0, arb := f.getLsbD 1, nack := f.getLsbD 2 }
  else none

/-- The flag operand's byte. -/
def flagsByte (f : PeerFlags) : Byte :=
  (if f.berr then 1 else 0) ||| (if f.arb then 2 else 0) ||| (if f.nack then 4 else 0)

/-! ## Formats (R104) -/

/-- An operand's decoding: `none` where R108 makes the operation illegal. -/
def orIllegal (op : Byte) (i : Option Instr) (rest : List Byte) : Decoded :=
  match i with
  | some i => .ok (i, rest)
  | none => .error (.illegal op)

/-- Formats `C1` and `E1`: one operand byte. -/
def format1 (op : Byte) (f : Byte → Option Instr) : List Byte → Decoded
  | a :: rest => orIllegal op (f a) rest
  | [] => .error (.truncated op)

/-- Formats `C2` and `E2`: two operand bytes. -/
def format2 (op : Byte) (f : Byte → Byte → Option Instr) : List Byte → Decoded
  | a :: b :: rest => orIllegal op (f a b) rest
  | _ => .error (.truncated op)

/-- Format `C3`: three operand bytes. -/
def format3 (op : Byte) (f : Byte → Byte → Byte → Option Instr) : List Byte → Decoded
  | a :: b :: c :: rest => orIllegal op (f a b c) rest
  | _ => .error (.truncated op)

/-- Format `CV`: three operand bytes, the third the count of the data bytes that follow (R104, R110). -/
def formatV (op : Byte) (f : Byte → Byte → List Byte → Option Instr) : List Byte → Decoded
  | a :: b :: n :: rest =>
    if n.toNat ≤ rest.length then
      orIllegal op (f a b (rest.take n.toNat)) (rest.drop n.toNat)
    else .error (.truncated op)
  | _ => .error (.truncated op)

/-- Decode one operation of a machine of `nInputs` inputs from the head of a byte stream (R104 to R110). -/
def decode (nInputs : Nat) : List Byte → Decoded
  | [] => .error .empty
  | op :: rest =>
    match op.toNat with
    | 0x01 => .ok (.init, rest)
    | 0x02 => format1 op (fun ab => some (.start ab)) rest
    | 0x03 => format1 op (fun ab => some (.rstart ab)) rest
    | 0x04 => format1 op (fun b => some (.wbyte b)) rest
    | 0x05 => format1 op (fun p => (policyOf p).map .rbyte) rest
    | 0x06 => .ok (.stop, rest)
    | 0x07 => .ok (.recover, rest)
    | 0x10 => format3 op (fun a reg n =>
        if n = 0 then none else (deviceOf a).map fun a7 => .rdblk a7 reg n) rest
    | 0x11 => formatV op (fun a reg bytes => (deviceOf a).map fun a7 => .wrblk a7 reg bytes) rest
    | 0x20 => format2 op (fun i g => some (.setdigit i g)) rest
    | 0x21 => .ok (.writeall, rest)
    | 0x22 => format1 op (fun r => some (.setblink r)) rest
    | 0x23 => format1 op (fun o => some (.setosc o)) rest
    | 0x24 => format1 op (fun o => some (.setdisp o)) rest
    | 0x25 => format1 op (fun l => some (.setdim l)) rest
    | 0x26 => format1 op (fun n => some (.blinkn n)) rest
    | 0x30 => .ok (.takeroll, rest)
    | 0x31 => .ok (.getcnt, rest)
    | 0x32 => .ok (.getstate, rest)
    | 0x33 => format1 op (fun b => (boardStateOf b).map .setstate) rest
    | 0x34 => .ok (.getaf, rest)
    | 0x40 => .ok (.mainloop, rest)
    | 0x80 => .ok (.tickTo, rest)
    | 0x81 => format1 op (fun p => (levelOf p).map .tickCd) rest
    | 0x82 => .ok (.pwmUnderflow, rest)
    | 0x83 => .ok (.sensorEdge, rest)
    | 0x84 => format2 op (fun f d => (flagsOf f).map fun f => .peerComplete f d) rest
    | 0x85 => .ok (.busFault, rest)
    | 0x86 => format1 op (fun m => if maskFits nInputs m then some (.inputs m) else none) rest
    | _ => .error (.reserved op)

/-- The bytes of an operation (R104 to R106). Faithful for well-formed operations. -/
def encode : Instr → List Byte
  | .init => [0x01]
  | .start ab => [0x02, ab]
  | .rstart ab => [0x03, ab]
  | .wbyte b => [0x04, b]
  | .rbyte p => [0x05, policyByte p]
  | .stop => [0x06]
  | .recover => [0x07]
  | .rdblk a7 reg count => [0x10, deviceByte a7, reg, count]
  | .wrblk a7 reg bytes => 0x11 :: deviceByte a7 :: reg :: BitVec.ofNat 8 bytes.length :: bytes
  | .setdigit index glyph => [0x20, index, glyph]
  | .writeall => [0x21]
  | .setblink rate => [0x22, rate]
  | .setosc on => [0x23, on]
  | .setdisp on => [0x24, on]
  | .setdim level => [0x25, level]
  | .blinkn n => [0x26, n]
  | .takeroll => [0x30]
  | .getcnt => [0x31]
  | .getstate => [0x32]
  | .setstate b => [0x33, boardStateByte b]
  | .getaf => [0x34]
  | .mainloop => [0x40]
  | .tickTo => [0x80]
  | .tickCd pir => [0x81, levelByte pir]
  | .pwmUnderflow => [0x82]
  | .sensorEdge => [0x83]
  | .peerComplete f d => [0x84, flagsByte f, d]
  | .busFault => [0x85]
  | .inputs mask => [0x86, mask]

/-! ## Length and the opcode table's numbering -/

/-- The number of bytes of the operation a stream begins with: the first byte alone decides it, but for `WRBLK`, whose
length is 4 plus its fourth byte (R110). A reserved opcode is one byte. -/
def streamLength : List Byte → Nat
  | [] => 0
  | op :: rest =>
    match op.toNat with
    | 0x02 | 0x03 | 0x04 | 0x05 | 0x22 | 0x23 | 0x24 | 0x25 | 0x26 | 0x33 | 0x81 | 0x86 => 2
    | 0x20 | 0x84 => 3
    | 0x10 => 4
    | 0x11 => 4 + ((rest.drop 2).headD 0).toNat
    | _ => 1

/-- The longest operation: a `WRBLK` of `countMax` bytes. -/
def maxOperationBytes : Nat := 4 + countMax

/-- The lowest `k` bytes of `w`, the least significant first: opcode_table.json numbers a row's bits so that byte 0
holds bits 7 to 0. -/
def wordBytes : Nat → Nat → List Byte
  | 0, _ => []
  | k + 1, w => BitVec.ofNat 8 w :: wordBytes k (w / 256)

/-- The bytes of the operation whose bits are the lowest `nbits` of `w`, every bit above them 0, as the stream holds
them: exactly as many bytes as the operation has. -/
def tableBytes (nbits w : Nat) : List Byte :=
  let padded := wordBytes maxOperationBytes (w % 2 ^ nbits)
  padded.take (streamLength padded)

/-- The operation the decoder reads from a row of opcode_table.json, on the machine of `State.reset` (whose number of
inputs is CFG-A's, log entry 22). -/
def decodeTableWord (nbits w : Nat) : Option Instr :=
  match decode Config.cfgA.nInputs (tableBytes nbits w) with
  | .ok (i, _) => some i
  | .error _ => none

end Sys2Proof
end

