-- ==== Sys2Proof/Machine/State.lean ====
section
/-! DEFINITION. The state of the machine as plain data: every element of 10_state.md R24, and the model's own fields
(the configuration, what the host is doing, the streams of commands and events). Also the reasons a step can stop and
the state after reset. -/

namespace Sys2Proof.Machine

/-! ## Result codes, bus commands, histories -/

/-- The result codes of 60_exceptions.md R300. -/
inductive Code where
  | ok
  | timeout
  | busError
  | arbLost
  | nack
  | masterNotOwner
  | peerAbsent
  | fail
  deriving DecidableEq, Repr

/-- Which bus command awaits its completion (10_state.md R35). -/
inductive Pending where
  | none
  | addr
  | write
  | read
  deriving DecidableEq, Repr

/-- A bus command `issue` puts on the bus (40_bus_primitives.md R131). -/
inductive BusCmd where
  | addr (ab : Byte) (repeated : Bool)
  | write (b : Byte)
  | read (p : AckPolicy)
  deriving DecidableEq, Repr

/-- An element of the bus trace (10_state.md R36). -/
inductive BusEvent where
  | addr (ab : Byte) (repeated : Bool)
  | write (b : Byte)
  | read (p : AckPolicy)
  | stop
  | complete (f : PeerFlags) (d : Byte)
  | recRelease
  | recPulse
  | init
  deriving DecidableEq, Repr

/-- An element of the output trace (10_state.md R44). -/
inductive OutEvent where
  | pwm (sample : Byte)
  | led (level : Bool)
  deriving DecidableEq, Repr

/-- The typed value a host command hands back (30_encoding.md R107). A failed read hands back no bytes (R145, R160). -/
inductive Result where
  /-- no value (`INIT`, `RECOVER`, `SETDIGIT`, `BLINKN`, `SETSTATE`, `MAINLOOP`) -/
  | none
  /-- a result code -/
  | code (c : Code)
  /-- `RBYTE`: a code, and the byte when the code is `OK` -/
  | byte (c : Code) (b : Option Byte)
  /-- `RDBLK`: an aggregate code, and the bytes when the code is `OK` -/
  | block (c : Code) (bytes : Option (List Byte))
  /-- `TAKEROLL` -/
  | bit (b : Bool)
  /-- `GETCNT` and `GETAF` -/
  | counter (w : Counter)
  /-- `GETSTATE` -/
  | board (b : BoardState)
  deriving DecidableEq, Repr

/-! ## What the host is doing -/

/-- One step of a bus recovery (41_bus_composites.md R162). -/
inductive RecAct where
  | release
  | pulse
  | reinit
  deriving DecidableEq, Repr

/-- A step of a main-loop iteration still to be taken (45_control_state_machine.md R264 to R270). Each is one step of
the host, but for the two display operations, which are sequences of steps (log entry 6). -/
inductive LoopAct where
  /-- R264: is any input activated? -/
  | testSleeping
  /-- R265: are all inputs deactivated? -/
  | testSetup
  /-- R267: `TAKEROLL`, and the branch on it -/
  | takeRoll
  /-- R267: `m <- S.inputs`, and the branch on it -/
  | readInputs
  /-- R267: `c <- GETCNT` -/
  | readCount
  /-- R188, R268, R269: the exhausted test's read of the Board State -/
  | exhaustedState
  /-- R188: the exhausted test's read of the audio index, the Board State having been read as `b` -/
  | exhaustedIndex (b : BoardState)
  /-- `Enter(b)` -/
  | enter (b : BoardState)
  /-- `SETDIGIT(index, glyph)` -/
  | setDigit (index glyph : Byte)
  /-- `WRITEALL` -/
  | writeAll
  /-- `SETBLINK(rate)` -/
  | setBlink (rate : Byte)
  /-- `S.lowpower <- 1` -/
  | lowPower
  deriving DecidableEq, Repr

/-- What follows a display operation: the host gets its code, or the main-loop iteration ignores the code and goes on
(R275). -/
inductive Upper where
  | host
  | loop (rest : List LoopAct)
  deriving DecidableEq, Repr

/-- Who receives the outcome of a block operation. -/
inductive Cont where
  /-- the host's own `RDBLK` -/
  | hostRead
  /-- the host's own `WRBLK` -/
  | hostWrite
  /-- `WRITEALL` at position `i`, with the first non-`OK` code so far in `res` (R233) -/
  | writeAll (i : Fin 5) (res : Code) (up : Upper)
  /-- `ConfigWrite` (R239) -/
  | config (up : Upper)
  deriving DecidableEq, Repr

/-- The phase of a block operation: its next primitive (R160, R161; 10_state.md R22). -/
inductive BlkPos where
  /-- `WRBLK`: `WBYTE(reg)`, then the data bytes -/
  | wReg (reg : Byte) (bytes : List Byte)
  /-- `WRBLK`: `WBYTE` of the data bytes left -/
  | wData (bytes : List Byte)
  /-- `RDBLK`: `WBYTE(reg)` -/
  | rReg (a7 : BitVec 7) (reg : Byte) (count : Nat)
  /-- `RDBLK`: `RSTART` -/
  | rRestart (a7 : BitVec 7) (count : Nat)
  /-- `RDBLK`: `RBYTE`, `left` bytes still to read, `got` read so far -/
  | rByte (left : Nat) (got : List Byte)
  /-- the final `STOP`, then `OK` with the bytes read -/
  | stop (got : List Byte)
  /-- the `STOP` of the peer-absent path (R166) -/
  | stopAbsent
  /-- the failure path: the steps of `RECOVER` left (R163) -/
  | recover (todo : List RecAct)
  deriving DecidableEq, Repr

/-- Who waits for the end of a `BLINKN`: the host, or a failed configuration write that then hands on its code
(R239, R241). -/
inductive BlinkCont where
  | host
  | diag (c : Code) (up : Upper)
  deriving DecidableEq, Repr

/-- What the host's next step is, in the middle of a command. -/
inductive Job where
  /-- a block operation at a phase -/
  | block (pos : BlkPos) (k : Cont)
  /-- `WRITEALL` about to write position `i` -/
  | digit (i : Fin 5) (res : Code) (up : Upper)
  /-- the host's own `RECOVER`, with its steps left -/
  | recover (todo : List RecAct)
  /-- `BLINKN`: `left` blinks to go, the current one already lit if `lit` -/
  | blink (left : Nat) (lit : Bool) (k : BlinkCont)
  /-- `MAINLOOP` issued in the low-power wait: it begins when `lowpower` is clear (R261) -/
  | loopGate
  /-- the steps of a main-loop iteration left -/
  | loop (todo : List LoopAct)
  deriving DecidableEq, Repr

/-- Who is blocked in a bounded wait (R133) and what it does with the outcome. -/
inductive Waiter where
  /-- the host's own `START`, `RSTART` or `WBYTE` -/
  | host
  /-- the host's own `RBYTE` -/
  | hostRead
  /-- the `START` of a block operation, which goes on at `next` -/
  | blkStart (next : BlkPos) (k : Cont)
  /-- a later address or data byte of a block operation -/
  | blkNext (next : BlkPos) (k : Cont)
  /-- an `RBYTE` of `RDBLK`, `left` bytes still to read, this one included -/
  | blkRead (left : Nat) (got : List Byte) (k : Cont)
  deriving DecidableEq, Repr

/-- What the host is doing. -/
inductive Ctl where
  /-- between two commands -/
  | idle
  /-- in a command, about to take the step of this job -/
  | run (j : Job)
  /-- blocked in `wait(budget)` -/
  | wait (budget : Counter) (w : Waiter)
  deriving DecidableEq, Repr

/-- The two sides whose steps interleave: the host in main context, and the environment's agents. -/
inductive Agent where
  | host
  | env
  deriving DecidableEq, Repr

/-! ## The state -/

/-- The state: the elements of 10_state.md R24 under the spec's names, then the model's own fields. -/
structure State where
  /-- `S.enabled` (R30) -/
  enabled : Bool
  /-- `S.owner` (R31) -/
  owner : Bool
  /-- `S.flag_tc` (R32) -/
  flagTc : Bool
  /-- `S.flag_berr` (R32) -/
  flagBerr : Bool
  /-- `S.flag_arb` (R32) -/
  flagArb : Bool
  /-- `S.flag_nack` (R32) -/
  flagNack : Bool
  /-- `S.ack_policy` (R34) -/
  ackPolicy : AckPolicy
  /-- `S.data` (R33) -/
  data : Byte
  /-- `S.to_count` (R35) -/
  toCount : Counter
  /-- `S.pending` (R35) -/
  pending : Pending
  /-- `S.bus_trace` (R36), oldest first -/
  busTrace : List BusEvent
  /-- `S.af_index` (R40) -/
  afIndex : Counter
  /-- `S.pwm_compare` (R41) -/
  pwmCompare : Byte
  /-- `S.af_enable` (R42) -/
  afEnable : Bool
  /-- `S.cd_counter` (R45) -/
  cdCounter : Counter
  /-- `S.rollover` (R46) -/
  rollover : Bool
  /-- `S.blink_phase` (R48) -/
  blinkPhase : Counter
  /-- `S.pir_high` (R47) -/
  pirHigh : Counter
  /-- `S.pir_low` (R47) -/
  pirLow : Counter
  /-- `S.cdt_ie` (R49) -/
  cdtIe : Bool
  /-- `S.wake_ie` (R49) -/
  wakeIe : Bool
  /-- `S.led` (R48) -/
  led : Bool
  /-- `S.board_state` (R50) -/
  boardState : BoardState
  /-- `S.safe_idx` (R51) -/
  safeIdx : Nat
  /-- `S.inputs` (R52); the bits at or above `N_INPUTS` are 0 in every reachable state -/
  inputs : Byte
  /-- `S.disp_buf[0..4]` (R53) -/
  dispBuf : Vector Byte 5
  /-- `S.lowpower` (R54) -/
  lowpower : Bool
  /-- `S.out_trace` (R44), oldest first -/
  outTrace : List OutEvent
  /-- the configuration (00_scope.md R8); no step writes it -/
  cfg : Config
  /-- what the host is doing (R22, R133) -/
  ctl : Ctl
  /-- the value the last finished command handed back (R107) -/
  result : Result
  /-- the host's command stream still to come (R22, R104) -/
  cmds : List Byte
  /-- the environment's events still to come (R106) -/
  events : List Byte
  /-- who moves at each coming step where both sides can; when it is empty the host does (log entry 5) -/
  sched : List Agent
  deriving DecidableEq, Repr

/-! ## Reasons a step stops -/

/-- The one way the machine stops by itself. -/
inductive Fault where
  /-- Raised by `step` when no agent has a step to take: the host is blocked, or idle with no command left, and the
  environment has no event left. Safe: the spec's machine waits there (log entry 10). -/
  | quiescent
  deriving DecidableEq, Repr

/-- What the model gives no run to. Each refusal but the first is one the spec itself makes (70_reset_and_hazards.md
R380); all are safe. -/
inductive Refusal where
  /-- Raised by an arm of `exec` whose instruction has no meaning yet. No arm uses it. -/
  | notModelled (mnemonic : String)
  /-- Raised by `step` on a configuration that is not admitted (R9, U17). -/
  | configNotAdmitted
  /-- Raised by the fetch: reserved opcode, illegal operand or truncated operation (R108 to R110, U10, U11). -/
  | invalidEncoding (e : DecodeError)
  /-- Raised by the fetch: an event in the host's stream or a command in the environment's (R106). -/
  | wrongAgent
  /-- Raised by a meaning given an operand that R108 makes illegal (U11). -/
  | illegalOperand
  /-- Raised by a host command while another command is in progress: only a handler could have issued it (R92, R371,
  U14). -/
  | hostBusy
  /-- Raised by a bus operation, other than `INIT` and `RECOVER`, while `S.enabled` = 0 (R362, U13). -/
  | engineDisabled
  /-- Raised by `START`, `RDBLK` and `WRBLK` while `S.owner` = 1 (R138, U15). -/
  | alreadyOwner
  /-- Raised by `WRITEALL` on a buffer position whose glyph code is outside the glyph table (R363, U19). -/
  | glyphOutOfRange
  deriving DecidableEq, Repr

/-- The outcome of a step of this machine. -/
abbrev Out := Host.Outcome State Fault Refusal

/-! ## Reset -/

/-- The values R62 and R63 leave to a draw at reset. -/
structure Draws where
  safeIdx : Nat
  data : Byte
  pwmCompare : Byte
  inputs : Byte
  dispBuf : Vector Byte 5
  deriving DecidableEq, Repr

/-- The state right after power-on (R60 to R63, 70_reset_and_hazards.md R351) of a machine with configuration `c`, for
one draw `d` of the unspecified values. -/
def State.resetWith (c : Config) (d : Draws) : State where
  enabled := false
  owner := false
  flagTc := false
  flagBerr := false
  flagArb := false
  flagNack := false
  ackPolicy := .nack
  data := d.data
  toCount := 0
  pending := .none
  busTrace := []
  afIndex := 0
  pwmCompare := d.pwmCompare
  afEnable := false
  cdCounter := c.cdStart
  rollover := false
  blinkPhase := c.blinkReload.getD d.safeIdx 1
  pirHigh := 0
  pirLow := 0
  cdtIe := false
  wakeIe := true
  led := false
  boardState := .sleeping
  safeIdx := d.safeIdx
  inputs := d.inputs
  dispBuf := d.dispBuf
  lowpower := false
  outTrace := []
  cfg := c
  ctl := .idle
  result := .none
  cmds := []
  events := []
  sched := []

/-- The draw `State.reset` stands for: the Safe-Choice Index of CFG-A, and zero for the rest (DESIGN CHOICE, log
entry 2). -/
def Draws.cfgA : Draws where
  safeIdx := 2
  data := 0
  pwmCompare := 0
  inputs := 0
  dispBuf := #v[0, 0, 0, 0, 0]

/-- The machine right after reset: the spec's reset state with configuration CFG-A and the draw `Draws.cfgA` (DESIGN
CHOICE, log entries 1 and 2). The claims about reset are stated over every `State.resetWith`. -/
def State.reset : State :=
  State.resetWith Config.cfgA Draws.cfgA

end Sys2Proof.Machine
end

