-- ==== Sys2Proof/Machine/Operands.lean ====
section
/-! DEFINITION. Values the operations assemble from their operands and from the configuration: address bytes, display
command and data bytes, digits, table lookups, the audio table of a Board State, and the admitted configurations. -/

namespace Sys2Proof.Machine

/-! ## Bytes on the bus -/

/-- The address byte of R100: the 7-bit address above the direction bit, 1 for a read (R101). -/
def addressByte (a7 : BitVec 7) (read : Bool) : Byte :=
  (a7.setWidth 8 <<< 1) ||| (if read then 1 else 0)

/-- The oscillator command byte (R102). -/
def oscCommand (c : Config) (on : Byte) : Byte :=
  c.cmdOsc ||| on

/-- The display and blink command byte (R102): the rate in bits 2 and 1, on or off in bit 0. -/
def dispCommand (c : Config) (rate on : Byte) : Byte :=
  c.cmdDisp ||| (rate <<< 1) ||| on

/-- The dimming command byte (R102). -/
def dimCommand (c : Config) (level : Byte) : Byte :=
  c.cmdDim ||| level

/-- The register byte of digit position `i` (R234). -/
def digitRegister (c : Config) (i : Fin 5) : Byte :=
  c.dispBase + BitVec.ofNat 8 i.val * c.dispStride

/-- The segment byte of position `i` of the Display Buffer (R103): the separator byte at index 2, a glyph lookup
elsewhere; `none` where the lookup is out of range (R363). -/
def digitSegments (c : Config) (buf : Vector Byte 5) (i : Fin 5) : Option Byte :=
  if i.val = sepIndex then
    some (if buf[i] = 1 then c.sepOn else 0x00)
  else
    c.glyph[buf[i].toNat]?

/-- Decimal digit `k` of the Countdown Counter, `k` counted from the hundredths (R267). -/
def decimalDigit (w : Counter) (k : Nat) : Byte :=
  BitVec.ofNat 8 (w.toNat / 10 ^ k % 10)

/-- The input mask with the Safe-Choice input alone (R18, R267). -/
def safeMask (safeIdx : Nat) : Byte :=
  1#8 <<< safeIdx

/-! ## Tables of the configuration -/

/-- `BLINK_RELOAD(i)` (R207). -/
def blinkReloadOf (c : Config) (i : Nat) : Counter :=
  c.blinkReload.getD i 1

/-- `HintLed(p, i)` (R207). -/
def hintLed (c : Config) (p : Counter) (i : Nat) : Bool :=
  (c.hint.getD i []).getD p.toNat false

/-- The waveform table a Board State selects (R180), with whether it repeats; `none` where no table is selected. -/
def selectedTable (c : Config) : BoardState → Option (List Byte × Bool)
  | .countingDown => some (c.siren, true)
  | .success => some (c.win, false)
  | .failure => some (c.lose, false)
  | .sleeping => none
  | .waitingArmed => none
  | .wireSetup => none
  | .done => none

/-- The exhausted test of R188, for the Board State and the audio index read. -/
def exhausted (c : Config) (b : BoardState) (index : Counter) : Bool :=
  match b with
  | .success => decide (c.win.length ≤ index.toNat)
  | .failure => decide (c.lose.length ≤ index.toNat)
  | .sleeping => false
  | .waitingArmed => false
  | .wireSetup => false
  | .countingDown => false
  | .done => false

/-! ## Admitted configurations -/

/-- A waveform table's length is in range (R8). -/
def tableFits (t : List Byte) : Bool :=
  decide (1 ≤ t.length) && decide (t.length < 2 ^ 16)

/-- The constraints of R8 and R102 that a field's type does not already say, one entry each. -/
def admissionChecks (c : Config) : List Bool :=
  [decide (1 ≤ c.nInputs), decide (c.nInputs ≤ 8),
    c.cdStart != 0, c.thActive != 0, c.thInactive != 0,
    tableFits c.siren, tableFits c.win, tableFits c.lose,
    decide (c.dispBase.toNat ≤ 240), decide (4 * c.dispStride.toNat + 1 ≤ dispPeriphLen),
    decide (10 ≤ c.glyph.length), decide (c.glyphDash.toNat < c.glyph.length),
    c.sepOn != 0,
    c.cmdOsc &&& 0x01 == 0, c.cmdDisp &&& 0x07 == 0, c.cmdDim &&& 0x0F == 0,
    c.cmdOsc != c.cmdDisp, c.cmdOsc != c.cmdDim, c.cmdDisp != c.cmdDim,
    decide (1 ≤ c.nDiag),
    decide (c.blinkReload.length = c.nInputs), c.blinkReload.all (fun r => r != 0)]

/-- The configurations the model gives a run to (R9). -/
def admitted (c : Config) : Bool :=
  (admissionChecks c).all id

end Sys2Proof.Machine
end

