-- ==== Sys2Proof/Machine/Flags.lean ====
section
/-! DEFINITION. The status flags of the bus engine (10_state.md R32, R56): what sets and clears each, when a bounded
wait ends, and the outcome read from them. The block has no arithmetic condition codes (R56). -/

namespace Sys2Proof.Machine

/-- `START` "clears prior interrupt flags": all but the bus-error latch (R32, R141). -/
def clearPriorFlags (s : State) : State :=
  { s with flagTc := false, flagArb := false, flagNack := false }

/-- The flags a completion leaves (R136): transfer complete; the bus-error latch, never cleared here; arbitration lost
as reported; declined as reported, but never on a read. -/
def completionFlags (f : PeerFlags) (s : State) : State :=
  { s with
    flagTc := true
    flagBerr := s.flagBerr || f.berr
    flagArb := f.arb
    flagNack := f.nack && (s.pending == .addr || s.pending == .write) }

/-- `wake` of R133: a wait of budget `b` ends. -/
def wake (b : Counter) (s : State) : Bool :=
  s.flagTc || decide (b ≤ s.toCount)

/-- `Outcome(B)`, the priority evaluation of R134. -/
def outcome (b : Counter) (s : State) : Code :=
  if b ≤ s.toCount then .timeout
  else if s.flagBerr then .busError
  else if s.flagArb then .arbLost
  else if s.flagNack then .nack
  else .ok

/-- The number of a result code (R300). -/
def codeNumber : Code → Byte
  | .ok => 0x00
  | .timeout => 0x01
  | .busError => 0x02
  | .arbLost => 0x03
  | .nack => 0x04
  | .masterNotOwner => 0x05
  | .peerAbsent => 0x06
  | .fail => 0x07

end Sys2Proof.Machine
end

