-- ==== Sys2Proof/Machine/Ops.lean ====
section
/-! DEFINITION. The named operations every meaning is written over: handing back a result, issuing a bus command, the
bounded wait, the engine's primitives, block operations, the display, the recovery, the blink, entering a Board State,
and entering and leaving an interrupt. -/

namespace Sys2Proof.Machine

/-! ## The host's command and its result

`return <CODE>` is this block's exception: an operation ends and hands its code to its caller, with no trap vector
(00_scope.md R11, 60_exceptions.md R300 to R309). -/

/-- The host's command ends and hands `r` back (30_encoding.md R107). -/
def giveResult (r : Result) (s : State) : State :=
  { s with ctl := .idle, result := r }

/-- The host's next step is `j`. -/
def runJob (j : Job) (s : State) : State :=
  { s with ctl := .run j }

/-- A host command's meaning: it runs in main context with no other command in progress (R92, R371). -/
def asCommand (s : State) (f : State → Out) : Out :=
  match s.ctl with
  | .idle => f s
  | .run _ => .refused .hostBusy
  | .wait _ _ => .refused .hostBusy

/-- A main-loop iteration goes on with the steps left, or ends (R261). -/
def loopOn (rest : List LoopAct) (s : State) : State :=
  match rest with
  | [] => giveResult .none s
  | a :: rest => runJob (.loop (a :: rest)) s

/-- A display operation ends with code `c`: the host gets it, or the main loop ignores it (R275). -/
def returnAggregate (up : Upper) (c : Code) (s : State) : State :=
  match up with
  | .host => giveResult (.code c) s
  | .loop rest => loopOn rest s

/-! ## Interrupts -/

/-- Taking an interrupt (R323): nothing is saved and no mode changes; the one effect of entry is that the low-power
wait of the main loop ends. The host stays where it was, inside a wait if it was in one. -/
def interruptEntry (s : State) : State :=
  { s with lowpower := false }

/-- Returning from a handler (R324): nothing was saved and nothing was masked, so nothing is restored. -/
def interruptReturn (s : State) : State :=
  s

/-! ## Audio and Board State -/

/-- `AudioStart` (R185). -/
def audioStart (s : State) : State :=
  { s with afEnable := true, afIndex := 0 }

/-- `AudioStop` (R185). -/
def audioStop (s : State) : State :=
  { s with afEnable := false }

/-- `Enter(b)` (R271), one atomic step of the agent that commits the transition. -/
def enter (b : BoardState) (s : State) : State :=
  match b with
  | .sleeping =>
    { audioStop { s with boardState := .sleeping } with
      cdtIe := false, wakeIe := true, cdCounter := s.cfg.cdStart, pirHigh := 0, pirLow := 0 }
  | .wireSetup => { s with boardState := .wireSetup, wakeIe := false }
  | .waitingArmed =>
    { s with boardState := .waitingArmed, cdtIe := true, wakeIe := false, pirHigh := 0, pirLow := 0 }
  | .countingDown =>
    { audioStart { s with boardState := .countingDown } with cdtIe := true, wakeIe := false }
  | .success => { audioStart { s with boardState := .success } with wakeIe := false }
  | .failure => { audioStart { s with boardState := .failure } with wakeIe := false }
  | .done =>
    { audioStop { s with boardState := .done } with cdtIe := false, wakeIe := false }

/-! ## Status indicator and display buffer -/

/-- One write of the status indicator, with its trace entry (R44, R246). -/
def setLed (level : Bool) (s : State) : State :=
  { s with led := level, outTrace := s.outTrace ++ [.led level] }

/-- The Display Buffer after `SETDIGIT(index, glyph)` (R231, R232): out of range is silently dropped; position 2 takes
on or off only. -/
def digitPut (c : Config) (index glyph : Byte) (buf : Vector Byte 5) : Vector Byte 5 :=
  if h : index.toNat < 5 then
    if index.toNat = sepIndex then buf.set index.toNat (if glyph = 0 then 0 else 1) h
    else if glyph.toNat < c.glyph.length then buf.set index.toNat glyph h
    else buf
  else buf

/-- `SETDIGIT(index, glyph)` (R231): it changes the Display Buffer only. -/
def putDigit (index glyph : Byte) (s : State) : State :=
  { s with dispBuf := digitPut s.cfg index glyph s.dispBuf }

/-- `take(S.rollover)` (20_memory.md R83): what the flag was, and the state with it clear. -/
def takeRollover (s : State) : Bool × State :=
  (s.rollover, { s with rollover := false })

/-! ## The bus engine -/

/-- The trace entry of a bus command (R36). -/
def busCmdEvent : BusCmd → BusEvent
  | .addr ab repeated => .addr ab repeated
  | .write b => .write b
  | .read p => .read p

/-- `kind(c)` of R131. -/
def busCmdKind : BusCmd → Pending
  | .addr _ _ => .addr
  | .write _ => .write
  | .read _ => .read

/-- `issue(c)` (R131). -/
def issue (c : BusCmd) (s : State) : State :=
  { s with flagTc := false, pending := busCmdKind c, busTrace := s.busTrace ++ [busCmdEvent c] }

/-- `INIT`'s effect on the engine (R140). -/
def initEngine (s : State) : State :=
  { s with
    enabled := true
    owner := false
    pending := .none
    flagTc := false
    flagBerr := false
    flagArb := false
    flagNack := false
    ackPolicy := .nack
    busTrace := s.busTrace ++ [.init] }

/-- `STOP`'s effect on the engine while it owns the bus (R146). -/
def stopEngine (s : State) : State :=
  { s with busTrace := s.busTrace ++ [.stop], owner := false, pending := .none }

/-- The data register takes the byte to send (R33). -/
def loadData (b : Byte) (s : State) : State :=
  { s with data := b }

/-- The engine becomes bus owner (R31). -/
def takeBus (s : State) : State :=
  { s with owner := true }

/-- The acknowledgment policy is latched (R34, R144). -/
def latchPolicy (p : AckPolicy) (s : State) : State :=
  { s with ackPolicy := p }

/-- The steps of a bus recovery (R162): release, `N_REC_PULSES` pulses, `N_REINIT` initialisations. -/
def recoveryPlan : List RecAct :=
  .release :: (List.replicate recPulses .pulse ++ List.replicate recReinits .reinit)

/-- One step of a bus recovery (R162). -/
def recoveryAct (a : RecAct) (s : State) : State :=
  match a with
  | .release => { s with busTrace := s.busTrace ++ [.recRelease] }
  | .pulse => { s with busTrace := s.busTrace ++ [.recPulse] }
  | .reinit => initEngine s

/-! ## What follows the end of a block operation -/

/-- The end of a `BLINKN` (R246), or of the diagnostic blink of a failed configuration write (R241). -/
def finishBlink (k : BlinkCont) (s : State) : State :=
  match k with
  | .host => giveResult .none s
  | .diag c up => returnAggregate up c s

/-- `BLINKN` with `left` blinks to go, at the beginning of one: an `n` of 0 does nothing (R246). -/
def blinkOn (left : Nat) (k : BlinkCont) (s : State) : State :=
  if left = 0 then finishBlink k s else runJob (.blink left false k) s

/-- The first non-`OK` code of a `WRITEALL` (R233). -/
def firstBad (res c : Code) : Code :=
  if res = .ok then c else res

/-- A block operation ends with aggregate code `c` and, for a read, the bytes `got` (R160, R161, R165, R233, R239). -/
def deliverBlock (k : Cont) (c : Code) (got : List Byte) (s : State) : State :=
  match k with
  | .hostRead => giveResult (.block c (if c = .ok then some got else none)) s
  | .hostWrite => giveResult (.code c) s
  | .writeAll i res up =>
    if h : i.val + 1 < 5 then runJob (.digit ⟨i.val + 1, h⟩ (firstBad res c) up) s
    else returnAggregate up (firstBad res c) s
  | .config up =>
    if c = .ok then returnAggregate up c s else blinkOn s.cfg.nDiag (.diag c up) s

/-! ## The bounded wait -/

/-- What the waiter does with the outcome `r` of its primitive. A block operation goes on after `OK`, takes the
peer-absent path after a `NACK` of its initial `START` (R166), and the recovery path after anything else (R163). -/
def resume (w : Waiter) (r : Code) (s : State) : State :=
  match w with
  | .host => giveResult (.code r) s
  | .hostRead => giveResult (.byte r (if r = .ok then some s.data else none)) s
  | .blkStart next k =>
    if r = .ok then runJob (.block next k) s
    else if r = .nack then runJob (.block .stopAbsent k) s
    else runJob (.block (.recover recoveryPlan) k) s
  | .blkNext next k =>
    if r = .ok then runJob (.block next k) s
    else runJob (.block (.recover recoveryPlan) k) s
  | .blkRead left got k =>
    if r = .ok then
      if left ≤ 1 then runJob (.block (.stop (got ++ [s.data])) k) s
      else runJob (.block (.rByte (left - 1) (got ++ [s.data])) k) s
    else runJob (.block (.recover recoveryPlan) k) s

/-- What the end of a wait leaves in the engine (R133): nothing pending, and ownership lost with arbitration. -/
def closeWait (r : Code) (s : State) : State :=
  { s with pending := .none, owner := if r = .arbLost then false else s.owner }

/-- The end of `wait(b)` (R133): the outcome is evaluated, the engine leaves the wait, and the code goes to the waiter,
all in the step that made `wake` true. -/
def endWait (b : Counter) (w : Waiter) (s : State) : State :=
  resume w (outcome b s) (closeWait (outcome b s) s)

/-- End the wait in progress, if there is one and `wake` holds (R133). -/
def settle (s : State) : State :=
  match s.ctl with
  | .wait b w => if wake b s then endWait b w s else s
  | .idle => s
  | .run _ => s

/-- The host blocks in `wait(b)`, with the timeout counter cleared (R133). -/
def openWait (b : Counter) (w : Waiter) (s : State) : State :=
  { s with toCount := 0, ctl := .wait b w }

/-- The beginning of `wait(b)`, in the same step as the issue before it (R133): with `b` = 0 it ends at once. -/
def beginWait (b : Counter) (w : Waiter) (s : State) : State :=
  settle (openWait b w s)

/-! ## The primitives, for any waiter

The checks stand in the order of R138: context (by `asCommand`), enable, ownership. -/

/-- The enable check of R138. -/
def whenEnabled (s : State) (f : State → Out) : Out :=
  if s.enabled then f s else .refused .engineDisabled

/-- `START(ab)` (R141). -/
def startPrim (ab : Byte) (w : Waiter) (s : State) : Out :=
  whenEnabled s fun s =>
    if s.owner then .refused .alreadyOwner
    else if s.flagBerr then .next (resume w .busError (clearPriorFlags s))
    else
      .next (beginWait s.cfg.toAddr w
        (issue (.addr ab false) (takeBus (loadData ab (clearPriorFlags s)))))

/-- `RSTART(ab)` (R142). -/
def restartPrim (ab : Byte) (w : Waiter) (s : State) : Out :=
  whenEnabled s fun s =>
    if s.owner then .next (beginWait s.cfg.toAddr w (issue (.addr ab true) (loadData ab s)))
    else .next (resume w .masterNotOwner s)

/-- `WBYTE(b)` (R143). -/
def writePrim (b : Byte) (w : Waiter) (s : State) : Out :=
  whenEnabled s fun s =>
    if s.owner then .next (beginWait s.cfg.toWrite w (issue (.write b) (loadData b s)))
    else .next (resume w .masterNotOwner s)

/-- `RBYTE(p)` (R144, R145): the policy is latched first, and the receive command carries the latched policy. -/
def readPrim (p : AckPolicy) (w : Waiter) (s : State) : Out :=
  whenEnabled s fun s =>
    if s.owner then
      .next (beginWait s.cfg.toRead w (issue (.read (latchPolicy p s).ackPolicy) (latchPolicy p s)))
    else .next (resume w .masterNotOwner s)

/-- `STOP` (R146): its code, and the state it leaves. -/
def stopPrim (s : State) : Code × State :=
  if s.owner then (.ok, stopEngine s) else (.masterNotOwner, s)

/-! ## Block operations -/

/-- `WRBLK(a7, reg, bytes)` up to its first wait (R161), for whoever receives its code. -/
def writeBlock (a7 : BitVec 7) (reg : Byte) (bytes : List Byte) (k : Cont) (s : State) : Out :=
  startPrim (addressByte a7 false) (.blkStart (.wReg reg bytes) k) s

/-- `RDBLK(a7, reg, count)` up to its first wait (R160). -/
def readBlock (a7 : BitVec 7) (reg : Byte) (count : Nat) (k : Cont) (s : State) : Out :=
  startPrim (addressByte a7 false) (.blkStart (.rReg a7 reg count) k) s

/-- After a byte of `WRBLK`: the next data byte, or the final `STOP` (R161). -/
def afterByte (bytes : List Byte) : BlkPos :=
  match bytes with
  | [] => .stop []
  | b :: bytes => .wData (b :: bytes)

/-- The next step of a block operation (R160, R161, R163, R166). -/
def blockStep (pos : BlkPos) (k : Cont) (s : State) : Out :=
  match pos with
  | .wReg reg bytes => writePrim reg (.blkNext (afterByte bytes) k) s
  | .wData (b :: bytes) => writePrim b (.blkNext (afterByte bytes) k) s
  | .wData [] => whenEnabled s fun s => .next (deliverBlock k .ok [] (stopPrim s).2)
  | .rReg a7 reg count => writePrim reg (.blkNext (.rRestart a7 count) k) s
  | .rRestart a7 count => restartPrim (addressByte a7 true) (.blkNext (.rByte count []) k) s
  | .rByte left got =>
    readPrim (if left ≤ 1 then .nack else .ack) (.blkRead left got k) s
  | .stop got => whenEnabled s fun s => .next (deliverBlock k .ok got (stopPrim s).2)
  | .stopAbsent => whenEnabled s fun s => .next (deliverBlock k .peerAbsent [] (stopPrim s).2)
  | .recover [] => .next (deliverBlock k .fail [] s)
  | .recover [a] => .next (deliverBlock k .fail [] (recoveryAct a s))
  | .recover (a :: a' :: todo) =>
    .next (runJob (.block (.recover (a' :: todo)) k) (recoveryAct a s))

/-- The next step of the host's own `RECOVER` (R162). -/
def recoverStep (todo : List RecAct) (s : State) : State :=
  match todo with
  | [] => giveResult .none s
  | [a] => giveResult .none (recoveryAct a s)
  | a :: a' :: todo => runJob (.recover (a' :: todo)) (recoveryAct a s)

/-! ## Display operations -/

/-- `ConfigWrite(c)` (R239) up to its first wait. -/
def configWrite (c : Byte) (up : Upper) (s : State) : Out :=
  writeBlock s.cfg.dispAddr c [] (.config up) s

/-- `WRITEALL` at position `i` (R233): look the segment byte up, then write it as a block of one byte. -/
def digitStep (i : Fin 5) (res : Code) (up : Upper) (s : State) : Out :=
  match digitSegments s.cfg s.dispBuf i with
  | some v => writeBlock s.cfg.dispAddr (digitRegister s.cfg i) [v] (.writeAll i res up) s
  | none => .refused .glyphOutOfRange

/-- `SETBLINK(rate)` (R235), for the host or for the main loop: out of range is silently dropped. -/
def blinkRate (rate : Byte) (up : Upper) (s : State) : Out :=
  if rate.toNat ≤ 3 then configWrite (dispCommand s.cfg rate 1) up s
  else .next (returnAggregate up .ok s)

/-- The next step of a `BLINKN` (R246). -/
def blinkStep (left : Nat) (lit : Bool) (k : BlinkCont) (s : State) : State :=
  if lit then blinkOn (left - 1) k (setLed false s)
  else runJob (.blink left true k) (setLed true s)

end Sys2Proof.Machine
end

