-- ==== Sys2Proof/Machine/Audio.lean ====
section
/-! DEFINITION. The Audio Feeder (42_audio_feeder.md). -/

namespace Sys2Proof.Machine

/-- One write of the PWM compare register, with its trace entry (R41, R44). -/
def writeSample (sample : Byte) (s : State) : State :=
  { s with pwmCompare := sample, outTrace := s.outTrace ++ [.pwm sample] }

/-- A repeating table (R182): a sample at every underflow, and the index wraps to 0 at the end. -/
def feedRepeating (t : List Byte) (s : State) : State :=
  let i := if t.length ≤ s.afIndex.toNat then 0 else s.afIndex
  let s := writeSample (t.getD i.toNat 0) s
  { s with afIndex := if (i + 1).toNat = t.length then 0 else i + 1 }

/-- A one-shot table (R183): a sample while the index is inside the table, nothing once it is exhausted. -/
def feedOneShot (t : List Byte) (s : State) : State :=
  if s.afIndex.toNat < t.length then
    let s' := writeSample (t.getD s.afIndex.toNat 0) s
    { s' with afIndex := s.afIndex + 1 }
  else s

/-- The body of the underflow handler (R181 to R184). -/
def feedAudio (s : State) : State :=
  match selectedTable s.cfg s.boardState with
  | some (t, true) => feedRepeating t s
  | some (t, false) => feedOneShot t s
  | none => s

/-- `PWM_UNDERFLOW` (R181), enabled while audio is and the state is not `DONE`; otherwise it does not occur (log entry
7). -/
def execPwmUnderflow (s : State) : Out :=
  if s.afEnable = true ∧ s.boardState ≠ .done then
    .next (interruptReturn (feedAudio (interruptEntry s)))
  else .next s

/-- `GETAF` (R189). -/
def execGetaf (s : State) : Out :=
  asCommand s fun s => .next (giveResult (.counter s.afIndex) s)

end Sys2Proof.Machine
end

