-- ==== Sys2Proof/Machine/Block.lean ====
section
/-! DEFINITION. The block operations and the bus recovery as host commands (41_bus_composites.md). Each meaning is the
command's first step; the steps after it are `blockStep` and `recoverStep`. -/

namespace Sys2Proof.Machine

/-- `RDBLK a7, reg, count` (R160); a count of 0 is illegal (R108, R164). -/
def execRdblk (a7 : BitVec 7) (reg count : Byte) (s : State) : Out :=
  if count = 0 then .refused .illegalOperand
  else asCommand s fun s => readBlock a7 reg count.toNat .hostRead s

/-- `WRBLK a7, reg, bytes` (R161); the count fits its byte (R104, R164). -/
def execWrblk (a7 : BitVec 7) (reg : Byte) (bytes : List Byte) (s : State) : Out :=
  if countMax < bytes.length then .refused .illegalOperand
  else asCommand s fun s => writeBlock a7 reg bytes .hostWrite s

/-- `RECOVER` (R162): legal in every engine state. -/
def execRecover (s : State) : Out :=
  asCommand s fun s => .next (recoverStep recoveryPlan s)

end Sys2Proof.Machine
end

