-- ==== Sys2Proof/Machine/Bus.lean ====
section
/-! DEFINITION. The primitives of the Bus Transaction Engine and its events (40_bus_primitives.md). -/

namespace Sys2Proof.Machine

/-- `INIT` (R140). -/
def execInit (s : State) : Out :=
  asCommand s fun s => .next (giveResult .none (initEngine s))

/-- `START ab` (R141). -/
def execStart (ab : Byte) (s : State) : Out :=
  asCommand s fun s => startPrim ab .host s

/-- `RSTART ab` (R142). -/
def execRstart (ab : Byte) (s : State) : Out :=
  asCommand s fun s => restartPrim ab .host s

/-- `WBYTE b` (R143). -/
def execWbyte (b : Byte) (s : State) : Out :=
  asCommand s fun s => writePrim b .host s

/-- `RBYTE p` (R145). -/
def execRbyte (p : AckPolicy) (s : State) : Out :=
  asCommand s fun s => readPrim p .hostRead s

/-- `STOP` (R146): it does not wait. -/
def execStop (s : State) : Out :=
  asCommand s fun s =>
    whenEnabled s fun s => .next (giveResult (.code (stopPrim s).1) (stopPrim s).2)

/-- One timeout tick (R135). -/
def countTick (s : State) : State :=
  { s with toCount := s.toCount + 1 }

/-- `TICK_TO` (R135), always enabled. The wait in progress, if there is one, ends in this step when the counter
reaches its budget (R133). -/
def execTickTo (s : State) : Out :=
  .next (settle (countTick s))

/-- What a completion leaves in the engine (R136): the flags, the byte of a read, the trace entry, nothing pending. -/
def takeCompletion (f : PeerFlags) (d : Byte) (s : State) : State :=
  { completionFlags f s with
    data := if s.pending = .read then d else s.data
    busTrace := s.busTrace ++ [.complete f d]
    pending := .none }

/-- `PEER_COMPLETE(f, d)` (R136), enabled while a bus command is pending; otherwise it does not occur (log entry 7).
The wait in progress ends in this step. -/
def execPeerComplete (f : PeerFlags) (d : Byte) (s : State) : Out :=
  if s.pending = .none then .next s else .next (settle (takeCompletion f d s))

/-- `BUS_FAULT` (R137), always enabled. -/
def execBusFault (s : State) : Out :=
  .next { s with flagBerr := true }

end Sys2Proof.Machine
end

