-- ==== Sys2Proof/Machine/Control.lean ====
section
/-! DEFINITION. The Control State Machine (45_control_state_machine.md): the main-loop iteration, and the access
commands to the Board State. -/

namespace Sys2Proof.Machine

/-- `SETDIGIT` of one glyph in positions 0, 1, 3 and 4 (R264, R267). -/
def fourDigits (g : Byte) : List LoopAct :=
  [.setDigit 0 g, .setDigit 1 g, .setDigit 3 g, .setDigit 4 g]

/-- R264, an input being activated: enter wire-setup, show dashes, blink at the configured rate. -/
def setupActs (c : Config) : List LoopAct :=
  .enter .wireSetup :: (fourDigits c.glyphDash ++
    [.setDigit 2 0, .writeAll, .setBlink (c.blinkSetup.setWidth 8)])

/-- R267, rollover: enter failure, show zeros, blink at the failure rate. -/
def rolloverActs (c : Config) : List LoopAct :=
  .enter .failure :: (fourDigits 0 ++ [.writeAll, .setBlink (c.blinkFail.setWidth 8)])

/-- R267, the safe input alone. -/
def successActs (c : Config) : List LoopAct :=
  [.enter .success, .setBlink (c.blinkSuccess.setWidth 8)]

/-- R267, any other input combination. -/
def wrongInputActs (c : Config) : List LoopAct :=
  [.enter .failure, .setBlink (c.blinkFail.setWidth 8)]

/-- R267, no exit: show the counter value `w`. -/
def showCountActs (w : Counter) : List LoopAct :=
  [.setDigit 0 (decimalDigit w 3), .setDigit 1 (decimalDigit w 2),
    .setDigit 3 (decimalDigit w 1), .setDigit 4 (decimalDigit w 0), .writeAll]

/-- The branch of R267 on the input mask `m`. -/
def inputActs (c : Config) (safeIdx : Nat) (m : Byte) : List LoopAct :=
  if m = safeMask safeIdx then successActs c
  else if m ≠ 0 then wrongInputActs c
  else [.readCount]

/-- The first step of an iteration (R261): nothing in the low-power wait, else one read of the Board State, whose
action follows. In `COUNTING_DOWN` every branch of the action reaches the display, so a disabled engine refuses it
here (R362, log entry 12). -/
def startLoop (s : State) : Out :=
  if s.lowpower then .next (runJob .loopGate s)
  else
    match s.boardState with
    | .sleeping => .next (loopOn [.testSleeping] s)
    | .wireSetup => .next (loopOn [.testSetup] s)
    | .waitingArmed => .next (loopOn [] s)
    | .countingDown => whenEnabled s fun s => .next (loopOn [.takeRoll] s)
    | .success => .next (loopOn [.exhaustedState] s)
    | .failure => .next (loopOn [.exhaustedState] s)
    | .done => .next (loopOn [.lowPower] s)

/-- The next step of an iteration: `a`, with `rest` after it (R264 to R270). -/
def loopStep (a : LoopAct) (rest : List LoopAct) (s : State) : Out :=
  match a with
  | .testSleeping =>
    if s.inputs = 0 then .next (loopOn (.lowPower :: rest) s)
    else whenEnabled s fun s => .next (loopOn (setupActs s.cfg ++ rest) s)
  | .testSetup =>
    if s.inputs = 0 then .next (loopOn (.enter .waitingArmed :: rest) s)
    else .next (loopOn rest s)
  | .takeRoll =>
    if (takeRollover s).1 then .next (loopOn (rolloverActs s.cfg ++ rest) (takeRollover s).2)
    else .next (loopOn (.readInputs :: rest) (takeRollover s).2)
  | .readInputs => .next (loopOn (inputActs s.cfg s.safeIdx s.inputs ++ rest) s)
  | .readCount => .next (loopOn (showCountActs s.cdCounter ++ rest) s)
  | .exhaustedState => .next (loopOn (.exhaustedIndex s.boardState :: rest) s)
  | .exhaustedIndex b =>
    if exhausted s.cfg b s.afIndex then .next (loopOn (.enter .done :: rest) s)
    else .next (loopOn rest s)
  | .enter b => .next (loopOn rest (enter b s))
  | .setDigit index glyph => .next (loopOn rest (putDigit index glyph s))
  | .writeAll => digitStep 0 .ok (.loop rest) s
  | .setBlink rate => blinkRate rate (.loop rest) s
  | .lowPower => .next (loopOn rest { s with lowpower := true })

/-- `MAINLOOP` (R261): the first step of one iteration. -/
def execMainloop (s : State) : Out :=
  asCommand s fun s => startLoop s

/-- `SETSTATE b` (R272). -/
def execSetstate (b : BoardState) (s : State) : Out :=
  asCommand s fun s => .next (giveResult .none (enter b s))

/-- `GETSTATE` (R273). -/
def execGetstate (s : State) : Out :=
  asCommand s fun s => .next (giveResult (.board s.boardState) s)

end Sys2Proof.Machine
end

