-- ==== Sys2Proof/Machine/Countdown.lean ====
section
/-! DEFINITION. The Countdown & Debounce Timer (43_countdown_debounce.md). -/

namespace Sys2Proof.Machine

/-- The counting-down duty (R202): decrement, then test for zero, then set the flag and reload. -/
def countDown (s : State) : State :=
  { s with
    cdCounter := if s.cdCounter - 1 = 0 then s.cfg.cdStart else s.cdCounter - 1
    rollover := if s.cdCounter - 1 = 0 then true else s.rollover }

/-- The blink phase (R207): decrement, reload at zero, and drive the indicator. -/
def blinkPhaseTick (s : State) : State :=
  let p := s.blinkPhase - 1
  let p := if p = 0 then blinkReloadOf s.cfg s.safeIdx else p
  setLed (hintLed s.cfg p s.safeIdx) { s with blinkPhase := p }

/-- The debounce duty, sensor active (R203). -/
def debounceActive (s : State) : State :=
  let n := s.pirHigh + 1
  if s.cfg.thActive ≤ n then enter .countingDown { s with pirLow := 0, pirHigh := 0 }
  else { s with pirLow := 0, pirHigh := n }

/-- The debounce duty, sensor inactive (R204). -/
def debounceInactive (s : State) : State :=
  let n := s.pirLow + 1
  if s.cfg.thInactive ≤ n then enter .sleeping { s with pirHigh := 0, pirLow := 0 }
  else { s with pirHigh := 0, pirLow := n }

/-- The duties of the periodic handler, gated by the Board State (R201, R205). -/
def timerDuties (pir : Bool) (s : State) : State :=
  match s.boardState with
  | .countingDown => blinkPhaseTick (countDown s)
  | .waitingArmed => if pir then debounceActive s else debounceInactive s
  | .sleeping => s
  | .wireSetup => s
  | .success => s
  | .failure => s
  | .done => s

/-- `TICK_CD pir` (R201), enabled by `cdt_ie` in every state but `DONE`; otherwise it does not occur (log entry 7). -/
def execTickCd (pir : Bool) (s : State) : Out :=
  if s.cdtIe = true ∧ s.boardState ≠ .done then
    .next (interruptReturn (timerDuties pir (interruptEntry s)))
  else .next s

/-- The body of the sensor-edge handler (R208). -/
def sensorWake (s : State) : State :=
  if s.boardState = .sleeping then enter .waitingArmed s else s

/-- `SENSOR_EDGE` (R208), enabled by `wake_ie`; otherwise it does not occur (log entry 7). -/
def execSensorEdge (s : State) : Out :=
  if s.wakeIe = true then .next (interruptReturn (sensorWake (interruptEntry s)))
  else .next s

/-- `INPUTS mask` (R212): no interrupt, no wake-up. A bit at or above `N_INPUTS` is illegal (R108). -/
def execInputs (mask : Byte) (s : State) : Out :=
  if maskFits s.cfg.nInputs mask then .next { s with inputs := mask }
  else .refused .illegalOperand

/-- `TAKEROLL` (R210). -/
def execTakeroll (s : State) : Out :=
  asCommand s fun s => .next (giveResult (.bit (takeRollover s).1) (takeRollover s).2)

/-- `GETCNT` (R211). -/
def execGetcnt (s : State) : Out :=
  asCommand s fun s => .next (giveResult (.counter s.cdCounter) s)

end Sys2Proof.Machine
end

