-- ==== Sys2Proof/Machine/Display.lean ====
section
/-! DEFINITION. The Display Driver's commands and the blink primitive (44_display_driver.md). -/

namespace Sys2Proof.Machine

/-- `SETDIGIT index, glyph` (R231, R232): no result, nothing on the bus. -/
def execSetdigit (index glyph : Byte) (s : State) : Out :=
  asCommand s fun s => .next (giveResult .none (putDigit index glyph s))

/-- `WRITEALL` (R233). -/
def execWriteall (s : State) : Out :=
  asCommand s fun s => digitStep 0 .ok .host s

/-- `SETBLINK rate` (R235). -/
def execSetblink (rate : Byte) (s : State) : Out :=
  asCommand s fun s => blinkRate rate .host s

/-- `SETOSC on` (R236): out of range is silently dropped. -/
def execSetosc (on : Byte) (s : State) : Out :=
  asCommand s fun s =>
    if on.toNat ≤ 1 then configWrite (oscCommand s.cfg on) .host s
    else .next (giveResult (.code .ok) s)

/-- `SETDISP on` (R237): the blink-rate field is 0. -/
def execSetdisp (on : Byte) (s : State) : Out :=
  asCommand s fun s =>
    if on.toNat ≤ 1 then configWrite (dispCommand s.cfg 0 on) .host s
    else .next (giveResult (.code .ok) s)

/-- `SETDIM level` (R238). -/
def execSetdim (level : Byte) (s : State) : Out :=
  asCommand s fun s =>
    if level.toNat ≤ 15 then configWrite (dimCommand s.cfg level) .host s
    else .next (giveResult (.code .ok) s)

/-- `BLINKN n` (R246): its first write of the indicator, or nothing for an `n` of 0. -/
def execBlinkn (n : Byte) (s : State) : Out :=
  asCommand s fun s =>
    if n = 0 then .next (giveResult .none s) else .next (blinkStep n.toNat false .host s)

end Sys2Proof.Machine
end

