-- ==== Sys2Proof/Machine/Dispatch.lean ====
section
/-! DEFINITION. The dispatch: one meaning for each operation. -/

namespace Sys2Proof.Machine

def exec (i : Instr) (s : State) : Host.Outcome State Fault Refusal :=
  match i with
  | .init => Sys2Proof.Machine.execInit s
  | .start ab => Sys2Proof.Machine.execStart ab s
  | .rstart ab => Sys2Proof.Machine.execRstart ab s
  | .wbyte b => Sys2Proof.Machine.execWbyte b s
  | .rbyte p => Sys2Proof.Machine.execRbyte p s
  | .stop => Sys2Proof.Machine.execStop s
  | .recover => Sys2Proof.Machine.execRecover s
  | .rdblk a7 reg count => Sys2Proof.Machine.execRdblk a7 reg count s
  | .wrblk a7 reg bytes => Sys2Proof.Machine.execWrblk a7 reg bytes s
  | .setdigit index glyph => Sys2Proof.Machine.execSetdigit index glyph s
  | .writeall => Sys2Proof.Machine.execWriteall s
  | .setblink rate => Sys2Proof.Machine.execSetblink rate s
  | .setosc on => Sys2Proof.Machine.execSetosc on s
  | .setdisp on => Sys2Proof.Machine.execSetdisp on s
  | .setdim level => Sys2Proof.Machine.execSetdim level s
  | .blinkn n => Sys2Proof.Machine.execBlinkn n s
  | .takeroll => Sys2Proof.Machine.execTakeroll s
  | .getcnt => Sys2Proof.Machine.execGetcnt s
  | .getstate => Sys2Proof.Machine.execGetstate s
  | .setstate b => Sys2Proof.Machine.execSetstate b s
  | .getaf => Sys2Proof.Machine.execGetaf s
  | .mainloop => Sys2Proof.Machine.execMainloop s
  | .tickTo => Sys2Proof.Machine.execTickTo s
  | .tickCd pir => Sys2Proof.Machine.execTickCd pir s
  | .pwmUnderflow => Sys2Proof.Machine.execPwmUnderflow s
  | .sensorEdge => Sys2Proof.Machine.execSensorEdge s
  | .peerComplete f d => Sys2Proof.Machine.execPeerComplete f d s
  | .busFault => Sys2Proof.Machine.execBusFault s
  | .inputs mask => Sys2Proof.Machine.execInputs mask s

end Sys2Proof.Machine
end

