-- ==== Sys2Proof/Machine/Turn.lean ====
section
/-! DEFINITION. Who moves and what it does: the host takes the next step of its command or fetches the next command of
its stream, the environment takes its next event (00_scope.md R13, 60_exceptions.md R321). Also the placing of an
operation where the next step takes it. -/

namespace Sys2Proof.Machine

/-- The host can move: it is idle with a command to come, or in a command and neither blocked in a wait (R133) nor
held by the low-power wait (R261). -/
def hostReady (s : State) : Bool :=
  match s.ctl with
  | .idle => !s.cmds.isEmpty
  | .run .loopGate => !s.lowpower
  | .run _ => true
  | .wait _ _ => false

/-- The environment has an event to take. -/
def envReady (s : State) : Bool :=
  !s.events.isEmpty

/-- Who moves, and the state with the choice consumed. Where both can move, `sched` chooses, and the host moves when
`sched` is empty; where one can, it moves; `none` where neither can (R321, log entry 5). -/
def takeTurn (s : State) : Option (Agent × State) :=
  match hostReady s, envReady s with
  | true, true =>
    match s.sched with
    | [] => some (.host, s)
    | a :: rest => some (a, { s with sched := rest })
  | true, false => some (.host, s)
  | false, true => some (.env, s)
  | false, false => none

/-- The host's next step in the middle of a command. -/
def hostStep (j : Job) (s : State) : Out :=
  match j with
  | .block pos k => blockStep pos k s
  | .digit i res up => digitStep i res up s
  | .recover todo => .next (recoverStep todo s)
  | .blink left lit k => .next (blinkStep left lit k s)
  | .loopGate => startLoop s
  | .loop [] => .next (loopOn [] s)
  | .loop (a :: rest) => loopStep a rest s

/-- Fetch the next command of the host's stream and run it (R22, R104). -/
def fetchCommand (s : State) : Out :=
  match decode s.cfg.nInputs s.cmds with
  | .error e => .refused (.invalidEncoding e)
  | .ok (i, rest) =>
    if i.isEvent then .refused .wrongAgent else exec i { s with cmds := rest }

/-- Take the next event of the environment (R106). -/
def fetchEvent (s : State) : Out :=
  match decode s.cfg.nInputs s.events with
  | .error e => .refused (.invalidEncoding e)
  | .ok (i, rest) =>
    if i.isEvent then exec i { s with events := rest } else .refused .wrongAgent

/-- The host's move. -/
def hostMove (s : State) : Out :=
  match s.ctl with
  | .run j => hostStep j s
  | .idle => fetchCommand s
  | .wait _ _ => .fault .quiescent

/-- One step of the machine with an admitted configuration. -/
def move (s : State) : Out :=
  match takeTurn s with
  | some (.host, s) => hostMove s
  | some (.env, s) => fetchEvent s
  | none => .fault .quiescent

/-- Put an operation's bytes where the host takes its next command: the host is between commands, and moves first. -/
def placeCommand (bytes : List Byte) (s : State) : State :=
  { s with
    ctl := .idle
    cmds := bytes ++ s.cmds
    sched := if s.events.isEmpty then s.sched else .host :: s.sched }

/-- Put an operation's bytes where the environment takes its next event, and let it move first. -/
def placeEvent (bytes : List Byte) (s : State) : State :=
  { s with
    events := bytes ++ s.events
    sched := if hostReady s then .env :: s.sched else s.sched }

/-- Put an operation's bytes in the stream its opcode belongs to: 0x80 and above are events (R104). -/
def placeOperation (bytes : List Byte) (s : State) : State :=
  if (bytes.headD 0).toNat < 0x80 then placeCommand bytes s else placeEvent bytes s

end Sys2Proof.Machine
end

