-- ==== Sys2Proof/Machine/Step.lean ====
section
/-! DEFINITION. One step of the machine, and the placing of an operation where the next step fetches it. -/

namespace Sys2Proof.Machine

/-- One step: refused for a configuration that is not admitted (00_scope.md R9), else the move of whichever agent's
turn it is. -/
def step (s : State) : Host.Outcome State Fault Refusal :=
  if admitted s.cfg then move s else .refused .configNotAdmitted

/-- `s` with the operation whose bits are the lowest `nbits` of `w` (every bit above them 0) placed as the very next
one: at the head of the host's command stream with the host between commands, or at the head of the environment's
events (log entry 4). -/
def State.withFetchWord (s : State) (nbits w : Nat) : State :=
  placeOperation (tableBytes nbits w) s

end Sys2Proof.Machine
end

