-- ==== Sys2Proof/Machine/Peer.lean ====
section
/-! DEFINITION. The healthy peer of 20_memory.md R78, an assumption a claim names: the peripheral side of the bus is no
part of the block (R76), so this is no part of State and `step` does not read it. Also the short runs in which one side
moves alone, in whose terms the claims about whole operations are stated. -/

namespace Sys2Proof.Machine

/-! ## The peer's memory

A list of (address, byte) pairs, addresses strictly rising, no entry equal to what an unlisted address reads as. The
address of register `r` of device `a7` is `256 * a7 + r`. An unlisted address reads as 0 (DESIGN CHOICE, log entry 18:
R78 gives the initial contents no value; every contents is some such list). -/

/-- The key of register `r` of device `a7` (R72). -/
def peerCell (a7 : BitVec 7) (r : Byte) : Nat :=
  256 * a7.toNat + r.toNat

/-- Read one byte of the peer's memory. -/
def peerRead (mem : List Host.Cell) (a : Nat) : Byte :=
  match mem with
  | [] => 0
  | (k, v) :: rest => if k = a then v else peerRead rest a

/-- Put a byte in front of the cells above it; the byte 0 is not listed. -/
def peerCons (a : Nat) (v : Byte) (rest : List Host.Cell) : List Host.Cell :=
  if v = 0 then rest else (a, v) :: rest

/-- Write one byte of the peer's memory, keeping its canonical form. -/
def peerWrite (mem : List Host.Cell) (a : Nat) (v : Byte) : List Host.Cell :=
  match mem with
  | [] => peerCons a v []
  | (k, w) :: rest =>
    if a < k then peerCons a v ((k, w) :: rest)
    else if k = a then peerCons a v rest
    else (k, w) :: peerWrite rest a v

/-- Every listed address is at least `lo`, addresses strictly rise, and no listed byte is 0. -/
def peerMemFrom (lo : Nat) (mem : List Host.Cell) : Bool :=
  match mem with
  | [] => true
  | (k, v) :: rest => decide (lo ≤ k) && v != 0 && peerMemFrom (k + 1) rest

/-- The canonical form of the peer's memory. -/
def peerMemWf (mem : List Host.Cell) : Bool :=
  peerMemFrom 0 mem

/-! ## The peer -/

/-- The healthy peer's own state (R78). -/
structure Peer where
  mem : List Host.Cell
  ptr : Byte
  dev : BitVec 7
  first : Bool
  deriving DecidableEq, Repr

/-- What the healthy peer does on a bus command, and the data byte of its completion; `none` for the events it does not
answer. `any` stands for the data byte of this answer where R78 leaves it open. -/
def peerAnswer (any : Byte) (e : BusEvent) (p : Peer) : Option (Peer × Byte) :=
  match e with
  | .addr ab _ =>
    some ({ p with
      dev := (ab >>> 1).setWidth 7
      first := if ab.getLsbD 0 then p.first else true }, any)
  | .write b =>
    some (if p.first then { p with ptr := b, first := false }
      else { p with mem := peerWrite p.mem (peerCell p.dev p.ptr) b, ptr := p.ptr + 1 }, any)
  | .read _ => some ({ p with ptr := p.ptr + 1 }, peerRead p.mem (peerCell p.dev p.ptr))
  | .stop => none
  | .complete _ _ => none
  | .recRelease => none
  | .recPulse => none
  | .init => none

/-- A completion with no flag set. -/
def noFlags : PeerFlags where
  berr := false
  arb := false
  nack := false

/-! ## Runs of one side -/

/-- `n` steps of the host in the middle of its command, no other agent moving. -/
def hostSteps (n : Nat) (s : State) : Out :=
  match n with
  | 0 => .next s
  | n + 1 =>
    match s.ctl with
    | .run j =>
      match hostStep j s with
      | .next s' => hostSteps n s'
      | .fault f => .fault f
      | .refused r => .refused r
    | .idle => .fault .quiescent
    | .wait _ _ => .fault .quiescent

/-- Operations taken one after the other. -/
def execSeq (is : List Instr) (s : State) : Out :=
  match is with
  | [] => .next s
  | i :: is =>
    match exec i s with
    | .next s' => execSeq is s'
    | .fault f => .fault f
    | .refused r => .refused r

/-! ## What may fall before the peer's answer

The healthy peer answers a pending command at any time before the timeout counter reaches the budget of the wait
(R78), and the interrupts, the inputs and the ticks go on meanwhile (R133, R147). A script says what falls before each
step of a run: a claim over every script is a claim over every time of the answers. -/

/-- An event that is not the peer's: the healthy peer sends no `BUS_FAULT`, and a `PEER_COMPLETE` only as its answer. -/
inductive Beside where
  /-- `TICK_TO` -/
  | tick
  /-- `TICK_CD pir` -/
  | timer (pir : Bool)
  /-- `PWM_UNDERFLOW` -/
  | underflow
  /-- `SENSOR_EDGE` -/
  | edge
  /-- `INPUTS mask` -/
  | inputs (mask : Byte)
  deriving DecidableEq, Repr

/-- The operation of such an event. -/
def Beside.instr : Beside → Instr
  | .tick => .tickTo
  | .timer pir => .tickCd pir
  | .underflow => .pwmUnderflow
  | .edge => .sensorEdge
  | .inputs mask => .inputs mask

/-- The event is a tick that would end the wait in progress: the healthy peer answers before it (R78). -/
def tooLate (e : Beside) (s : State) : Bool :=
  match s.ctl with
  | .wait b _ => decide (e = .tick) && wake b (countTick s)
  | .idle => false
  | .run _ => false

/-- One event of a script. A tick that would come too late, and an `INPUTS` that names an input the machine has not, is
none: it is passed over. -/
def beside (e : Beside) (s : State) : State :=
  if tooLate e s then s
  else
    match exec e.instr s with
    | .next t => t
    | .fault _ => s
    | .refused _ => s

/-- Events of a script, one after the other. -/
def besides (es : List Beside) (s : State) : State :=
  es.foldl (fun s e => beside e s) s

/-! ## Runs with the healthy peer -/

/-- One step of the block with the healthy peer, after the events `es`: the host goes on with its command if it can, or
the peer answers the pending bus command, the last entry of the trace. `any n` is the data byte R78 leaves open in the
completion that becomes entry `n` of the trace. `none` when the host is idle, or where the run ends. -/
def servedStep (any : Nat → Byte) (es : List Beside) (sp : State × Peer) : Option (State × Peer) :=
  match sp.1.ctl with
  | .idle => none
  | .run j =>
    if hostReady (besides es sp.1) then
      match hostStep j (besides es sp.1) with
      | .next s' => some (s', sp.2)
      | .fault _ => none
      | .refused _ => none
    else some (besides es sp.1, sp.2)
  | .wait _ _ =>
    match sp.1.busTrace.getLast?.bind (fun e => peerAnswer (any sp.1.busTrace.length) e sp.2) with
    | some (p', d) =>
      match exec (.peerComplete noFlags d) (besides es sp.1) with
      | .next s' => some (s', p')
      | .fault _ => none
      | .refused _ => none
    | none => none

/-- The block with the healthy peer, one step for each entry of the script, until the host is idle. -/
def serve (any : Nat → Byte) (script : List (List Beside)) (sp : State × Peer) : State × Peer :=
  match script with
  | [] => sp
  | es :: script =>
    match servedStep any es sp with
    | some sp' => serve any script sp'
    | none => sp

/-- Run one operation with the healthy peer: its first step, then one step for each entry of the script, or fewer when
it ends before. -/
def runServed (any : Nat → Byte) (script : List (List Beside)) (i : Instr) (sp : State × Peer) :
    Option (State × Peer) :=
  match exec i sp.1 with
  | .next s' => some (serve any script (s', sp.2))
  | .fault _ => none
  | .refused _ => none

/-- No event falls in the run: the host's steps and the answers follow one another. -/
def quiet (script : List (List Beside)) : Prop :=
  ∀ es ∈ script, es = []

/-- No event but timeout ticks falls in the run: only the times of the answers vary. -/
def onlyTicks (script : List (List Beside)) : Prop :=
  ∀ es ∈ script, ∀ e ∈ es, e = .tick

/-! ## What a write transaction puts in the bus trace -/

/-- Bus commands, the first of them entry `n` of the trace, each with the healthy peer's completion after it. -/
def answered (any : Nat → Byte) (n : Nat) (es : List BusEvent) : List BusEvent :=
  match es with
  | [] => []
  | e :: es => e :: .complete noFlags (any (n + 1)) :: answered any (n + 2) es

/-- The trace, from entry `n` on, of a write to device `a7` whose every byte the healthy peer takes: the address byte,
`bytes`, then the stop (R36, R161). -/
def writeTransaction (any : Nat → Byte) (n : Nat) (a7 : BitVec 7) (bytes : List Byte) : List BusEvent :=
  answered any n (.addr (addressByte a7 false) false :: bytes.map .write) ++ [.stop]

/-- The trace of one bus recovery (R162). -/
def recoveryTrace : List BusEvent :=
  .recRelease :: (List.replicate recPulses .recPulse ++ List.replicate recReinits .init)

/-- From `t`, the first state of the failure path, the host takes the twelve steps of a recovery and block operation `k`
then ends with `FAIL` (R163). `u` holds everything the recovery does not set, and the bus trace it adds to. For `k` of
`WRITEALL` or of a configuration write the run is followed to the last of the twelve steps. -/
structure RecoversAndFails (k : Cont) (t u : State) : Prop where
  last : hostSteps 11 t = .next { u with
    enabled := true, owner := false, pending := .none, flagTc := false, flagBerr := false, flagArb := false,
    flagNack := false, ackPolicy := .nack, busTrace := u.busTrace ++ recoveryTrace.dropLast,
    ctl := .run (.block (.recover [.reinit]) k) }
  host : ∀ r : Result, (k = .hostRead ∧ r = .block .fail none) ∨ (k = .hostWrite ∧ r = .code .fail) →
    hostSteps 12 t = .next { u with
      enabled := true, owner := false, pending := .none, flagTc := false, flagBerr := false, flagArb := false,
      flagNack := false, ackPolicy := .nack, busTrace := u.busTrace ++ recoveryTrace, ctl := .idle, result := r }

end Sys2Proof.Machine
end

