-- ==== Sys2Proof/Safety.lean ====
section
/-! DEFINITION. What holds of every reachable state: the invariants the spec states of its elements, in the terms the
claims use. -/

namespace Sys2Proof.Machine

/-! ## The state by unit, for frames -/

/-- The elements the Bus Transaction Engine owns (R24). -/
structure EngineFields where
  enabled : Bool
  owner : Bool
  flagTc : Bool
  flagBerr : Bool
  flagArb : Bool
  flagNack : Bool
  ackPolicy : AckPolicy
  data : Byte
  toCount : Counter
  pending : Pending
  busTrace : List BusEvent
  deriving DecidableEq, Repr

/-- The bus engine's part of a state. -/
def engineOf (s : State) : EngineFields where
  enabled := s.enabled
  owner := s.owner
  flagTc := s.flagTc
  flagBerr := s.flagBerr
  flagArb := s.flagArb
  flagNack := s.flagNack
  ackPolicy := s.ackPolicy
  data := s.data
  toCount := s.toCount
  pending := s.pending
  busTrace := s.busTrace

/-- The elements of the Audio Feeder and of the Countdown & Debounce Timer, and the shared elements they act on (R24),
with the configuration. -/
structure LifecycleFields where
  afIndex : Counter
  pwmCompare : Byte
  afEnable : Bool
  cdCounter : Counter
  rollover : Bool
  blinkPhase : Counter
  pirHigh : Counter
  pirLow : Counter
  cdtIe : Bool
  wakeIe : Bool
  boardState : BoardState
  safeIdx : Nat
  inputs : Byte
  cfg : Config
  deriving DecidableEq, Repr

/-- The feeder's, timer's and shared part of a state. -/
def lifecycleOf (s : State) : LifecycleFields where
  afIndex := s.afIndex
  pwmCompare := s.pwmCompare
  afEnable := s.afEnable
  cdCounter := s.cdCounter
  rollover := s.rollover
  blinkPhase := s.blinkPhase
  pirHigh := s.pirHigh
  pirLow := s.pirLow
  cdtIe := s.cdtIe
  wakeIe := s.wakeIe
  boardState := s.boardState
  safeIdx := s.safeIdx
  inputs := s.inputs
  cfg := s.cfg

/-- The indicator, the display buffer, the low-power condition and the output history (R24). -/
structure OutputFields where
  led : Bool
  dispBuf : Vector Byte 5
  lowpower : Bool
  outTrace : List OutEvent
  deriving DecidableEq, Repr

/-- The display's and indicator's part of a state. -/
def outputOf (s : State) : OutputFields where
  led := s.led
  dispBuf := s.dispBuf
  lowpower := s.lowpower
  outTrace := s.outTrace

/-- The model's own fields: the host's control and result, and the streams. -/
structure HostFields where
  ctl : Ctl
  result : Result
  cmds : List Byte
  events : List Byte
  sched : List Agent
  deriving DecidableEq, Repr

/-- The host's part of a state. -/
def hostOf (s : State) : HostFields where
  ctl := s.ctl
  result := s.result
  cmds := s.cmds
  events := s.events
  sched := s.sched

/-- `t` differs from `s` at most in the bus engine, in what the host is doing and in its last result: the feeder, the
timer, the shared elements, the outputs and the streams are the same. -/
structure OnlyEngine (s t : State) : Prop where
  lifecycle : lifecycleOf t = lifecycleOf s
  output : outputOf t = outputOf s
  cmds : t.cmds = s.cmds
  events : t.events = s.events
  sched : t.sched = s.sched

/-! ## Invariants -/

/-- A draw of the values R62 and R63 leave open is one the spec allows. -/
def drawFits (c : Config) (d : Draws) : Prop :=
  d.safeIdx < c.nInputs ∧ maskFits c.nInputs d.inputs = true

/-- R45, R47, R48 and R18: the counters of the Countdown & Debounce Timer stay in their ranges. -/
structure TimerInRange (s : State) : Prop where
  counter_pos : s.cdCounter ≠ 0
  counter_le : s.cdCounter ≤ s.cfg.cdStart
  phase_pos : s.blinkPhase ≠ 0
  high_lt : s.pirHigh < s.cfg.thActive
  low_lt : s.pirLow < s.cfg.thInactive
  one_zero : s.pirHigh = 0 ∨ s.pirLow = 0

/-- R271's consequences: which interrupts are enabled in which Board State. -/
structure EnablesFollow (s : State) : Prop where
  wake_iff : s.wakeIe = true ↔ s.boardState = .sleeping
  timer_off : s.boardState = .sleeping ∨ s.boardState = .done → s.cdtIe = false
  timer_on : s.boardState = .waitingArmed ∨ s.boardState = .countingDown → s.cdtIe = true
  audio_off : s.boardState = .sleeping ∨ s.boardState = .done → s.afEnable = false
  audio_on : s.boardState = .countingDown ∨ s.boardState = .success ∨ s.boardState = .failure →
    s.afEnable = true

/-- R40: the audio index stays inside the selected table, or at the end of a one-shot table. -/
structure IndexInTable (s : State) : Prop where
  siren_lt : s.boardState = .countingDown → s.afIndex.toNat < s.cfg.siren.length
  win_le : s.boardState = .success → s.afIndex.toNat ≤ s.cfg.win.length
  lose_le : s.boardState = .failure → s.afIndex.toNat ≤ s.cfg.lose.length

/-- R51, R52: the Safe-Choice Index names an input, and only existing inputs are activated. -/
structure InputsExist (s : State) : Prop where
  safe_lt : s.safeIdx < s.cfg.nInputs
  mask_fits : maskFits s.cfg.nInputs s.inputs = true

/-- The phases of a block operation at which it holds the bus. -/
def holdsBus : BlkPos → Bool
  | .recover _ => false
  | .wReg _ _ => true
  | .wData _ => true
  | .rReg _ _ _ => true
  | .rRestart _ _ => true
  | .rByte _ _ => true
  | .stop _ => true
  | .stopAbsent => true

/-- R31, R35, R133: a command is pending exactly while the host is blocked in a wait; a wait in progress has seen
neither the completion nor its budget; the bus is owned by an enabled engine only, and by a block operation until its
end. -/
structure EngineConsistent (s : State) : Prop where
  pending_iff : s.pending ≠ .none ↔ ∃ b w, s.ctl = .wait b w
  wait_open : ∀ b w, s.ctl = .wait b w → s.flagTc = false ∧ s.toCount < b ∧ s.owner = true
  owner_enabled : s.owner = true → s.enabled = true
  block_owns : ∀ pos k, s.ctl = .run (.block pos k) → holdsBus pos = true → s.owner = true

/-- The invariant every step keeps. -/
structure Inv (s : State) : Prop where
  timer : TimerInRange s
  enables : EnablesFollow s
  index : IndexInTable s
  inputs : InputsExist s
  engine : EngineConsistent s

/-- Every position of the Display Buffer that is looked up in the glyph table is in range (R363). -/
def glyphsInRange (s : State) : Prop :=
  ∀ i : Fin 5, i.val ≠ sepIndex → (s.dispBuf[i]).toNat < s.cfg.glyph.length

/-- A state from which a block operation can begin and whose waits can end with a completion (R138, R78): the host is
idle, the engine enabled and not owner with no latched bus error, and every budget at least 1. -/
structure BusReady (s : State) : Prop where
  idle : s.ctl = .idle
  enabled : s.enabled = true
  not_owner : s.owner = false
  no_error : s.flagBerr = false
  addr_pos : s.cfg.toAddr ≠ 0
  read_pos : s.cfg.toRead ≠ 0
  write_pos : s.cfg.toWrite ≠ 0

end Sys2Proof.Machine
end

