-- ==== Sys2Proof/Certificates/Slice0/Obligations.lean ====
section
/-! DEFINITION. The statements for the provers. Wherever a statement gives a whole next state as `{ s with … }`, every
element not named is unchanged: that is its frame. -/

open Sys2Proof Sys2Proof.Machine

/-! ## Encoding -/

/-- R104 to R110: decoding the bytes of a well-formed operation gives the operation back, with every operand, and
leaves the bytes after it. -/
def Obligations.DecodeEncode : Prop :=
  ∀ (n : Nat) (i : Instr) (rest : List Byte),
    i.wellFormed n = true → decode n (encode i ++ rest) = .ok (i, rest)

/-- R104 to R110, the other way: what decodes is well-formed, the bytes read are exactly its encoding, and their number
is the length its first byte decides (for `WRBLK`, 4 plus its fourth byte); a string shorter than that is invalid. -/
def Obligations.EncodeDecode : Prop :=
  ∀ (n : Nat) (bytes : List Byte),
    (∀ (i : Instr) (rest : List Byte), decode n bytes = .ok (i, rest) →
      i.wellFormed n = true ∧ bytes = encode i ++ rest ∧ bytes.length = streamLength bytes + rest.length) ∧
    (bytes.length < streamLength bytes →
      ∃ (op : Byte) (tail : List Byte), bytes = op :: tail ∧ decode n bytes = .error (.truncated op))

/-- R108 and R109: a byte outside the tables of R105 and R106, and only such a byte, is refused as reserved; every
operand outside its range is refused as illegal. -/
def Obligations.InvalidEncodingsRefused : Prop :=
  (∀ (n : Nat) (op : Byte) (rest : List Byte),
    decode n (op :: rest) = .error (.reserved op) ↔
      op ∉ ([0x01, 0x02, 0x03, 0x04, 0x05, 0x06, 0x07, 0x10, 0x11, 0x20, 0x21, 0x22, 0x23, 0x24, 0x25, 0x26, 0x30,
        0x31, 0x32, 0x33, 0x34, 0x40, 0x80, 0x81, 0x82, 0x83, 0x84, 0x85, 0x86] : List Byte)) ∧
  (∀ (n : Nat) (p : Byte) (rest : List Byte), 1 < p.toNat →
    decode n (0x05 :: p :: rest) = .error (.illegal 0x05) ∧ decode n (0x81 :: p :: rest) = .error (.illegal 0x81)) ∧
  (∀ (n : Nat) (f d : Byte) (rest : List Byte), 7 < f.toNat →
    decode n (0x84 :: f :: d :: rest) = .error (.illegal 0x84)) ∧
  (∀ (n : Nat) (m : Byte) (rest : List Byte), 2 ^ n ≤ m.toNat →
    decode n (0x86 :: m :: rest) = .error (.illegal 0x86)) ∧
  (∀ (n : Nat) (b : Byte) (rest : List Byte), 6 < b.toNat →
    decode n (0x33 :: b :: rest) = .error (.illegal 0x33)) ∧
  (∀ (n : Nat) (a reg c : Byte) (rest : List Byte), 127 < a.toNat ∨ c = 0 →
    decode n (0x10 :: a :: reg :: c :: rest) = .error (.illegal 0x10)) ∧
  (∀ (n : Nat) (a reg c : Byte) (rest : List Byte), 127 < a.toNat → c.toNat ≤ rest.length →
    decode n (0x11 :: a :: reg :: c :: rest) = .error (.illegal 0x11))

/-- Words written out from the spec's own encodings (95_test_vectors.md, section 2) decode to the operations they stand
for. -/
def Obligations.WrittenWordsDecode : Prop :=
  decode 4 [0x02, 0xE0] = .ok (.start 0xE0, []) ∧
  decode 4 [0x05, 0x01] = .ok (.rbyte .ack, []) ∧
  decode 4 [0x10, 0x70, 0x10, 0x02] = .ok (.rdblk 0x70 0x10 0x02, []) ∧
  decode 4 [0x11, 0x70, 0x10, 0x02, 0xDE, 0xAD] = .ok (.wrblk 0x70 0x10 [0xDE, 0xAD], []) ∧
  decode 4 [0x20, 0x04, 0x07] = .ok (.setdigit 0x04 0x07, []) ∧
  decode 4 [0x33, 0x03] = .ok (.setstate .countingDown, []) ∧
  decode 4 [0x34] = .ok (.getaf, []) ∧
  decode 4 [0x40] = .ok (.mainloop, []) ∧
  decode 4 [0x81, 0x01] = .ok (.tickCd true, []) ∧
  decode 4 [0x84, 0x04, 0x00] = .ok (.peerComplete { berr := false, arb := false, nack := true } 0x00, []) ∧
  decode 4 [0x86, 0x04] = .ok (.inputs 0x04, [])

/-! ## The step -/

/-- R22, R104: when the host is between commands and it is its turn, a step runs the command its stream begins with,
with those bytes taken off the stream. Who moves when both could is the model's choice, log entry 5: the host when
`sched` is empty. -/
def Obligations.StepRunsDecodedCommand : Prop :=
  ∀ (s : State) (i : Instr) (rest : List Byte),
    admitted s.cfg = true → s.ctl = .idle → decode s.cfg.nInputs s.cmds = .ok (i, rest) → i.isEvent = false →
    (s.events = [] ∨ s.sched = [] ∨ s.sched.head? = some .host) →
    step s = exec i { s with cmds := rest, sched := if s.events = [] then s.sched else s.sched.tail }

/-- R106: when it is the environment's turn, a step takes the event its stream begins with, with those bytes taken off
the stream. Whose turn it is where both could move is the model's choice, log entry 5: the side `sched` names, whose
entry the step uses up. -/
def Obligations.StepRunsDecodedEvent : Prop :=
  ∀ (s : State) (i : Instr) (rest : List Byte),
    admitted s.cfg = true → decode s.cfg.nInputs s.events = .ok (i, rest) → i.isEvent = true →
    (hostReady s = false ∨ s.sched.head? = some .env) →
    step s = exec i { s with events := rest, sched := if hostReady s then s.sched.tail else s.sched }

/-- An operation placed where the machine takes its next one is the operation the next step runs: the placing that
`State.withFetchWord` uses (log entry 4). -/
def Obligations.PlacedOperationRunsNext : Prop :=
  ∀ (s : State) (i : Instr), admitted s.cfg = true → i.wellFormed s.cfg.nInputs = true →
    step (placeOperation (encode i) s) = exec i (if i.isEvent then s else { s with ctl := .idle })

/-- `hostSteps`, in which the statements below follow a command to its end, is the machine's own run while no event is
in the environment's stream: so a statement about `hostSteps` is one about `step`. -/
def Obligations.CommandStepsAreSteps : Prop :=
  ∀ (n : Nat) (s t : State), admitted s.cfg = true → s.events = [] → s.ctl ≠ .run .loopGate →
    hostSteps n s = .next t → Sys2Proof.core.run n s = .next t

/-- What is refused before any effect (R380). A configuration that is not admitted (R9), at every step (log entry 20); a
bus operation, and a display operation that reaches the bus, while the engine is disabled (R362), where `WRITEALL` is
refused for its glyph code first if that is out of range (log entry 11); `MAINLOOP` in a state whose action reaches the
display, while the engine is disabled (R362): in `COUNTING_DOWN` at its first step, and in `SLEEPING` with an input
activated at its test of the inputs, no element having changed (log entry 12); and every host command while another is
in progress, where R371 speaks of bus and display operations and the rest is the model's reading (log entry 9). -/
def Obligations.RefusedByTheModel : Prop :=
  (∀ s : State, admitted s.cfg = false → step s = .refused .configNotAdmitted) ∧
  (∀ (s : State) (i : Instr), s.ctl = .idle → s.enabled = false →
    ((∃ ab, i = .start ab) ∨ (∃ ab, i = .rstart ab) ∨ (∃ b, i = .wbyte b) ∨ (∃ p, i = .rbyte p) ∨ i = .stop ∨
      (∃ a7 reg, ∃ c : Byte, c ≠ 0 ∧ i = .rdblk a7 reg c) ∨
      (∃ a7 reg bytes, bytes.length ≤ countMax ∧ i = .wrblk a7 reg bytes) ∨
      (∃ r : Byte, r.toNat ≤ 3 ∧ i = .setblink r) ∨ (∃ o : Byte, o.toNat ≤ 1 ∧ (i = .setosc o ∨ i = .setdisp o)) ∨
      (∃ l : Byte, l.toNat ≤ 15 ∧ i = .setdim l) ∨ (i = .writeall ∧ (digitSegments s.cfg s.dispBuf 0).isSome)) →
    exec i s = .refused .engineDisabled) ∧
  (∀ s : State, s.ctl = .idle → s.enabled = false → digitSegments s.cfg s.dispBuf 0 = none →
    exec .writeall s = .refused .glyphOutOfRange) ∧
  (∀ s : State, s.ctl = .idle → s.enabled = false → s.lowpower = false →
    (s.boardState = .countingDown → exec .mainloop s = .refused .engineDisabled) ∧
    (s.boardState = .sleeping → s.inputs ≠ 0 →
      exec .mainloop s = .next { s with ctl := .run (.loop [.testSleeping]) } ∧
      hostSteps 1 { s with ctl := .run (.loop [.testSleeping]) } = .refused .engineDisabled)) ∧
  (∀ (s : State) (i : Instr) (n : Nat), s.ctl ≠ .idle → i.isEvent = false → i.wellFormed n = true →
    exec i s = .refused .hostBusy)

/-! ## Reset -/

/-- R61: the machine begins in `SLEEPING`. -/
def Obligations.ResetIsSleeping : Prop :=
  (∀ (c : Config) (d : Draws), (State.resetWith c d).boardState = .sleeping) ∧ State.reset.boardState = .sleeping

/-- R60, R62, R63 for every configuration and every draw: each element after power-on. The values other than the Board
State's are the spec's own decision (R63). `State.reset` is the machine with the configuration and the draw of log
entries 1 and 2, which are the model's choice. -/
def Obligations.ResetValues : Prop :=
  (∀ (c : Config) (d : Draws), ∀ s : State, s = State.resetWith c d →
    s.enabled = false ∧ s.owner = false ∧ s.flagTc = false ∧ s.flagBerr = false ∧ s.flagArb = false ∧
    s.flagNack = false ∧ s.ackPolicy = .nack ∧ s.data = d.data ∧ s.toCount = 0 ∧ s.pending = .none ∧
    s.busTrace = [] ∧ s.afIndex = 0 ∧ s.pwmCompare = d.pwmCompare ∧ s.afEnable = false ∧ s.cdCounter = c.cdStart ∧
    s.rollover = false ∧ s.blinkPhase = blinkReloadOf c d.safeIdx ∧ s.pirHigh = 0 ∧ s.pirLow = 0 ∧ s.cdtIe = false ∧
    s.wakeIe = true ∧ s.led = false ∧ s.safeIdx = d.safeIdx ∧ s.inputs = d.inputs ∧ s.dispBuf = d.dispBuf ∧
    s.lowpower = false ∧ s.outTrace = [] ∧ s.cfg = c ∧ s.ctl = .idle) ∧
  State.reset = State.resetWith Config.cfgA Draws.cfgA ∧ admitted State.reset.cfg = true

/-- The invariant holds after reset, for every admitted configuration and every allowed draw. -/
def Obligations.ResetMeetsInv : Prop :=
  (∀ (c : Config) (d : Draws), admitted c = true → drawFits c d → Inv (State.resetWith c d)) ∧ Inv State.reset

/-! ## Invariants and frames of every step -/

/-- Every step keeps the invariant: the timer's counters in their ranges (R45, R47), the interrupt enables following the
Board State (R271), the audio index inside its table (R40), only existing inputs activated (R51, R52), and the engine
consistent (R31, R35, R133). -/
def Obligations.StepKeepsInv : Prop :=
  ∀ s t : State, Inv s → step s = .next t → Inv t

/-- R8, R51: no step writes the configuration or the Safe-Choice Index. -/
def Obligations.ConfigAndSafeIndexFixed : Prop :=
  ∀ s t : State, step s = .next t → t.cfg = s.cfg ∧ t.safeIdx = s.safeIdx

/-- R363: once every numeric position of the Display Buffer holds a glyph code of the table, every step keeps it so. -/
def Obligations.GlyphsStayInRange : Prop :=
  ∀ s t : State, glyphsInRange s → step s = .next t → glyphsInRange t

/-- R36, R44: a step only adds to the two histories. -/
def Obligations.HistoriesOnlyGrow : Prop :=
  ∀ s t : State, step s = .next t →
    (∃ a, t.busTrace = s.busTrace ++ a) ∧ (∃ b, t.outTrace = s.outTrace ++ b)

/-- R325: what the three handlers may write. None touches the bus engine, the Display Buffer, the inputs, or what the
host is doing (R323); the feeder writes its own elements only, the sensor edge nothing of the feeder's outputs. -/
def Obligations.HandlersKeepToTheirElements : Prop :=
  (∀ (s t : State) (i : Instr), (∃ pir, i = .tickCd pir) ∨ i = .pwmUnderflow ∨ i = .sensorEdge →
    exec i s = .next t →
    engineOf t = engineOf s ∧ hostOf t = hostOf s ∧ t.dispBuf = s.dispBuf ∧ t.inputs = s.inputs ∧
      t.safeIdx = s.safeIdx ∧ t.cfg = s.cfg) ∧
  (∀ s t : State, exec .pwmUnderflow s = .next t →
    t = { s with
      lowpower := t.lowpower, afIndex := t.afIndex, pwmCompare := t.pwmCompare, outTrace := t.outTrace }) ∧
  (∀ s t : State, exec .sensorEdge s = .next t →
    t = { s with
      lowpower := t.lowpower, boardState := t.boardState, cdtIe := t.cdtIe, wakeIe := t.wakeIe,
      pirHigh := t.pirHigh, pirLow := t.pirLow }) ∧
  (∀ (s t : State) (pir : Bool), exec (.tickCd pir) s = .next t →
    t = { s with
      lowpower := t.lowpower, cdCounter := t.cdCounter, rollover := t.rollover, blinkPhase := t.blinkPhase,
      led := t.led, outTrace := t.outTrace, pirHigh := t.pirHigh, pirLow := t.pirLow, boardState := t.boardState,
      afEnable := t.afEnable, afIndex := t.afIndex, cdtIe := t.cdtIe, wakeIe := t.wakeIe })

/-- The frame of the bus: an operation on the bus, a display operation that reaches the bus (so not `SETDIGIT`, which
writes the buffer, nor `BLINKN`, which writes the indicator), begun by the host or by the main loop, each later step of
one up to the end of its block operations, and each event of the bus, leaves the feeder, the timer, the Board State, the
inputs, the Display Buffer, the indicator and the streams as they were (R147, R233). -/
def Obligations.BusOperationsFrame : Prop :=
  (∀ (s t : State) (i : Instr),
    (i = .init ∨ (∃ ab, i = .start ab) ∨ (∃ ab, i = .rstart ab) ∨ (∃ b, i = .wbyte b) ∨ (∃ p, i = .rbyte p) ∨
      i = .stop ∨ i = .recover ∨ (∃ a7 reg c, i = .rdblk a7 reg c) ∨ (∃ a7 reg bytes, i = .wrblk a7 reg bytes) ∨
      i = .writeall ∨ (∃ r, i = .setblink r) ∨ (∃ o, i = .setosc o) ∨ (∃ o, i = .setdisp o) ∨ (∃ l, i = .setdim l) ∨
      i = .tickTo ∨ (∃ f d, i = .peerComplete f d) ∨ i = .busFault) →
    exec i s = .next t → OnlyEngine s t) ∧
  (∀ (s t : State) (j : Job),
    ((∃ pos k, j = .block pos k) ∨ (∃ i res up, j = .digit i res up) ∨ (∃ todo, j = .recover todo) ∨
      (∃ rest, j = .loop (.writeAll :: rest)) ∨ (∃ r rest, j = .loop (.setBlink r :: rest))) →
    hostStep j s = .next t → OnlyEngine s t)

/-- R262: an event changes the Board State in three ways only: the sensor edge leaves `SLEEPING` for `WAITING_ARMED`, and
the timer tick leaves `WAITING_ARMED` for `COUNTING_DOWN` or `SLEEPING`. -/
def Obligations.EventsChangeBoardState : Prop :=
  ∀ (s t : State) (i : Instr), i.isEvent = true → exec i s = .next t → t.boardState ≠ s.boardState →
    (i = .sensorEdge ∧ s.boardState = .sleeping ∧ t.boardState = .waitingArmed) ∨
    (i = .tickCd true ∧ s.boardState = .waitingArmed ∧ t.boardState = .countingDown) ∨
    (i = .tickCd false ∧ s.boardState = .waitingArmed ∧ t.boardState = .sleeping)

/-- R270: `DONE` with the main loop in low power is the end of a run: whatever event comes, it stays so. -/
def Obligations.DoneIsTerminal : Prop :=
  ∀ s t : State, Inv s → s.boardState = .done → s.lowpower = true → s.ctl = .run .loopGate → step s = .next t →
    t.boardState = .done ∧ t.lowpower = true ∧ t.ctl = .run .loopGate ∧ t.outTrace = s.outTrace

/-! ## The bus engine's primitives -/

/-- R140: `INIT` enables the engine, releases the bus, clears the four flags and the pending command, and leaves the
policy `NACK`; it is legal in every engine state, and a second one changes nothing but the trace. -/
def Obligations.InitRearms : Prop :=
  ∀ s : State, s.ctl = .idle → ∃ t, exec .init s = .next t ∧
    t = { s with
      enabled := true, owner := false, pending := .none, flagTc := false, flagBerr := false, flagArb := false,
      flagNack := false, ackPolicy := .nack, busTrace := s.busTrace ++ [.init], result := .none } ∧
    exec .init t = .next { t with busTrace := t.busTrace ++ [.init] }

/-- R141, R131, R133: `START` on a free bus clears the flags of the last command, takes the bus, sends the address byte
and begins a wait of the address budget; with a budget of 0 the wait ends at once with `TIMEOUT`. -/
def Obligations.StartIssuesAndWaits : Prop :=
  ∀ (s : State) (ab : Byte), s.ctl = .idle → s.enabled = true → s.owner = false → s.flagBerr = false →
    (s.cfg.toAddr ≠ 0 →
      exec (.start ab) s = .next { s with
        flagTc := false, flagArb := false, flagNack := false, data := ab, owner := true, pending := .addr,
        busTrace := s.busTrace ++ [.addr ab false], toCount := 0, ctl := .wait s.cfg.toAddr .host }) ∧
    (s.cfg.toAddr = 0 →
      exec (.start ab) s = .next { s with
        flagTc := false, flagArb := false, flagNack := false, data := ab, owner := true, pending := .none,
        busTrace := s.busTrace ++ [.addr ab false], toCount := 0, result := .code .timeout })

/-- R141, R138: with the bus-error latch set `START` fails fast with `BUS_ERROR`, putting nothing on the bus; with the
bus already owned it is refused. -/
def Obligations.StartWithoutIssue : Prop :=
  ∀ (s : State) (ab : Byte), s.ctl = .idle → s.enabled = true →
    (s.owner = false → s.flagBerr = true →
      exec (.start ab) s = .next { s with
        flagTc := false, flagArb := false, flagNack := false, result := .code .busError }) ∧
    (s.owner = true → exec (.start ab) s = .refused .alreadyOwner)

/-- R142, R143, R144, R145, R133: with the bus owned, `RSTART`, `WBYTE` and `RBYTE` put their command on the bus and
begin a wait of their own budget; `RBYTE` latches the policy, and the command carries it. With a budget of 0 the wait
ends at once with `TIMEOUT`. -/
def Obligations.OwnedTransfersIssue : Prop :=
  ∀ s : State, s.ctl = .idle → s.enabled = true → s.owner = true →
    (∀ ab : Byte,
      (s.cfg.toAddr ≠ 0 →
        exec (.rstart ab) s = .next { s with
          data := ab, flagTc := false, pending := .addr, busTrace := s.busTrace ++ [.addr ab true], toCount := 0,
          ctl := .wait s.cfg.toAddr .host }) ∧
      (s.cfg.toAddr = 0 →
        exec (.rstart ab) s = .next { s with
          data := ab, flagTc := false, pending := .none, busTrace := s.busTrace ++ [.addr ab true], toCount := 0,
          result := .code .timeout })) ∧
    (∀ b : Byte,
      (s.cfg.toWrite ≠ 0 →
        exec (.wbyte b) s = .next { s with
          data := b, flagTc := false, pending := .write, busTrace := s.busTrace ++ [.write b], toCount := 0,
          ctl := .wait s.cfg.toWrite .host }) ∧
      (s.cfg.toWrite = 0 →
        exec (.wbyte b) s = .next { s with
          data := b, flagTc := false, pending := .none, busTrace := s.busTrace ++ [.write b], toCount := 0,
          result := .code .timeout })) ∧
    (∀ p : AckPolicy,
      (s.cfg.toRead ≠ 0 →
        exec (.rbyte p) s = .next { s with
          ackPolicy := p, flagTc := false, pending := .read, busTrace := s.busTrace ++ [.read p], toCount := 0,
          ctl := .wait s.cfg.toRead .hostRead }) ∧
      (s.cfg.toRead = 0 →
        exec (.rbyte p) s = .next { s with
          ackPolicy := p, flagTc := false, pending := .none, busTrace := s.busTrace ++ [.read p], toCount := 0,
          result := .byte .timeout none }))

/-- R138, R305: without the bus, `RSTART`, `WBYTE`, `RBYTE` and `STOP` return `MASTER_NOT_OWNER` and change nothing. -/
def Obligations.NotOwnerChangesNothing : Prop :=
  ∀ s : State, s.ctl = .idle → s.enabled = true → s.owner = false →
    (∀ ab, exec (.rstart ab) s = .next { s with result := .code .masterNotOwner }) ∧
    (∀ b, exec (.wbyte b) s = .next { s with result := .code .masterNotOwner }) ∧
    (∀ p, exec (.rbyte p) s = .next { s with result := .byte .masterNotOwner none }) ∧
    exec .stop s = .next { s with result := .code .masterNotOwner }

/-- R146: `STOP` with the bus owned puts a stop in the trace and releases the bus, without a wait. -/
def Obligations.StopReleasesTheBus : Prop :=
  ∀ s : State, s.ctl = .idle → s.enabled = true → s.owner = true →
    exec .stop s = .next { s with
      busTrace := s.busTrace ++ [.stop], owner := false, pending := .none, result := .code .ok }

/-- R134: exactly one code, the first whose condition holds. -/
def Obligations.OutcomePriority : Prop :=
  ∀ (b : Counter) (s : State),
    (outcome b s = .timeout ↔ b ≤ s.toCount) ∧
    (outcome b s = .busError ↔ ¬ b ≤ s.toCount ∧ s.flagBerr = true) ∧
    (outcome b s = .arbLost ↔ ¬ b ≤ s.toCount ∧ s.flagBerr = false ∧ s.flagArb = true) ∧
    (outcome b s = .nack ↔ ¬ b ≤ s.toCount ∧ s.flagBerr = false ∧ s.flagArb = false ∧ s.flagNack = true) ∧
    (outcome b s = .ok ↔ ¬ b ≤ s.toCount ∧ s.flagBerr = false ∧ s.flagArb = false ∧ s.flagNack = false)

/-- R133, R135, R148: a timeout tick counts, and changes nothing else, outside a wait and inside one, whoever waits, as
long as it leaves the counter below the budget; the host's wait of budget `b` that no completion answers ends with
`TIMEOUT` in the step of the `b`-th tick and not before, whatever a `BUS_FAULT` has latched (R137). The last tick of a
block operation's wait is in `BlockFailureRecovers`. -/
def Obligations.TimeoutAtExactlyTheBudget : Prop :=
  (∀ s : State, (∀ b w, s.ctl ≠ .wait b w) → exec .tickTo s = .next { s with toCount := s.toCount + 1 }) ∧
  (∀ (s : State) (b : Counter) (w : Waiter) (k : Nat),
    s.ctl = .wait b w → s.flagTc = false → s.toCount.toNat + k < b.toNat →
    execSeq (List.replicate k .tickTo) s = .next { s with toCount := s.toCount + BitVec.ofNat 16 k }) ∧
  (∀ (s : State) (b : Counter) (w : Waiter) (r : Result),
    b ≠ 0 → s.ctl = .wait b w → s.flagTc = false → s.toCount = 0 →
    (w = .host ∧ r = .code .timeout) ∨ (w = .hostRead ∧ r = .byte .timeout none) →
    execSeq (List.replicate b.toNat .tickTo) s = .next { s with
      toCount := b, pending := .none, ctl := .idle, result := r })

/-- R136, R133, R134: a completion within the budget sets the flags it carries, is recorded, answers a read with its
byte, and ends the host's wait in the same step with the code of highest priority; a read is never declined, and
arbitration lost releases the bus. With nothing pending there is no completion to take (log entry 7). -/
def Obligations.CompletionEndsTheWait : Prop :=
  (∀ (s : State) (b : Counter) (f : PeerFlags) (d : Byte) (c : Code),
    s.ctl = .wait b .host → s.toCount < b → s.pending = .addr ∨ s.pending = .write →
    c = (if s.flagBerr || f.berr then .busError else if f.arb then .arbLost else if f.nack then .nack else .ok) →
    exec (.peerComplete f d) s = .next { s with
      flagTc := true, flagBerr := s.flagBerr || f.berr, flagArb := f.arb, flagNack := f.nack,
      busTrace := s.busTrace ++ [.complete f d], pending := .none,
      owner := if c = .arbLost then false else s.owner, ctl := .idle, result := .code c }) ∧
  (∀ (s : State) (b : Counter) (f : PeerFlags) (d : Byte) (c : Code),
    s.ctl = .wait b .hostRead → s.toCount < b → s.pending = .read →
    c = (if s.flagBerr || f.berr then .busError else if f.arb then .arbLost else .ok) →
    exec (.peerComplete f d) s = .next { s with
      flagTc := true, flagBerr := s.flagBerr || f.berr, flagArb := f.arb, flagNack := false, data := d,
      busTrace := s.busTrace ++ [.complete f d], pending := .none,
      owner := if c = .arbLost then false else s.owner, ctl := .idle,
      result := .byte c (if c = .ok then some d else none) }) ∧
  (∀ (s : State) (f : PeerFlags) (d : Byte), s.pending = .none → exec (.peerComplete f d) s = .next s)

/-- R137, R32, R373: `BUS_FAULT` sets the bus-error latch and nothing else; once set, no step but an initialisation of
the master clears it. -/
def Obligations.BusFaultLatches : Prop :=
  (∀ s : State, exec .busFault s = .next { s with flagBerr := true }) ∧
  (∀ s t : State, s.flagBerr = true → step s = .next t →
    t.flagBerr = true ∨ t.busTrace = s.busTrace ++ [.init])

/-! ## Block operations and recovery -/

/-- R162: `RECOVER` runs, from every engine state, to its end in twelve steps: a release, nine pulses and two
initialisations in the trace, and an engine enabled, not owner, with clear flags. -/
def Obligations.RecoverRunsInFull : Prop :=
  ∀ s : State, s.ctl = .idle → ∃ t, exec .recover s = .next t ∧
    hostSteps 11 t = .next { s with
      enabled := true, owner := false, pending := .none, flagTc := false, flagBerr := false, flagArb := false,
      flagNack := false, ackPolicy := .nack,
      busTrace := s.busTrace ++ [.recRelease, .recPulse, .recPulse, .recPulse, .recPulse, .recPulse, .recPulse,
        .recPulse, .recPulse, .recPulse, .init, .init],
      result := .none }

/-- R160, R161, R100, R101: `RDBLK` and `WRBLK` begin with a start and the device's address byte, direction bit 0; on a
latched bus error they go to the failure path without a byte on the bus (R163); with an address budget of 0 the wait
ends with `TIMEOUT` in the step of the issue, and they go to the failure path with the address byte on the bus (R133);
with the bus owned they are refused (R138). A read of no bytes, and a write of more bytes than a count can hold, is
refused (R164). The direction bit is log entry 3. -/
def Obligations.BlockOperationsBegin : Prop :=
  ∀ (s : State) (a7 : BitVec 7) (reg count : Byte) (bytes : List Byte), s.ctl = .idle → s.enabled = true →
    (count = 0 → exec (.rdblk a7 reg count) s = .refused .illegalOperand) ∧
    (255 < bytes.length → exec (.wrblk a7 reg bytes) s = .refused .illegalOperand) ∧
    (count ≠ 0 → bytes.length ≤ 255 →
      (s.owner = true →
        exec (.rdblk a7 reg count) s = .refused .alreadyOwner ∧
        exec (.wrblk a7 reg bytes) s = .refused .alreadyOwner) ∧
      (s.owner = false → s.flagBerr = true →
        exec (.rdblk a7 reg count) s = .next { s with
          flagTc := false, flagArb := false, flagNack := false,
          ctl := .run (.block (.recover recoveryPlan) .hostRead) } ∧
        exec (.wrblk a7 reg bytes) s = .next { s with
          flagTc := false, flagArb := false, flagNack := false,
          ctl := .run (.block (.recover recoveryPlan) .hostWrite) }) ∧
      (s.owner = false → s.flagBerr = false → s.cfg.toAddr = 0 →
        exec (.rdblk a7 reg count) s = .next { s with
          flagTc := false, flagArb := false, flagNack := false, data := a7 ++ 0#1, owner := true, pending := .none,
          busTrace := s.busTrace ++ [.addr (a7 ++ 0#1) false], toCount := 0,
          ctl := .run (.block (.recover recoveryPlan) .hostRead) } ∧
        exec (.wrblk a7 reg bytes) s = .next { s with
          flagTc := false, flagArb := false, flagNack := false, data := a7 ++ 0#1, owner := true, pending := .none,
          busTrace := s.busTrace ++ [.addr (a7 ++ 0#1) false], toCount := 0,
          ctl := .run (.block (.recover recoveryPlan) .hostWrite) }) ∧
      (s.owner = false → s.flagBerr = false → s.cfg.toAddr ≠ 0 →
        exec (.rdblk a7 reg count) s = .next { s with
          flagTc := false, flagArb := false, flagNack := false, data := a7 ++ 0#1, owner := true, pending := .addr,
          busTrace := s.busTrace ++ [.addr (a7 ++ 0#1) false], toCount := 0,
          ctl := .wait s.cfg.toAddr (.blkStart (.rReg a7 reg count.toNat) .hostRead) } ∧
        exec (.wrblk a7 reg bytes) s = .next { s with
          flagTc := false, flagArb := false, flagNack := false, data := a7 ++ 0#1, owner := true, pending := .addr,
          busTrace := s.busTrace ++ [.addr (a7 ++ 0#1) false], toCount := 0,
          ctl := .wait s.cfg.toAddr (.blkStart (.wReg reg bytes) .hostWrite) }))

/-- R163, R165, R307: every way into the failure path of a block operation leads through a full recovery, after which
every element of the engine is as after `INIT`, to the one code `FAIL`, with no bytes delivered. The ways in: in a
wait, a completion with any failure, or the last tick of the budget (R133); at the beginning, a latched bus error
(R141) or an address budget of 0, for the two block commands, the display commands and each position of `WRITEALL`,
begun by the host or by the main loop; inside, a primitive whose budget is 0. For `WRITEALL` and a configuration write
the last of the twelve steps, with what follows `FAIL`, is in `WriteallBeginsAndGoesOn` and
`FailedConfigurationBlinks`. -/
def Obligations.BlockFailureRecovers : Prop :=
  (∀ (s : State) (b : Counter) (w : Waiter) (next : BlkPos) (left : Nat) (got : List Byte) (k : Cont),
    s.ctl = .wait b w → w = .blkStart next k ∨ w = .blkNext next k ∨ w = .blkRead left got k →
    (∀ (f : PeerFlags) (d : Byte), s.toCount < b → s.pending ≠ .none →
      (s.flagBerr = true ∨ f.berr = true ∨ f.arb = true ∨
        (f.nack = true ∧ s.pending ≠ .read ∧ w ≠ .blkStart next k)) →
      ∃ t, exec (.peerComplete f d) s = .next t ∧
        RecoversAndFails k t { s with
          data := if s.pending = .read then d else s.data, busTrace := s.busTrace ++ [.complete f d] }) ∧
    (s.toCount + 1 = b → ∃ t, exec .tickTo s = .next t ∧ RecoversAndFails k t { s with toCount := b })) ∧
  (∀ (s : State) (a7 : BitVec 7) (k : Cont) (o : Out), s.enabled = true → s.owner = false →
    ((∃ reg, ∃ c : Byte, c ≠ 0 ∧ s.ctl = .idle ∧ o = exec (.rdblk a7 reg c) s ∧ k = .hostRead) ∨
      (∃ reg bytes, bytes.length ≤ 255 ∧ s.ctl = .idle ∧ o = exec (.wrblk a7 reg bytes) s ∧ k = .hostWrite) ∨
      (∃ i : Instr, ((∃ r : Byte, r.toNat ≤ 3 ∧ i = .setblink r) ∨
          (∃ on : Byte, on.toNat ≤ 1 ∧ (i = .setosc on ∨ i = .setdisp on)) ∨
          (∃ l : Byte, l.toNat ≤ 15 ∧ i = .setdim l)) ∧
        s.ctl = .idle ∧ o = exec i s ∧ k = .config .host ∧ a7 = s.cfg.dispAddr) ∨
      (s.ctl = .idle ∧ o = exec .writeall s ∧ k = .writeAll 0 .ok .host ∧ a7 = s.cfg.dispAddr ∧
        (digitSegments s.cfg s.dispBuf 0).isSome) ∨
      (∃ rest, s.ctl = .run (.loop (.writeAll :: rest)) ∧ o = hostSteps 1 s ∧ k = .writeAll 0 .ok (.loop rest) ∧
        a7 = s.cfg.dispAddr ∧ (digitSegments s.cfg s.dispBuf 0).isSome) ∨
      (∃ rest, ∃ r : Byte, r.toNat ≤ 3 ∧ s.ctl = .run (.loop (.setBlink r :: rest)) ∧ o = hostSteps 1 s ∧
        k = .config (.loop rest) ∧ a7 = s.cfg.dispAddr) ∨
      (∃ i res up, s.ctl = .run (.digit i res up) ∧ o = hostSteps 1 s ∧ k = .writeAll i res up ∧
        a7 = s.cfg.dispAddr ∧ (digitSegments s.cfg s.dispBuf i).isSome)) →
    (s.flagBerr = true → ∃ t, o = .next t ∧ RecoversAndFails k t s) ∧
    (s.flagBerr = false → s.cfg.toAddr = 0 → ∃ t, o = .next t ∧
      RecoversAndFails k t { s with
        data := a7 ++ 0#1, toCount := 0, busTrace := s.busTrace ++ [.addr (a7 ++ 0#1) false] })) ∧
  (∀ (s : State) (pos : BlkPos) (k : Cont) (e : BusEvent) (d : Byte),
    s.ctl = .run (.block pos k) → s.enabled = true → s.owner = true →
    (s.cfg.toWrite = 0 ∧ e = .write d ∧
        ((∃ bytes, pos = .wReg d bytes) ∨ (∃ bytes, pos = .wData (d :: bytes)) ∨ ∃ a7 n, pos = .rReg a7 d n)) ∨
      (s.cfg.toAddr = 0 ∧ e = .addr d true ∧ ∃ (a7 : BitVec 7) (n : Nat), pos = .rRestart a7 n ∧ d = a7 ++ 1#1) ∨
      (s.cfg.toRead = 0 ∧ d = s.data ∧
        ∃ left got, pos = .rByte left got ∧ e = .read (if left ≤ 1 then .nack else .ack)) →
    ∃ t, hostSteps 1 s = .next t ∧
      RecoversAndFails k t { s with data := d, toCount := 0, busTrace := s.busTrace ++ [e] })

/-- R166, R306: the peer declining the initial address leads any block operation, of the host or of a display operation,
to its stop, with the bus still owned, and no recovery runs; the stop releases the bus, and a block operation of the host
ends with `PEER_ABSENT`. What follows the stop of a display operation is in `WriteallBeginsAndGoesOn` and
`FailedConfigurationBlinks`. -/
def Obligations.AbsentPeerIsSparedRecovery : Prop :=
  ∀ (s : State) (b : Counter) (next : BlkPos) (k : Cont) (d : Byte),
    s.ctl = .wait b (.blkStart next k) → s.toCount < b → s.pending = .addr → s.owner = true → s.flagBerr = false →
    ∃ t, exec (.peerComplete { berr := false, arb := false, nack := true } d) s = .next t ∧
      t = { s with
        flagTc := true, flagArb := false, flagNack := true, pending := .none,
        busTrace := s.busTrace ++ [.complete { berr := false, arb := false, nack := true } d],
        ctl := .run (.block .stopAbsent k) } ∧
      (s.enabled = true → ∀ r : Result,
        (k = .hostRead ∧ r = .block .peerAbsent none) ∨ (k = .hostWrite ∧ r = .code .peerAbsent) →
        hostSteps 1 t = .next { s with
          flagTc := true, flagArb := false, flagNack := true, owner := false, pending := .none,
          busTrace := s.busTrace ++ [.complete { berr := false, arb := false, nack := true } d, .stop],
          ctl := .idle, result := r })

/-- R163, R168: a block operation in progress always has its next step: its primitives find the engine enabled and the
bus theirs, so none is refused, and each step puts its one entry in the bus trace. -/
def Obligations.BlockOperationNeverStuck : Prop :=
  ∀ (s : State) (pos : BlkPos) (k : Cont), Inv s → s.ctl = .run (.block pos k) →
    ∃ t, hostStep (.block pos k) s = .next t ∧ (pos ≠ .recover [] → ∃ e, t.busTrace = s.busTrace ++ [e])

/-- R78, R160, R161: on a bus free and without a latched error, a block write to the healthy peer, then a block read of
the same registers, both return `OK`; the peer then holds the bytes in order from the register on, its pointer wrapping
from 255 to 0, no other cell of its memory changed, and the read delivers the bytes written. It holds for every script of
interrupts, inputs and ticks around the host's steps and the peer's answers. The peer is that of log entry 18, which
answers every address; `any` is the data byte of a completion that R78 leaves open. -/
def Obligations.HealthyWriteThenRead : Prop :=
  ∀ (any : Nat → Byte) (s : State) (p : Peer) (a7 : BitVec 7) (reg : Byte) (bytes : List Byte)
    (script script' : List (List Beside)),
    BusReady s → peerMemWf p.mem = true → bytes.length ≤ 255 →
    2 * bytes.length + 8 ≤ script.length → 2 * bytes.length + 8 ≤ script'.length →
    ∃ t q, runServed any script (.wrblk a7 reg bytes) (s, p) = some (t, q) ∧
      t.ctl = .idle ∧ t.result = .code .ok ∧ t.owner = false ∧
      t.busTrace = s.busTrace ++ writeTransaction any s.busTrace.length a7 (reg :: bytes) ∧
      (∀ (i : Nat) (h : i < bytes.length), peerRead q.mem (peerCell a7 (reg + BitVec.ofNat 8 i)) = bytes[i]) ∧
      (∀ a, (∀ i < bytes.length, a ≠ peerCell a7 (reg + BitVec.ofNat 8 i)) → peerRead q.mem a = peerRead p.mem a) ∧
      (bytes ≠ [] →
        ∃ t' q', runServed any script' (.rdblk a7 reg (BitVec.ofNat 8 bytes.length)) (t, q) = some (t', q') ∧
          t'.ctl = .idle ∧ t'.result = .block .ok (some bytes) ∧ q'.mem = q.mem ∧ t'.owner = false)

/-- R167: from any state of the engine, after a recovery a block write to the healthy peer succeeds, for every script of
interrupts, inputs and ticks around the steps of either. The healthy peer is that of log entry 18, which answers every
address. -/
def Obligations.RecoveryIsEffective : Prop :=
  ∀ (any : Nat → Byte) (s : State) (p : Peer) (a7 : BitVec 7) (reg : Byte) (bytes : List Byte)
    (script script' : List (List Beside)),
    s.ctl = .idle → s.cfg.toAddr ≠ 0 → s.cfg.toWrite ≠ 0 → bytes.length ≤ 255 →
    11 ≤ script.length → 2 * bytes.length + 8 ≤ script'.length →
    ∃ u, runServed any script .recover (s, p) = some (u, p) ∧ u.ctl = .idle ∧
      u.busTrace = s.busTrace ++ recoveryTrace ∧
      ∃ v q, runServed any script' (.wrblk a7 reg bytes) (u, p) = some (v, q) ∧
        v.ctl = .idle ∧ v.result = .code .ok ∧
        v.busTrace = u.busTrace ++ writeTransaction any u.busTrace.length a7 (reg :: bytes)

/-! ## The display -/

/-- R231, R232: `SETDIGIT` stores a glyph code of the table in a numeric position, on or off in position 2, and drops
anything else silently; nothing goes on the bus. -/
def Obligations.SetdigitStoresOrDrops : Prop :=
  ∀ (s : State) (index glyph : Byte), s.ctl = .idle →
    (∀ i : Fin 5, index.toNat = i.val → i.val ≠ 2 → glyph.toNat < s.cfg.glyph.length →
      exec (.setdigit index glyph) s = .next { s with dispBuf := s.dispBuf.set i.val glyph, result := .none }) ∧
    (index = 2 →
      exec (.setdigit index glyph) s = .next { s with
        dispBuf := s.dispBuf.set 2 (if glyph = 0 then 0 else 1), result := .none }) ∧
    (4 < index.toNat ∨ (index ≠ 2 ∧ s.cfg.glyph.length ≤ glyph.toNat) →
      exec (.setdigit index glyph) s = .next { s with result := .none })

/-- R235 to R239, R102: each of the four configuration commands sends one command byte as a block write of count 0 and,
with the healthy peer of R78, returns `OK` after the address byte, that byte and a stop, whatever interrupts, inputs and
ticks fall around the answers; an operand out of range sends nothing and returns `OK`. The main loop's
`SETBLINK` begins the same way. The bits of the bytes are log
entry 3; the healthy peer is that of log entry 18, which answers every address. -/
def Obligations.DisplayCommandsSendOneByte : Prop :=
  (∀ (any : Nat → Byte) (s : State) (p : Peer) (i : Instr) (cmd : Byte) (script : List (List Beside)),
    BusReady s → 4 ≤ script.length →
    ((∃ r : Byte, r.toNat ≤ 3 ∧ i = .setblink r ∧ cmd = s.cfg.cmdDisp ||| (r <<< 1) ||| 1) ∨
      (∃ o : Byte, o.toNat ≤ 1 ∧ i = .setosc o ∧ cmd = s.cfg.cmdOsc ||| o) ∨
      (∃ o : Byte, o.toNat ≤ 1 ∧ i = .setdisp o ∧ cmd = s.cfg.cmdDisp ||| o) ∨
      (∃ l : Byte, l.toNat ≤ 15 ∧ i = .setdim l ∧ cmd = s.cfg.cmdDim ||| l)) →
    exec i s = .next { s with
      flagTc := false, flagArb := false, flagNack := false, data := s.cfg.dispAddr ++ 0#1, owner := true,
      pending := .addr, busTrace := s.busTrace ++ [.addr (s.cfg.dispAddr ++ 0#1) false], toCount := 0,
      ctl := .wait s.cfg.toAddr (.blkStart (.wReg cmd []) (.config .host)) } ∧
    ∃ t q, runServed any script i (s, p) = some (t, q) ∧ q.mem = p.mem ∧
      engineOf t = { engineOf s with
        flagTc := true, flagArb := false, flagNack := false, data := cmd, owner := false, pending := .none,
        busTrace := s.busTrace ++ writeTransaction any s.busTrace.length s.cfg.dispAddr [cmd],
        toCount := t.toCount } ∧
      hostOf t = { hostOf s with result := .code .ok } ∧ t.dispBuf = s.dispBuf ∧ t.cfg = s.cfg ∧
      (quiet script → t.toCount = 0 ∧ lifecycleOf t = lifecycleOf s ∧ outputOf t = outputOf s)) ∧
  (∀ (s : State) (i : Instr), s.ctl = .idle →
    ((∃ r : Byte, 3 < r.toNat ∧ i = .setblink r) ∨ (∃ o : Byte, 1 < o.toNat ∧ (i = .setosc o ∨ i = .setdisp o)) ∨
      (∃ l : Byte, 15 < l.toNat ∧ i = .setdim l)) →
    exec i s = .next { s with result := .code .ok }) ∧
  (∀ (s : State) (r : Byte) (rest : List LoopAct), BusReady { s with ctl := .idle } → r.toNat ≤ 3 →
    s.ctl = .run (.loop (.setBlink r :: rest)) →
    hostSteps 1 s = .next { s with
      flagTc := false, flagArb := false, flagNack := false, data := s.cfg.dispAddr ++ 0#1, owner := true,
      pending := .addr, busTrace := s.busTrace ++ [.addr (s.cfg.dispAddr ++ 0#1) false], toCount := 0,
      ctl := .wait s.cfg.toAddr
        (.blkStart (.wReg (s.cfg.cmdDisp ||| (r <<< 1) ||| 1) []) (.config (.loop rest))) })

/-- R233, R363: `WRITEALL` begins with the block write of position 0, or is refused if that position's glyph code is
outside the table, for the host and for the main loop, and each later position is begun the same way. Whichever way
the block write of a position ends, `PEER_ABSENT` after its stop, `FAIL` after the last step of its recovery, or `OK`
after its stop, the positions after it are written all the same, and the result is the first code that was not `OK`;
the main loop ignores that code and goes on (R275). -/
def Obligations.WriteallBeginsAndGoesOn : Prop :=
  (∀ s : State, BusReady s →
    (∀ v, s.cfg.glyph[(s.dispBuf[0]).toNat]? = some v →
      exec .writeall s = .next { s with
        flagTc := false, flagArb := false, flagNack := false, data := s.cfg.dispAddr ++ 0#1, owner := true,
        pending := .addr, busTrace := s.busTrace ++ [.addr (s.cfg.dispAddr ++ 0#1) false], toCount := 0,
        ctl := .wait s.cfg.toAddr (.blkStart (.wReg s.cfg.dispBase [v]) (.writeAll 0 .ok .host)) }) ∧
    (s.cfg.glyph.length ≤ (s.dispBuf[0]).toNat → exec .writeall s = .refused .glyphOutOfRange)) ∧
  (∀ (s : State) (i : Fin 5) (res : Code) (up : Upper), BusReady { s with ctl := .idle } →
    s.ctl = .run (.digit i res up) ∨
      (∃ rest, s.ctl = .run (.loop (.writeAll :: rest)) ∧ i = 0 ∧ res = .ok ∧ up = .loop rest) →
    (∀ v, digitSegments s.cfg s.dispBuf i = some v →
      hostSteps 1 s = .next { s with
        flagTc := false, flagArb := false, flagNack := false, data := s.cfg.dispAddr ++ 0#1, owner := true,
        pending := .addr, busTrace := s.busTrace ++ [.addr (s.cfg.dispAddr ++ 0#1) false], toCount := 0,
        ctl := .wait s.cfg.toAddr (.blkStart
          (.wReg (s.cfg.dispBase + BitVec.ofNat 8 i.val * s.cfg.dispStride) [v]) (.writeAll i res up)) }) ∧
    (digitSegments s.cfg s.dispBuf i = none → hostSteps 1 s = .refused .glyphOutOfRange)) ∧
  (∀ (s : State) (pos : BlkPos) (i : Fin 5) (res code first : Code) (up : Upper),
    s.ctl = .run (.block pos (.writeAll i res up)) →
    (pos = .stopAbsent ∧ code = .peerAbsent ∧ s.enabled = true ∧ s.owner = true) ∨
      (pos = .recover [.reinit] ∧ code = .fail) ∨
      (pos = .stop [] ∧ code = .ok ∧ s.enabled = true ∧ s.owner = true) →
    first = (if res = .ok then code else res) →
    ∃ t, hostSteps 1 s = .next t ∧ t.dispBuf = s.dispBuf ∧ t.owner = false ∧ t.enabled = true ∧
      (∀ j : Fin 5, j.val = i.val + 1 → t.ctl = .run (.digit j first up)) ∧
      (i.val = 4 →
        (up = .host → t.ctl = .idle ∧ t.result = .code first) ∧
        (up = .loop [] → t.ctl = .idle ∧ t.result = .none) ∧
        (∀ a rest, up = .loop (a :: rest) → t.ctl = .run (.loop (a :: rest)))))

/-- R233, R234, R103, R78: with the healthy peer `WRITEALL` returns `OK` after five transactions of one data byte
each, in index order, and the peripheral then holds the buffer's segment bytes, whatever interrupts, inputs and ticks
fall around the answers. The healthy peer is that of log entry 18, which answers every address. -/
def Obligations.WriteallShowsTheBuffer : Prop :=
  ∀ (any : Nat → Byte) (s : State) (p : Peer) (seg : Fin 5 → Byte) (script : List (List Beside)),
    BusReady s → admitted s.cfg = true → peerMemWf p.mem = true → 34 ≤ script.length →
    (∀ i, digitSegments s.cfg s.dispBuf i = some (seg i)) →
    ∃ t q, runServed any script .writeall (s, p) = some (t, q) ∧
      t.ctl = .idle ∧ t.result = .code .ok ∧ t.dispBuf = s.dispBuf ∧ t.owner = false ∧
      t.busTrace = s.busTrace ++ ((List.finRange 5).flatMap fun i =>
        writeTransaction any (s.busTrace.length + 7 * i.val) s.cfg.dispAddr [digitRegister s.cfg i, seg i]) ∧
      (s.cfg.dispStride ≠ 0 →
        ∀ i, peerRead q.mem (peerCell s.cfg.dispAddr (digitRegister s.cfg i)) = seg i)

/-- R239, R241, R275: a configuration write that ends in `PEER_ABSENT`, after its stop, or in `FAIL`, after the last step
of its recovery, blinks the indicator `N_DIAG` times. It then hands that code on to the host; the main loop ignores the
code and goes on with the rest of its iteration, or ends it where nothing is left. -/
def Obligations.FailedConfigurationBlinks : Prop :=
  ∀ (s : State) (pos : BlkPos) (code : Code) (up : Upper) (c : Ctl) (r : Result), s.cfg.nDiag ≠ 0 →
    s.ctl = .run (.block pos (.config up)) →
    (up = .host ∧ c = .idle ∧ r = .code code) ∨ (up = .loop [] ∧ c = .idle ∧ r = .none) ∨
      (∃ a rest, up = .loop (a :: rest) ∧ c = .run (.loop (a :: rest)) ∧ r = s.result) →
    (pos = .stopAbsent → code = .peerAbsent → s.enabled = true → s.owner = true →
      hostSteps (1 + 2 * s.cfg.nDiag) s = .next { s with
        owner := false, pending := .none, busTrace := s.busTrace ++ [.stop], led := false,
        outTrace := s.outTrace ++ (List.replicate s.cfg.nDiag [OutEvent.led true, OutEvent.led false]).flatten,
        ctl := c, result := r }) ∧
    (pos = .recover [.reinit] → code = .fail →
      hostSteps (1 + 2 * s.cfg.nDiag) s = .next { s with
        enabled := true, owner := false, pending := .none, flagTc := false, flagBerr := false, flagArb := false,
        flagNack := false, ackPolicy := .nack, busTrace := s.busTrace ++ [.init], led := false,
        outTrace := s.outTrace ++ (List.replicate s.cfg.nDiag [OutEvent.led true, OutEvent.led false]).flatten,
        ctl := c, result := r })

/-- R246: `BLINKN n` switches the indicator on and off `n` times, each write one step, and leaves it off; an `n` of 0
does nothing. -/
def Obligations.BlinknBlinksExactly : Prop :=
  ∀ (s : State) (n : Byte), s.ctl = .idle →
    (n = 0 → exec (.blinkn n) s = .next { s with result := .none }) ∧
    (n ≠ 0 → ∃ t, exec (.blinkn n) s = .next t ∧
      hostSteps (2 * n.toNat - 1) t = .next { s with
        led := false,
        outTrace := s.outTrace ++ (List.replicate n.toNat [OutEvent.led true, OutEvent.led false]).flatten,
        result := .none })

/-! ## Audio -/

/-- R182: in `COUNTING_DOWN` every underflow writes a sample, and the index wraps to 0 at the end of the table: after
`k` of them from index 0, the samples are those of the indices 0, 1, … modulo the length. -/
def Obligations.SirenRepeats : Prop :=
  ∀ s : State, s.afEnable = true → s.boardState = .countingDown → s.cfg.siren ≠ [] →
    s.cfg.siren.length < 2 ^ 16 →
    (∀ (i : Counter) (x : Byte),
      i = (if s.cfg.siren.length ≤ s.afIndex.toNat then 0 else s.afIndex) → s.cfg.siren[i.toNat]? = some x →
      exec .pwmUnderflow s = .next { s with
        lowpower := false, pwmCompare := x, outTrace := s.outTrace ++ [.pwm x],
        afIndex := if i.toNat + 1 = s.cfg.siren.length then 0 else i + 1 }) ∧
    (s.afIndex = 0 → ∀ k : Nat,
      ∃ t, execSeq (List.replicate k .pwmUnderflow) s = .next t ∧
        t = { s with
          lowpower := t.lowpower, pwmCompare := t.pwmCompare,
          afIndex := BitVec.ofNat 16 (k % s.cfg.siren.length),
          outTrace := s.outTrace ++
            (List.range k).map fun j => .pwm (s.cfg.siren.getD (j % s.cfg.siren.length) 0) } ∧
        t.afIndex.toNat < s.cfg.siren.length)

/-- R183: in `SUCCESS` or `FAILURE` an underflow writes the sample at the index and advances it while the index is
inside the table, and writes nothing afterwards: after `k` underflows from index 0, the samples written are the first
`k` of the table, once each. -/
def Obligations.OneShotPlaysOnce : Prop :=
  ∀ (s : State) (table : List Byte), s.afEnable = true →
    (s.boardState = .success ∧ table = s.cfg.win) ∨ (s.boardState = .failure ∧ table = s.cfg.lose) →
    table.length < 2 ^ 16 →
    (∀ x, table[s.afIndex.toNat]? = some x →
      exec .pwmUnderflow s = .next { s with
        lowpower := false, pwmCompare := x, outTrace := s.outTrace ++ [.pwm x], afIndex := s.afIndex + 1 }) ∧
    (table.length ≤ s.afIndex.toNat → exec .pwmUnderflow s = .next { s with lowpower := false }) ∧
    (s.afIndex = 0 → ∀ k : Nat,
      ∃ t, execSeq (List.replicate k .pwmUnderflow) s = .next t ∧
        t = { s with
          lowpower := t.lowpower, pwmCompare := t.pwmCompare,
          afIndex := BitVec.ofNat 16 (min k table.length),
          outTrace := s.outTrace ++ (table.take k).map .pwm })

/-- R181, R184, R201, R205, R208, R320: an interrupt whose enable is off does not occur (log entry 7); one that has no
duty in the Board State does no more than end the low-power wait. -/
def Obligations.InterruptsWithoutDuty : Prop :=
  ∀ (s : State) (pir : Bool),
    (s.afEnable = false ∨ s.boardState = .done → exec .pwmUnderflow s = .next s) ∧
    (s.cdtIe = false ∨ s.boardState = .done → exec (.tickCd pir) s = .next s) ∧
    (s.wakeIe = false → exec .sensorEdge s = .next s) ∧
    (s.afEnable = true → s.boardState = .sleeping ∨ s.boardState = .waitingArmed ∨ s.boardState = .wireSetup →
      exec .pwmUnderflow s = .next { s with lowpower := false }) ∧
    (s.cdtIe = true → s.boardState = .sleeping ∨ s.boardState = .wireSetup ∨ s.boardState = .success ∨
        s.boardState = .failure →
      exec (.tickCd pir) s = .next { s with lowpower := false }) ∧
    (s.wakeIe = true → s.boardState ≠ .sleeping → exec .sensorEdge s = .next { s with lowpower := false })

/-! ## Countdown, debounce, inputs -/

/-- R189, R273: `GETAF` and `GETSTATE` hand back the audio index and the Board State, with no side effect. -/
def Obligations.ReadsHandBackTheElement : Prop :=
  ∀ s : State, s.ctl = .idle →
    exec .getaf s = .next { s with result := .counter s.afIndex } ∧
    exec .getstate s = .next { s with result := .board s.boardState }

/-- R210, R211: `TAKEROLL` (opcode 0x30) hands back whether the flag was set, and the flag is 0 afterwards; `GETCNT`
(opcode 0x31) hands back the counter, which is never 0, and has no side effect. -/
def Obligations.RolloverAndCounterReads : Prop :=
  (∀ (n : Nat) (rest : List Byte),
    decode n (0x30 :: rest) = .ok (.takeroll, rest) ∧ decode n (0x31 :: rest) = .ok (.getcnt, rest)) ∧
  (∀ s : State, s.ctl = .idle →
    exec .takeroll s = .next { s with rollover := false, result := .bit s.rollover } ∧
    exec .getcnt s = .next { s with result := .counter s.cdCounter }) ∧
  (∀ s : State, Inv s → s.cdCounter ≠ 0)

/-- R201, R202, R207: in `COUNTING_DOWN` a timer tick decrements the counter, and on reaching zero sets the rollover
flag and reloads; it steps the blink phase and drives the indicator; the sensor level is not looked at. -/
def Obligations.CountdownTick : Prop :=
  ∀ (s : State) (pir : Bool) (phase : Counter), s.cdtIe = true → s.boardState = .countingDown →
    phase = (if s.blinkPhase - 1 = 0 then blinkReloadOf s.cfg s.safeIdx else s.blinkPhase - 1) →
    exec (.tickCd pir) s = .next { s with
      lowpower := false,
      cdCounter := if s.cdCounter = 1 then s.cfg.cdStart else s.cdCounter - 1,
      rollover := if s.cdCounter = 1 then true else s.rollover,
      blinkPhase := phase, led := hintLed s.cfg phase s.safeIdx,
      outTrace := s.outTrace ++ [.led (hintLed s.cfg phase s.safeIdx)] }

/-- R202, R381: from a reloaded counter the rollover flag is set by exactly the `CD_START`-th tick, whatever the sensor
reads, and the handler leaves the Board State alone. -/
def Obligations.RolloverAfterExactlyStartTicks : Prop :=
  ∀ (s : State) (pirs : List Bool), s.cdtIe = true → s.boardState = .countingDown → s.cfg.cdStart ≠ 0 →
    s.cdCounter = s.cfg.cdStart → s.rollover = false →
    (pirs.length < s.cfg.cdStart.toNat →
      ∃ t, execSeq (pirs.map .tickCd) s = .next t ∧ t.rollover = false ∧ t.boardState = .countingDown ∧
        t.cdCounter.toNat + pirs.length = s.cfg.cdStart.toNat) ∧
    (pirs.length = s.cfg.cdStart.toNat →
      ∃ t, execSeq (pirs.map .tickCd) s = .next t ∧ t.rollover = true ∧ t.boardState = .countingDown ∧
        t.cdCounter = s.cfg.cdStart)

/-- R203, R204, R209: in `WAITING_ARMED` exactly the threshold of consecutive ticks of one level commits, once, with the
entry actions of the state entered; fewer commit nothing; and one inactive tick after all but the last active one starts
again, provided the inactive threshold is above 1. -/
def Obligations.DebounceCommitsAtTheThreshold : Prop :=
  ∀ s : State, s.cdtIe = true → s.boardState = .waitingArmed → s.pirHigh = 0 → s.pirLow = 0 →
    s.cfg.thActive ≠ 0 → s.cfg.thInactive ≠ 0 →
    (∀ k, k < s.cfg.thActive.toNat → k ≠ 0 →
      execSeq (List.replicate k (.tickCd true)) s = .next { s with
        lowpower := false, pirHigh := BitVec.ofNat 16 k }) ∧
    execSeq (List.replicate s.cfg.thActive.toNat (.tickCd true)) s = .next { s with
      lowpower := false, boardState := .countingDown, afEnable := true, afIndex := 0, wakeIe := false } ∧
    (∀ k, k < s.cfg.thInactive.toNat → k ≠ 0 →
      execSeq (List.replicate k (.tickCd false)) s = .next { s with
        lowpower := false, pirLow := BitVec.ofNat 16 k }) ∧
    execSeq (List.replicate s.cfg.thInactive.toNat (.tickCd false)) s = .next { s with
      lowpower := false, boardState := .sleeping, afEnable := false, cdtIe := false, wakeIe := true,
      cdCounter := s.cfg.cdStart } ∧
    (1 < s.cfg.thInactive →
      execSeq (List.replicate (s.cfg.thActive.toNat - 1) (.tickCd true) ++ [.tickCd false]) s = .next { s with
        lowpower := false, pirHigh := 0, pirLow := 1 })

/-- R208, R212, R108: the sensor edge in `SLEEPING` ends the low-power wait and enters `WAITING_ARMED`; `INPUTS`
overwrites the mask, wakes nothing, and is illegal with a bit set at or above `N_INPUTS`. -/
def Obligations.SensorEdgeAndInputs : Prop :=
  (∀ s : State, s.wakeIe = true → s.boardState = .sleeping →
    exec .sensorEdge s = .next { s with
      lowpower := false, boardState := .waitingArmed, cdtIe := true, wakeIe := false, pirHigh := 0, pirLow := 0 }) ∧
  (∀ (s : State) (mask : Byte),
    (mask.toNat < 2 ^ s.cfg.nInputs → exec (.inputs mask) s = .next { s with inputs := mask }) ∧
    (2 ^ s.cfg.nInputs ≤ mask.toNat → exec (.inputs mask) s = .refused .illegalOperand))

/-! ## The control state machine -/

/-- R272, R271: `SETSTATE` performs the atomic part of entering each of the seven states, and nothing else. -/
def Obligations.SetstateEnters : Prop :=
  ∀ s : State, s.ctl = .idle →
    exec (.setstate .sleeping) s = .next { s with
      boardState := .sleeping, afEnable := false, cdtIe := false, wakeIe := true, cdCounter := s.cfg.cdStart,
      pirHigh := 0, pirLow := 0, result := .none } ∧
    exec (.setstate .wireSetup) s = .next { s with boardState := .wireSetup, wakeIe := false, result := .none } ∧
    exec (.setstate .waitingArmed) s = .next { s with
      boardState := .waitingArmed, cdtIe := true, wakeIe := false, pirHigh := 0, pirLow := 0, result := .none } ∧
    exec (.setstate .countingDown) s = .next { s with
      boardState := .countingDown, afEnable := true, afIndex := 0, cdtIe := true, wakeIe := false,
      result := .none } ∧
    exec (.setstate .success) s = .next { s with
      boardState := .success, afEnable := true, afIndex := 0, wakeIe := false, result := .none } ∧
    exec (.setstate .failure) s = .next { s with
      boardState := .failure, afEnable := true, afIndex := 0, wakeIe := false, result := .none } ∧
    exec (.setstate .done) s = .next { s with
      boardState := .done, afEnable := false, cdtIe := false, wakeIe := false, result := .none }

/-- R261, R264, R265, R270, R323: the iterations that reach no display. In `SLEEPING` with no input activated and in
`DONE` the main loop enters low power; in `WIRE_SETUP` it waits for the inputs to be deactivated, then arms; and in the
low-power wait, where R261 does not enable it, an iteration does not begin until an interrupt is taken: that it waits
for one is the model's reading, log entry 8. -/
def Obligations.MainloopWithoutDisplay : Prop :=
  ∀ s : State, s.ctl = .idle →
    (s.lowpower = false → s.boardState = .sleeping → s.inputs = 0 →
      ∃ t, exec .mainloop s = .next t ∧ hostSteps 2 t = .next { s with lowpower := true, result := .none }) ∧
    (s.lowpower = false → s.boardState = .wireSetup →
      ∃ t, exec .mainloop s = .next t ∧
        (s.inputs = 0 → hostSteps 2 t = .next { s with
          boardState := .waitingArmed, cdtIe := true, wakeIe := false, pirHigh := 0, pirLow := 0,
          result := .none }) ∧
        (s.inputs ≠ 0 → hostSteps 1 t = .next { s with result := .none })) ∧
    (s.lowpower = false → s.boardState = .done →
      ∃ t, exec .mainloop s = .next t ∧ hostSteps 1 t = .next { s with lowpower := true, result := .none }) ∧
    (s.lowpower = true →
      exec .mainloop s = .next { s with ctl := .run .loopGate } ∧ hostReady { s with ctl := .run .loopGate } = false ∧
      (s.wakeIe = true → ∃ t, exec .sensorEdge { s with ctl := .run .loopGate } = .next t ∧ hostReady t = true))

/-- R266, R268, R269: the iteration does nothing in `WAITING_ARMED`, whose exits the timer tick commits; in `SUCCESS`
and in `FAILURE` it enters `DONE` when the state's table is exhausted, and does nothing before. -/
def Obligations.MainloopLeavesAtExhaustion : Prop :=
  ∀ s : State, s.ctl = .idle → s.lowpower = false →
    (s.boardState = .waitingArmed →
      exec .mainloop s = .next { s with result := .none } ∧
      (s.cdtIe = true → s.cfg.thActive ≤ s.pirHigh + 1 →
        ∃ t, exec (.tickCd true) s = .next t ∧ t.boardState = .countingDown) ∧
      (s.cdtIe = true → s.cfg.thInactive ≤ s.pirLow + 1 →
        ∃ t, exec (.tickCd false) s = .next t ∧ t.boardState = .sleeping)) ∧
    (∀ table : List Byte,
      (s.boardState = .success ∧ table = s.cfg.win) ∨ (s.boardState = .failure ∧ table = s.cfg.lose) →
      ∃ t, exec .mainloop s = .next t ∧
        (table.length ≤ s.afIndex.toNat →
          hostSteps 3 t = .next { s with
            boardState := .done, afEnable := false, cdtIe := false, wakeIe := false, result := .none }) ∧
        (s.afIndex.toNat < table.length → hostSteps 2 t = .next { s with result := .none }))

/-- R274: the game's outcome. In `COUNTING_DOWN`, without rollover, the iteration ends in success if and only if exactly
the bit of the Safe-Choice Index is set in the mask, and in failure if and only if the mask is any other nonzero one;
on rollover it ends in failure whatever the mask. -/
def Obligations.GameOutcome : Prop :=
  ∀ s : State, Inv s → admitted s.cfg = true → s.ctl = .idle → s.lowpower = false → s.boardState = .countingDown →
    s.enabled = true → ∃ t, exec .mainloop s = .next t ∧
      (s.rollover = true → ∃ u, hostSteps 2 t = .next u ∧ u.boardState = .failure) ∧
      (s.rollover = false → ∃ u, hostSteps 3 t = .next u ∧
        (u.boardState = .success ↔ ∀ i, i < 8 → (s.inputs.getLsbD i = true ↔ i = s.safeIdx)) ∧
        (u.boardState = .failure ↔
          s.inputs ≠ 0 ∧ ¬ ∀ i, i < 8 → (s.inputs.getLsbD i = true ↔ i = s.safeIdx)))

/-- R264, R267, R231: what an iteration does before it reaches the bus. An input activated in `SLEEPING` enters
wire-setup with dashes in the buffer; a countdown without exit puts the counter's four digits in the buffer; rollover
enters failure with zeros; an input in `COUNTING_DOWN` enters success or failure and leaves the buffer. What is left of
the iteration is `WRITEALL` and `SETBLINK`. -/
def Obligations.MainloopActionsBeforeTheBus : Prop :=
  ∀ s : State, Inv s → admitted s.cfg = true → s.ctl = .idle → s.lowpower = false → s.enabled = true →
    (s.boardState = .sleeping → s.inputs ≠ 0 →
      ∃ t, exec .mainloop s = .next t ∧
        hostSteps 7 t = .next { s with
          boardState := .wireSetup, wakeIe := false,
          dispBuf := #v[s.cfg.glyphDash, s.cfg.glyphDash, 0, s.cfg.glyphDash, s.cfg.glyphDash],
          ctl := .run (.loop [.writeAll, .setBlink (s.cfg.blinkSetup.setWidth 8)]) }) ∧
    (s.boardState = .countingDown →
      ∃ t, exec .mainloop s = .next t ∧
        (s.rollover = true →
          hostSteps 6 t = .next { s with
            rollover := false, boardState := .failure, afEnable := true, afIndex := 0, wakeIe := false,
            dispBuf := #v[(0 : Byte), 0, s.dispBuf[2], 0, 0],
            ctl := .run (.loop [.writeAll, .setBlink (s.cfg.blinkFail.setWidth 8)]) }) ∧
        (s.rollover = false → s.inputs = 1#8 <<< s.safeIdx →
          hostSteps 3 t = .next { s with
            boardState := .success, afEnable := true, afIndex := 0, wakeIe := false,
            ctl := .run (.loop [.setBlink (s.cfg.blinkSuccess.setWidth 8)]) }) ∧
        (s.rollover = false → s.inputs ≠ 1#8 <<< s.safeIdx → s.inputs ≠ 0 →
          hostSteps 3 t = .next { s with
            boardState := .failure, afEnable := true, afIndex := 0, wakeIe := false,
            ctl := .run (.loop [.setBlink (s.cfg.blinkFail.setWidth 8)]) }) ∧
        (s.rollover = false → s.inputs = 0 →
          hostSteps 7 t = .next { s with
            dispBuf := #v[BitVec.ofNat 8 (s.cdCounter.toNat / 1000 % 10),
              BitVec.ofNat 8 (s.cdCounter.toNat / 100 % 10), s.dispBuf[2],
              BitVec.ofNat 8 (s.cdCounter.toNat / 10 % 10), BitVec.ofNat 8 (s.cdCounter.toNat % 10)],
            ctl := .run (.loop [.writeAll]) }))

/-- R374, R261: the iteration acts on the Board State it read. A sensor edge between its test of the inputs and its
entry to wire-setup enters `WAITING_ARMED`, which the iteration overwrites; the periodic interrupt stays enabled. -/
def Obligations.StaleBoardStateIsOverwritten : Prop :=
  ∀ s : State, s.ctl = .idle → s.lowpower = false → s.boardState = .sleeping → s.inputs ≠ 0 → s.enabled = true →
    s.wakeIe = true →
    ∃ t u v w, exec .mainloop s = .next t ∧ hostSteps 1 t = .next u ∧
      exec .sensorEdge u = .next v ∧ v.boardState = .waitingArmed ∧
      hostSteps 1 v = .next w ∧ w.boardState = .wireSetup ∧ w.cdtIe = true ∧ w.wakeIe = false

/-- R276 (a), R190: with the Safe-Choice input alone activated in `COUNTING_DOWN` and the healthy peer, one iteration
enters success and sends the success blink rate; the underflows then play the success table once and no more; and the
next iteration enters `DONE`. In the first iteration nothing but timeout ticks falls around the peer's answers; the peer
is that of log entry 18, which answers every address. -/
def Obligations.SuccessScenario : Prop :=
  ∀ (any : Nat → Byte) (s : State) (p : Peer) (script : List (List Beside)) (k : Nat),
    Inv s → admitted s.cfg = true → BusReady s → s.lowpower = false → s.boardState = .countingDown →
    s.rollover = false → s.inputs = 1#8 <<< s.safeIdx → 8 ≤ script.length → onlyTicks script →
    ∃ t q, runServed any script .mainloop (s, p) = some (t, q) ∧ t.ctl = .idle ∧ t.boardState = .success ∧
      t.busTrace = s.busTrace ++
        writeTransaction any s.busTrace.length s.cfg.dispAddr
          [s.cfg.cmdDisp ||| (s.cfg.blinkSuccess.setWidth 8 <<< 1) ||| 1] ∧
      ∃ u, execSeq (List.replicate (s.cfg.win.length + k) .pwmUnderflow) t = .next u ∧
        u.outTrace = s.outTrace ++ s.cfg.win.map .pwm ∧
        ∃ v w, exec .mainloop u = .next v ∧ hostSteps 3 v = .next w ∧ w.boardState = .done ∧ w.afEnable = false

/-- R276 (b): with no input activated, the countdown reaches zero after `CD_START` ticks; the next iteration, with the
healthy peer, enters failure, shows zeros in the four numeric positions, and sends the failure blink rate. In
that iteration nothing but timeout ticks falls around the peer's answers; the peer is that of log entry 18, which answers
every address. -/
def Obligations.RolloverScenario : Prop :=
  ∀ (any : Nat → Byte) (s : State) (p : Peer) (script : List (List Beside)),
    Inv s → admitted s.cfg = true → BusReady s → s.lowpower = false → s.boardState = .countingDown →
    s.rollover = false → s.cdCounter = s.cfg.cdStart → s.inputs = 0 → 46 ≤ script.length →
    onlyTicks script →
    ∃ t, execSeq (List.replicate s.cfg.cdStart.toNat (.tickCd false)) s = .next t ∧
      ∃ u q, runServed any script .mainloop (t, p) = some (u, q) ∧ u.ctl = .idle ∧ u.boardState = .failure ∧
        u.rollover = false ∧ u.dispBuf = #v[(0 : Byte), 0, s.dispBuf[2], 0, 0] ∧
        u.busTrace = s.busTrace ++
          ((List.finRange 5).flatMap fun i =>
            writeTransaction any (s.busTrace.length + 7 * i.val) s.cfg.dispAddr [digitRegister s.cfg i,
              if i.val = 2 then (if s.dispBuf[2] = 1 then s.cfg.sepOn else 0) else s.cfg.glyph.getD 0 0]) ++
          writeTransaction any (s.busTrace.length + 35) s.cfg.dispAddr
            [s.cfg.cmdDisp ||| (s.cfg.blinkFail.setWidth 8 <<< 1) ||| 1]
end

