-- ==== Sys2Proof/Laws/State.lean ====
section
/-! SUPPORT. What each named update of the state leaves in each field: true by `rfl`, for `simp`. Entering a Board State
is by cases on the state entered. -/

namespace Sys2Proof.Machine


/-! ### giveResult -/

@[simp] theorem giveResult_enabled (r : Result) (s : State) : (giveResult r s).enabled = s.enabled := rfl
@[simp] theorem giveResult_owner (r : Result) (s : State) : (giveResult r s).owner = s.owner := rfl
@[simp] theorem giveResult_flagTc (r : Result) (s : State) : (giveResult r s).flagTc = s.flagTc := rfl
@[simp] theorem giveResult_flagBerr (r : Result) (s : State) : (giveResult r s).flagBerr = s.flagBerr := rfl
@[simp] theorem giveResult_flagArb (r : Result) (s : State) : (giveResult r s).flagArb = s.flagArb := rfl
@[simp] theorem giveResult_flagNack (r : Result) (s : State) : (giveResult r s).flagNack = s.flagNack := rfl
@[simp] theorem giveResult_ackPolicy (r : Result) (s : State) : (giveResult r s).ackPolicy = s.ackPolicy := rfl
@[simp] theorem giveResult_data (r : Result) (s : State) : (giveResult r s).data = s.data := rfl
@[simp] theorem giveResult_toCount (r : Result) (s : State) : (giveResult r s).toCount = s.toCount := rfl
@[simp] theorem giveResult_pending (r : Result) (s : State) : (giveResult r s).pending = s.pending := rfl
@[simp] theorem giveResult_busTrace (r : Result) (s : State) : (giveResult r s).busTrace = s.busTrace := rfl
@[simp] theorem giveResult_afIndex (r : Result) (s : State) : (giveResult r s).afIndex = s.afIndex := rfl
@[simp] theorem giveResult_pwmCompare (r : Result) (s : State) : (giveResult r s).pwmCompare = s.pwmCompare := rfl
@[simp] theorem giveResult_afEnable (r : Result) (s : State) : (giveResult r s).afEnable = s.afEnable := rfl
@[simp] theorem giveResult_cdCounter (r : Result) (s : State) : (giveResult r s).cdCounter = s.cdCounter := rfl
@[simp] theorem giveResult_rollover (r : Result) (s : State) : (giveResult r s).rollover = s.rollover := rfl
@[simp] theorem giveResult_blinkPhase (r : Result) (s : State) : (giveResult r s).blinkPhase = s.blinkPhase := rfl
@[simp] theorem giveResult_pirHigh (r : Result) (s : State) : (giveResult r s).pirHigh = s.pirHigh := rfl
@[simp] theorem giveResult_pirLow (r : Result) (s : State) : (giveResult r s).pirLow = s.pirLow := rfl
@[simp] theorem giveResult_cdtIe (r : Result) (s : State) : (giveResult r s).cdtIe = s.cdtIe := rfl
@[simp] theorem giveResult_wakeIe (r : Result) (s : State) : (giveResult r s).wakeIe = s.wakeIe := rfl
@[simp] theorem giveResult_led (r : Result) (s : State) : (giveResult r s).led = s.led := rfl
@[simp] theorem giveResult_boardState (r : Result) (s : State) : (giveResult r s).boardState = s.boardState := rfl
@[simp] theorem giveResult_safeIdx (r : Result) (s : State) : (giveResult r s).safeIdx = s.safeIdx := rfl
@[simp] theorem giveResult_inputs (r : Result) (s : State) : (giveResult r s).inputs = s.inputs := rfl
@[simp] theorem giveResult_dispBuf (r : Result) (s : State) : (giveResult r s).dispBuf = s.dispBuf := rfl
@[simp] theorem giveResult_lowpower (r : Result) (s : State) : (giveResult r s).lowpower = s.lowpower := rfl
@[simp] theorem giveResult_outTrace (r : Result) (s : State) : (giveResult r s).outTrace = s.outTrace := rfl
@[simp] theorem giveResult_cfg (r : Result) (s : State) : (giveResult r s).cfg = s.cfg := rfl
@[simp] theorem giveResult_ctl (r : Result) (s : State) : (giveResult r s).ctl = .idle := rfl
@[simp] theorem giveResult_result (r : Result) (s : State) : (giveResult r s).result = r := rfl
@[simp] theorem giveResult_cmds (r : Result) (s : State) : (giveResult r s).cmds = s.cmds := rfl
@[simp] theorem giveResult_events (r : Result) (s : State) : (giveResult r s).events = s.events := rfl
@[simp] theorem giveResult_sched (r : Result) (s : State) : (giveResult r s).sched = s.sched := rfl

/-! ### runJob -/

@[simp] theorem runJob_enabled (j : Job) (s : State) : (runJob j s).enabled = s.enabled := rfl
@[simp] theorem runJob_owner (j : Job) (s : State) : (runJob j s).owner = s.owner := rfl
@[simp] theorem runJob_flagTc (j : Job) (s : State) : (runJob j s).flagTc = s.flagTc := rfl
@[simp] theorem runJob_flagBerr (j : Job) (s : State) : (runJob j s).flagBerr = s.flagBerr := rfl
@[simp] theorem runJob_flagArb (j : Job) (s : State) : (runJob j s).flagArb = s.flagArb := rfl
@[simp] theorem runJob_flagNack (j : Job) (s : State) : (runJob j s).flagNack = s.flagNack := rfl
@[simp] theorem runJob_ackPolicy (j : Job) (s : State) : (runJob j s).ackPolicy = s.ackPolicy := rfl
@[simp] theorem runJob_data (j : Job) (s : State) : (runJob j s).data = s.data := rfl
@[simp] theorem runJob_toCount (j : Job) (s : State) : (runJob j s).toCount = s.toCount := rfl
@[simp] theorem runJob_pending (j : Job) (s : State) : (runJob j s).pending = s.pending := rfl
@[simp] theorem runJob_busTrace (j : Job) (s : State) : (runJob j s).busTrace = s.busTrace := rfl
@[simp] theorem runJob_afIndex (j : Job) (s : State) : (runJob j s).afIndex = s.afIndex := rfl
@[simp] theorem runJob_pwmCompare (j : Job) (s : State) : (runJob j s).pwmCompare = s.pwmCompare := rfl
@[simp] theorem runJob_afEnable (j : Job) (s : State) : (runJob j s).afEnable = s.afEnable := rfl
@[simp] theorem runJob_cdCounter (j : Job) (s : State) : (runJob j s).cdCounter = s.cdCounter := rfl
@[simp] theorem runJob_rollover (j : Job) (s : State) : (runJob j s).rollover = s.rollover := rfl
@[simp] theorem runJob_blinkPhase (j : Job) (s : State) : (runJob j s).blinkPhase = s.blinkPhase := rfl
@[simp] theorem runJob_pirHigh (j : Job) (s : State) : (runJob j s).pirHigh = s.pirHigh := rfl
@[simp] theorem runJob_pirLow (j : Job) (s : State) : (runJob j s).pirLow = s.pirLow := rfl
@[simp] theorem runJob_cdtIe (j : Job) (s : State) : (runJob j s).cdtIe = s.cdtIe := rfl
@[simp] theorem runJob_wakeIe (j : Job) (s : State) : (runJob j s).wakeIe = s.wakeIe := rfl
@[simp] theorem runJob_led (j : Job) (s : State) : (runJob j s).led = s.led := rfl
@[simp] theorem runJob_boardState (j : Job) (s : State) : (runJob j s).boardState = s.boardState := rfl
@[simp] theorem runJob_safeIdx (j : Job) (s : State) : (runJob j s).safeIdx = s.safeIdx := rfl
@[simp] theorem runJob_inputs (j : Job) (s : State) : (runJob j s).inputs = s.inputs := rfl
@[simp] theorem runJob_dispBuf (j : Job) (s : State) : (runJob j s).dispBuf = s.dispBuf := rfl
@[simp] theorem runJob_lowpower (j : Job) (s : State) : (runJob j s).lowpower = s.lowpower := rfl
@[simp] theorem runJob_outTrace (j : Job) (s : State) : (runJob j s).outTrace = s.outTrace := rfl
@[simp] theorem runJob_cfg (j : Job) (s : State) : (runJob j s).cfg = s.cfg := rfl
@[simp] theorem runJob_ctl (j : Job) (s : State) : (runJob j s).ctl = .run j := rfl
@[simp] theorem runJob_result (j : Job) (s : State) : (runJob j s).result = s.result := rfl
@[simp] theorem runJob_cmds (j : Job) (s : State) : (runJob j s).cmds = s.cmds := rfl
@[simp] theorem runJob_events (j : Job) (s : State) : (runJob j s).events = s.events := rfl
@[simp] theorem runJob_sched (j : Job) (s : State) : (runJob j s).sched = s.sched := rfl

/-! ### interruptEntry -/

@[simp] theorem interruptEntry_enabled (s : State) : (interruptEntry s).enabled = s.enabled := rfl
@[simp] theorem interruptEntry_owner (s : State) : (interruptEntry s).owner = s.owner := rfl
@[simp] theorem interruptEntry_flagTc (s : State) : (interruptEntry s).flagTc = s.flagTc := rfl
@[simp] theorem interruptEntry_flagBerr (s : State) : (interruptEntry s).flagBerr = s.flagBerr := rfl
@[simp] theorem interruptEntry_flagArb (s : State) : (interruptEntry s).flagArb = s.flagArb := rfl
@[simp] theorem interruptEntry_flagNack (s : State) : (interruptEntry s).flagNack = s.flagNack := rfl
@[simp] theorem interruptEntry_ackPolicy (s : State) : (interruptEntry s).ackPolicy = s.ackPolicy := rfl
@[simp] theorem interruptEntry_data (s : State) : (interruptEntry s).data = s.data := rfl
@[simp] theorem interruptEntry_toCount (s : State) : (interruptEntry s).toCount = s.toCount := rfl
@[simp] theorem interruptEntry_pending (s : State) : (interruptEntry s).pending = s.pending := rfl
@[simp] theorem interruptEntry_busTrace (s : State) : (interruptEntry s).busTrace = s.busTrace := rfl
@[simp] theorem interruptEntry_afIndex (s : State) : (interruptEntry s).afIndex = s.afIndex := rfl
@[simp] theorem interruptEntry_pwmCompare (s : State) : (interruptEntry s).pwmCompare = s.pwmCompare := rfl
@[simp] theorem interruptEntry_afEnable (s : State) : (interruptEntry s).afEnable = s.afEnable := rfl
@[simp] theorem interruptEntry_cdCounter (s : State) : (interruptEntry s).cdCounter = s.cdCounter := rfl
@[simp] theorem interruptEntry_rollover (s : State) : (interruptEntry s).rollover = s.rollover := rfl
@[simp] theorem interruptEntry_blinkPhase (s : State) : (interruptEntry s).blinkPhase = s.blinkPhase := rfl
@[simp] theorem interruptEntry_pirHigh (s : State) : (interruptEntry s).pirHigh = s.pirHigh := rfl
@[simp] theorem interruptEntry_pirLow (s : State) : (interruptEntry s).pirLow = s.pirLow := rfl
@[simp] theorem interruptEntry_cdtIe (s : State) : (interruptEntry s).cdtIe = s.cdtIe := rfl
@[simp] theorem interruptEntry_wakeIe (s : State) : (interruptEntry s).wakeIe = s.wakeIe := rfl
@[simp] theorem interruptEntry_led (s : State) : (interruptEntry s).led = s.led := rfl
@[simp] theorem interruptEntry_boardState (s : State) : (interruptEntry s).boardState = s.boardState := rfl
@[simp] theorem interruptEntry_safeIdx (s : State) : (interruptEntry s).safeIdx = s.safeIdx := rfl
@[simp] theorem interruptEntry_inputs (s : State) : (interruptEntry s).inputs = s.inputs := rfl
@[simp] theorem interruptEntry_dispBuf (s : State) : (interruptEntry s).dispBuf = s.dispBuf := rfl
@[simp] theorem interruptEntry_lowpower (s : State) : (interruptEntry s).lowpower = false := rfl
@[simp] theorem interruptEntry_outTrace (s : State) : (interruptEntry s).outTrace = s.outTrace := rfl
@[simp] theorem interruptEntry_cfg (s : State) : (interruptEntry s).cfg = s.cfg := rfl
@[simp] theorem interruptEntry_ctl (s : State) : (interruptEntry s).ctl = s.ctl := rfl
@[simp] theorem interruptEntry_result (s : State) : (interruptEntry s).result = s.result := rfl
@[simp] theorem interruptEntry_cmds (s : State) : (interruptEntry s).cmds = s.cmds := rfl
@[simp] theorem interruptEntry_events (s : State) : (interruptEntry s).events = s.events := rfl
@[simp] theorem interruptEntry_sched (s : State) : (interruptEntry s).sched = s.sched := rfl

/-! ### audioStart -/

@[simp] theorem audioStart_enabled (s : State) : (audioStart s).enabled = s.enabled := rfl
@[simp] theorem audioStart_owner (s : State) : (audioStart s).owner = s.owner := rfl
@[simp] theorem audioStart_flagTc (s : State) : (audioStart s).flagTc = s.flagTc := rfl
@[simp] theorem audioStart_flagBerr (s : State) : (audioStart s).flagBerr = s.flagBerr := rfl
@[simp] theorem audioStart_flagArb (s : State) : (audioStart s).flagArb = s.flagArb := rfl
@[simp] theorem audioStart_flagNack (s : State) : (audioStart s).flagNack = s.flagNack := rfl
@[simp] theorem audioStart_ackPolicy (s : State) : (audioStart s).ackPolicy = s.ackPolicy := rfl
@[simp] theorem audioStart_data (s : State) : (audioStart s).data = s.data := rfl
@[simp] theorem audioStart_toCount (s : State) : (audioStart s).toCount = s.toCount := rfl
@[simp] theorem audioStart_pending (s : State) : (audioStart s).pending = s.pending := rfl
@[simp] theorem audioStart_busTrace (s : State) : (audioStart s).busTrace = s.busTrace := rfl
@[simp] theorem audioStart_afIndex (s : State) : (audioStart s).afIndex = 0 := rfl
@[simp] theorem audioStart_pwmCompare (s : State) : (audioStart s).pwmCompare = s.pwmCompare := rfl
@[simp] theorem audioStart_afEnable (s : State) : (audioStart s).afEnable = true := rfl
@[simp] theorem audioStart_cdCounter (s : State) : (audioStart s).cdCounter = s.cdCounter := rfl
@[simp] theorem audioStart_rollover (s : State) : (audioStart s).rollover = s.rollover := rfl
@[simp] theorem audioStart_blinkPhase (s : State) : (audioStart s).blinkPhase = s.blinkPhase := rfl
@[simp] theorem audioStart_pirHigh (s : State) : (audioStart s).pirHigh = s.pirHigh := rfl
@[simp] theorem audioStart_pirLow (s : State) : (audioStart s).pirLow = s.pirLow := rfl
@[simp] theorem audioStart_cdtIe (s : State) : (audioStart s).cdtIe = s.cdtIe := rfl
@[simp] theorem audioStart_wakeIe (s : State) : (audioStart s).wakeIe = s.wakeIe := rfl
@[simp] theorem audioStart_led (s : State) : (audioStart s).led = s.led := rfl
@[simp] theorem audioStart_boardState (s : State) : (audioStart s).boardState = s.boardState := rfl
@[simp] theorem audioStart_safeIdx (s : State) : (audioStart s).safeIdx = s.safeIdx := rfl
@[simp] theorem audioStart_inputs (s : State) : (audioStart s).inputs = s.inputs := rfl
@[simp] theorem audioStart_dispBuf (s : State) : (audioStart s).dispBuf = s.dispBuf := rfl
@[simp] theorem audioStart_lowpower (s : State) : (audioStart s).lowpower = s.lowpower := rfl
@[simp] theorem audioStart_outTrace (s : State) : (audioStart s).outTrace = s.outTrace := rfl
@[simp] theorem audioStart_cfg (s : State) : (audioStart s).cfg = s.cfg := rfl
@[simp] theorem audioStart_ctl (s : State) : (audioStart s).ctl = s.ctl := rfl
@[simp] theorem audioStart_result (s : State) : (audioStart s).result = s.result := rfl
@[simp] theorem audioStart_cmds (s : State) : (audioStart s).cmds = s.cmds := rfl
@[simp] theorem audioStart_events (s : State) : (audioStart s).events = s.events := rfl
@[simp] theorem audioStart_sched (s : State) : (audioStart s).sched = s.sched := rfl

/-! ### audioStop -/

@[simp] theorem audioStop_enabled (s : State) : (audioStop s).enabled = s.enabled := rfl
@[simp] theorem audioStop_owner (s : State) : (audioStop s).owner = s.owner := rfl
@[simp] theorem audioStop_flagTc (s : State) : (audioStop s).flagTc = s.flagTc := rfl
@[simp] theorem audioStop_flagBerr (s : State) : (audioStop s).flagBerr = s.flagBerr := rfl
@[simp] theorem audioStop_flagArb (s : State) : (audioStop s).flagArb = s.flagArb := rfl
@[simp] theorem audioStop_flagNack (s : State) : (audioStop s).flagNack = s.flagNack := rfl
@[simp] theorem audioStop_ackPolicy (s : State) : (audioStop s).ackPolicy = s.ackPolicy := rfl
@[simp] theorem audioStop_data (s : State) : (audioStop s).data = s.data := rfl
@[simp] theorem audioStop_toCount (s : State) : (audioStop s).toCount = s.toCount := rfl
@[simp] theorem audioStop_pending (s : State) : (audioStop s).pending = s.pending := rfl
@[simp] theorem audioStop_busTrace (s : State) : (audioStop s).busTrace = s.busTrace := rfl
@[simp] theorem audioStop_afIndex (s : State) : (audioStop s).afIndex = s.afIndex := rfl
@[simp] theorem audioStop_pwmCompare (s : State) : (audioStop s).pwmCompare = s.pwmCompare := rfl
@[simp] theorem audioStop_afEnable (s : State) : (audioStop s).afEnable = false := rfl
@[simp] theorem audioStop_cdCounter (s : State) : (audioStop s).cdCounter = s.cdCounter := rfl
@[simp] theorem audioStop_rollover (s : State) : (audioStop s).rollover = s.rollover := rfl
@[simp] theorem audioStop_blinkPhase (s : State) : (audioStop s).blinkPhase = s.blinkPhase := rfl
@[simp] theorem audioStop_pirHigh (s : State) : (audioStop s).pirHigh = s.pirHigh := rfl
@[simp] theorem audioStop_pirLow (s : State) : (audioStop s).pirLow = s.pirLow := rfl
@[simp] theorem audioStop_cdtIe (s : State) : (audioStop s).cdtIe = s.cdtIe := rfl
@[simp] theorem audioStop_wakeIe (s : State) : (audioStop s).wakeIe = s.wakeIe := rfl
@[simp] theorem audioStop_led (s : State) : (audioStop s).led = s.led := rfl
@[simp] theorem audioStop_boardState (s : State) : (audioStop s).boardState = s.boardState := rfl
@[simp] theorem audioStop_safeIdx (s : State) : (audioStop s).safeIdx = s.safeIdx := rfl
@[simp] theorem audioStop_inputs (s : State) : (audioStop s).inputs = s.inputs := rfl
@[simp] theorem audioStop_dispBuf (s : State) : (audioStop s).dispBuf = s.dispBuf := rfl
@[simp] theorem audioStop_lowpower (s : State) : (audioStop s).lowpower = s.lowpower := rfl
@[simp] theorem audioStop_outTrace (s : State) : (audioStop s).outTrace = s.outTrace := rfl
@[simp] theorem audioStop_cfg (s : State) : (audioStop s).cfg = s.cfg := rfl
@[simp] theorem audioStop_ctl (s : State) : (audioStop s).ctl = s.ctl := rfl
@[simp] theorem audioStop_result (s : State) : (audioStop s).result = s.result := rfl
@[simp] theorem audioStop_cmds (s : State) : (audioStop s).cmds = s.cmds := rfl
@[simp] theorem audioStop_events (s : State) : (audioStop s).events = s.events := rfl
@[simp] theorem audioStop_sched (s : State) : (audioStop s).sched = s.sched := rfl

/-! ### setLed -/

@[simp] theorem setLed_enabled (level : Bool) (s : State) : (setLed level s).enabled = s.enabled := rfl
@[simp] theorem setLed_owner (level : Bool) (s : State) : (setLed level s).owner = s.owner := rfl
@[simp] theorem setLed_flagTc (level : Bool) (s : State) : (setLed level s).flagTc = s.flagTc := rfl
@[simp] theorem setLed_flagBerr (level : Bool) (s : State) : (setLed level s).flagBerr = s.flagBerr := rfl
@[simp] theorem setLed_flagArb (level : Bool) (s : State) : (setLed level s).flagArb = s.flagArb := rfl
@[simp] theorem setLed_flagNack (level : Bool) (s : State) : (setLed level s).flagNack = s.flagNack := rfl
@[simp] theorem setLed_ackPolicy (level : Bool) (s : State) : (setLed level s).ackPolicy = s.ackPolicy := rfl
@[simp] theorem setLed_data (level : Bool) (s : State) : (setLed level s).data = s.data := rfl
@[simp] theorem setLed_toCount (level : Bool) (s : State) : (setLed level s).toCount = s.toCount := rfl
@[simp] theorem setLed_pending (level : Bool) (s : State) : (setLed level s).pending = s.pending := rfl
@[simp] theorem setLed_busTrace (level : Bool) (s : State) : (setLed level s).busTrace = s.busTrace := rfl
@[simp] theorem setLed_afIndex (level : Bool) (s : State) : (setLed level s).afIndex = s.afIndex := rfl
@[simp] theorem setLed_pwmCompare (level : Bool) (s : State) : (setLed level s).pwmCompare = s.pwmCompare := rfl
@[simp] theorem setLed_afEnable (level : Bool) (s : State) : (setLed level s).afEnable = s.afEnable := rfl
@[simp] theorem setLed_cdCounter (level : Bool) (s : State) : (setLed level s).cdCounter = s.cdCounter := rfl
@[simp] theorem setLed_rollover (level : Bool) (s : State) : (setLed level s).rollover = s.rollover := rfl
@[simp] theorem setLed_blinkPhase (level : Bool) (s : State) : (setLed level s).blinkPhase = s.blinkPhase := rfl
@[simp] theorem setLed_pirHigh (level : Bool) (s : State) : (setLed level s).pirHigh = s.pirHigh := rfl
@[simp] theorem setLed_pirLow (level : Bool) (s : State) : (setLed level s).pirLow = s.pirLow := rfl
@[simp] theorem setLed_cdtIe (level : Bool) (s : State) : (setLed level s).cdtIe = s.cdtIe := rfl
@[simp] theorem setLed_wakeIe (level : Bool) (s : State) : (setLed level s).wakeIe = s.wakeIe := rfl
@[simp] theorem setLed_led (level : Bool) (s : State) : (setLed level s).led = level := rfl
@[simp] theorem setLed_boardState (level : Bool) (s : State) : (setLed level s).boardState = s.boardState := rfl
@[simp] theorem setLed_safeIdx (level : Bool) (s : State) : (setLed level s).safeIdx = s.safeIdx := rfl
@[simp] theorem setLed_inputs (level : Bool) (s : State) : (setLed level s).inputs = s.inputs := rfl
@[simp] theorem setLed_dispBuf (level : Bool) (s : State) : (setLed level s).dispBuf = s.dispBuf := rfl
@[simp] theorem setLed_lowpower (level : Bool) (s : State) : (setLed level s).lowpower = s.lowpower := rfl
@[simp] theorem setLed_outTrace (level : Bool) (s : State) :
    (setLed level s).outTrace = s.outTrace ++ [.led level] := rfl
@[simp] theorem setLed_cfg (level : Bool) (s : State) : (setLed level s).cfg = s.cfg := rfl
@[simp] theorem setLed_ctl (level : Bool) (s : State) : (setLed level s).ctl = s.ctl := rfl
@[simp] theorem setLed_result (level : Bool) (s : State) : (setLed level s).result = s.result := rfl
@[simp] theorem setLed_cmds (level : Bool) (s : State) : (setLed level s).cmds = s.cmds := rfl
@[simp] theorem setLed_events (level : Bool) (s : State) : (setLed level s).events = s.events := rfl
@[simp] theorem setLed_sched (level : Bool) (s : State) : (setLed level s).sched = s.sched := rfl

/-! ### issue -/

@[simp] theorem issue_enabled (c : BusCmd) (s : State) : (issue c s).enabled = s.enabled := rfl
@[simp] theorem issue_owner (c : BusCmd) (s : State) : (issue c s).owner = s.owner := rfl
@[simp] theorem issue_flagTc (c : BusCmd) (s : State) : (issue c s).flagTc = false := rfl
@[simp] theorem issue_flagBerr (c : BusCmd) (s : State) : (issue c s).flagBerr = s.flagBerr := rfl
@[simp] theorem issue_flagArb (c : BusCmd) (s : State) : (issue c s).flagArb = s.flagArb := rfl
@[simp] theorem issue_flagNack (c : BusCmd) (s : State) : (issue c s).flagNack = s.flagNack := rfl
@[simp] theorem issue_ackPolicy (c : BusCmd) (s : State) : (issue c s).ackPolicy = s.ackPolicy := rfl
@[simp] theorem issue_data (c : BusCmd) (s : State) : (issue c s).data = s.data := rfl
@[simp] theorem issue_toCount (c : BusCmd) (s : State) : (issue c s).toCount = s.toCount := rfl
@[simp] theorem issue_pending (c : BusCmd) (s : State) : (issue c s).pending = busCmdKind c := rfl
@[simp] theorem issue_busTrace (c : BusCmd) (s : State) : (issue c s).busTrace = s.busTrace ++ [busCmdEvent c] := rfl
@[simp] theorem issue_afIndex (c : BusCmd) (s : State) : (issue c s).afIndex = s.afIndex := rfl
@[simp] theorem issue_pwmCompare (c : BusCmd) (s : State) : (issue c s).pwmCompare = s.pwmCompare := rfl
@[simp] theorem issue_afEnable (c : BusCmd) (s : State) : (issue c s).afEnable = s.afEnable := rfl
@[simp] theorem issue_cdCounter (c : BusCmd) (s : State) : (issue c s).cdCounter = s.cdCounter := rfl
@[simp] theorem issue_rollover (c : BusCmd) (s : State) : (issue c s).rollover = s.rollover := rfl
@[simp] theorem issue_blinkPhase (c : BusCmd) (s : State) : (issue c s).blinkPhase = s.blinkPhase := rfl
@[simp] theorem issue_pirHigh (c : BusCmd) (s : State) : (issue c s).pirHigh = s.pirHigh := rfl
@[simp] theorem issue_pirLow (c : BusCmd) (s : State) : (issue c s).pirLow = s.pirLow := rfl
@[simp] theorem issue_cdtIe (c : BusCmd) (s : State) : (issue c s).cdtIe = s.cdtIe := rfl
@[simp] theorem issue_wakeIe (c : BusCmd) (s : State) : (issue c s).wakeIe = s.wakeIe := rfl
@[simp] theorem issue_led (c : BusCmd) (s : State) : (issue c s).led = s.led := rfl
@[simp] theorem issue_boardState (c : BusCmd) (s : State) : (issue c s).boardState = s.boardState := rfl
@[simp] theorem issue_safeIdx (c : BusCmd) (s : State) : (issue c s).safeIdx = s.safeIdx := rfl
@[simp] theorem issue_inputs (c : BusCmd) (s : State) : (issue c s).inputs = s.inputs := rfl
@[simp] theorem issue_dispBuf (c : BusCmd) (s : State) : (issue c s).dispBuf = s.dispBuf := rfl
@[simp] theorem issue_lowpower (c : BusCmd) (s : State) : (issue c s).lowpower = s.lowpower := rfl
@[simp] theorem issue_outTrace (c : BusCmd) (s : State) : (issue c s).outTrace = s.outTrace := rfl
@[simp] theorem issue_cfg (c : BusCmd) (s : State) : (issue c s).cfg = s.cfg := rfl
@[simp] theorem issue_ctl (c : BusCmd) (s : State) : (issue c s).ctl = s.ctl := rfl
@[simp] theorem issue_result (c : BusCmd) (s : State) : (issue c s).result = s.result := rfl
@[simp] theorem issue_cmds (c : BusCmd) (s : State) : (issue c s).cmds = s.cmds := rfl
@[simp] theorem issue_events (c : BusCmd) (s : State) : (issue c s).events = s.events := rfl
@[simp] theorem issue_sched (c : BusCmd) (s : State) : (issue c s).sched = s.sched := rfl

/-! ### initEngine -/

@[simp] theorem initEngine_enabled (s : State) : (initEngine s).enabled = true := rfl
@[simp] theorem initEngine_owner (s : State) : (initEngine s).owner = false := rfl
@[simp] theorem initEngine_flagTc (s : State) : (initEngine s).flagTc = false := rfl
@[simp] theorem initEngine_flagBerr (s : State) : (initEngine s).flagBerr = false := rfl
@[simp] theorem initEngine_flagArb (s : State) : (initEngine s).flagArb = false := rfl
@[simp] theorem initEngine_flagNack (s : State) : (initEngine s).flagNack = false := rfl
@[simp] theorem initEngine_ackPolicy (s : State) : (initEngine s).ackPolicy = .nack := rfl
@[simp] theorem initEngine_data (s : State) : (initEngine s).data = s.data := rfl
@[simp] theorem initEngine_toCount (s : State) : (initEngine s).toCount = s.toCount := rfl
@[simp] theorem initEngine_pending (s : State) : (initEngine s).pending = .none := rfl
@[simp] theorem initEngine_busTrace (s : State) : (initEngine s).busTrace = s.busTrace ++ [.init] := rfl
@[simp] theorem initEngine_afIndex (s : State) : (initEngine s).afIndex = s.afIndex := rfl
@[simp] theorem initEngine_pwmCompare (s : State) : (initEngine s).pwmCompare = s.pwmCompare := rfl
@[simp] theorem initEngine_afEnable (s : State) : (initEngine s).afEnable = s.afEnable := rfl
@[simp] theorem initEngine_cdCounter (s : State) : (initEngine s).cdCounter = s.cdCounter := rfl
@[simp] theorem initEngine_rollover (s : State) : (initEngine s).rollover = s.rollover := rfl
@[simp] theorem initEngine_blinkPhase (s : State) : (initEngine s).blinkPhase = s.blinkPhase := rfl
@[simp] theorem initEngine_pirHigh (s : State) : (initEngine s).pirHigh = s.pirHigh := rfl
@[simp] theorem initEngine_pirLow (s : State) : (initEngine s).pirLow = s.pirLow := rfl
@[simp] theorem initEngine_cdtIe (s : State) : (initEngine s).cdtIe = s.cdtIe := rfl
@[simp] theorem initEngine_wakeIe (s : State) : (initEngine s).wakeIe = s.wakeIe := rfl
@[simp] theorem initEngine_led (s : State) : (initEngine s).led = s.led := rfl
@[simp] theorem initEngine_boardState (s : State) : (initEngine s).boardState = s.boardState := rfl
@[simp] theorem initEngine_safeIdx (s : State) : (initEngine s).safeIdx = s.safeIdx := rfl
@[simp] theorem initEngine_inputs (s : State) : (initEngine s).inputs = s.inputs := rfl
@[simp] theorem initEngine_dispBuf (s : State) : (initEngine s).dispBuf = s.dispBuf := rfl
@[simp] theorem initEngine_lowpower (s : State) : (initEngine s).lowpower = s.lowpower := rfl
@[simp] theorem initEngine_outTrace (s : State) : (initEngine s).outTrace = s.outTrace := rfl
@[simp] theorem initEngine_cfg (s : State) : (initEngine s).cfg = s.cfg := rfl
@[simp] theorem initEngine_ctl (s : State) : (initEngine s).ctl = s.ctl := rfl
@[simp] theorem initEngine_result (s : State) : (initEngine s).result = s.result := rfl
@[simp] theorem initEngine_cmds (s : State) : (initEngine s).cmds = s.cmds := rfl
@[simp] theorem initEngine_events (s : State) : (initEngine s).events = s.events := rfl
@[simp] theorem initEngine_sched (s : State) : (initEngine s).sched = s.sched := rfl

/-! ### stopEngine -/

@[simp] theorem stopEngine_enabled (s : State) : (stopEngine s).enabled = s.enabled := rfl
@[simp] theorem stopEngine_owner (s : State) : (stopEngine s).owner = false := rfl
@[simp] theorem stopEngine_flagTc (s : State) : (stopEngine s).flagTc = s.flagTc := rfl
@[simp] theorem stopEngine_flagBerr (s : State) : (stopEngine s).flagBerr = s.flagBerr := rfl
@[simp] theorem stopEngine_flagArb (s : State) : (stopEngine s).flagArb = s.flagArb := rfl
@[simp] theorem stopEngine_flagNack (s : State) : (stopEngine s).flagNack = s.flagNack := rfl
@[simp] theorem stopEngine_ackPolicy (s : State) : (stopEngine s).ackPolicy = s.ackPolicy := rfl
@[simp] theorem stopEngine_data (s : State) : (stopEngine s).data = s.data := rfl
@[simp] theorem stopEngine_toCount (s : State) : (stopEngine s).toCount = s.toCount := rfl
@[simp] theorem stopEngine_pending (s : State) : (stopEngine s).pending = .none := rfl
@[simp] theorem stopEngine_busTrace (s : State) : (stopEngine s).busTrace = s.busTrace ++ [.stop] := rfl
@[simp] theorem stopEngine_afIndex (s : State) : (stopEngine s).afIndex = s.afIndex := rfl
@[simp] theorem stopEngine_pwmCompare (s : State) : (stopEngine s).pwmCompare = s.pwmCompare := rfl
@[simp] theorem stopEngine_afEnable (s : State) : (stopEngine s).afEnable = s.afEnable := rfl
@[simp] theorem stopEngine_cdCounter (s : State) : (stopEngine s).cdCounter = s.cdCounter := rfl
@[simp] theorem stopEngine_rollover (s : State) : (stopEngine s).rollover = s.rollover := rfl
@[simp] theorem stopEngine_blinkPhase (s : State) : (stopEngine s).blinkPhase = s.blinkPhase := rfl
@[simp] theorem stopEngine_pirHigh (s : State) : (stopEngine s).pirHigh = s.pirHigh := rfl
@[simp] theorem stopEngine_pirLow (s : State) : (stopEngine s).pirLow = s.pirLow := rfl
@[simp] theorem stopEngine_cdtIe (s : State) : (stopEngine s).cdtIe = s.cdtIe := rfl
@[simp] theorem stopEngine_wakeIe (s : State) : (stopEngine s).wakeIe = s.wakeIe := rfl
@[simp] theorem stopEngine_led (s : State) : (stopEngine s).led = s.led := rfl
@[simp] theorem stopEngine_boardState (s : State) : (stopEngine s).boardState = s.boardState := rfl
@[simp] theorem stopEngine_safeIdx (s : State) : (stopEngine s).safeIdx = s.safeIdx := rfl
@[simp] theorem stopEngine_inputs (s : State) : (stopEngine s).inputs = s.inputs := rfl
@[simp] theorem stopEngine_dispBuf (s : State) : (stopEngine s).dispBuf = s.dispBuf := rfl
@[simp] theorem stopEngine_lowpower (s : State) : (stopEngine s).lowpower = s.lowpower := rfl
@[simp] theorem stopEngine_outTrace (s : State) : (stopEngine s).outTrace = s.outTrace := rfl
@[simp] theorem stopEngine_cfg (s : State) : (stopEngine s).cfg = s.cfg := rfl
@[simp] theorem stopEngine_ctl (s : State) : (stopEngine s).ctl = s.ctl := rfl
@[simp] theorem stopEngine_result (s : State) : (stopEngine s).result = s.result := rfl
@[simp] theorem stopEngine_cmds (s : State) : (stopEngine s).cmds = s.cmds := rfl
@[simp] theorem stopEngine_events (s : State) : (stopEngine s).events = s.events := rfl
@[simp] theorem stopEngine_sched (s : State) : (stopEngine s).sched = s.sched := rfl

/-! ### clearPriorFlags -/

@[simp] theorem clearPriorFlags_enabled (s : State) : (clearPriorFlags s).enabled = s.enabled := rfl
@[simp] theorem clearPriorFlags_owner (s : State) : (clearPriorFlags s).owner = s.owner := rfl
@[simp] theorem clearPriorFlags_flagTc (s : State) : (clearPriorFlags s).flagTc = false := rfl
@[simp] theorem clearPriorFlags_flagBerr (s : State) : (clearPriorFlags s).flagBerr = s.flagBerr := rfl
@[simp] theorem clearPriorFlags_flagArb (s : State) : (clearPriorFlags s).flagArb = false := rfl
@[simp] theorem clearPriorFlags_flagNack (s : State) : (clearPriorFlags s).flagNack = false := rfl
@[simp] theorem clearPriorFlags_ackPolicy (s : State) : (clearPriorFlags s).ackPolicy = s.ackPolicy := rfl
@[simp] theorem clearPriorFlags_data (s : State) : (clearPriorFlags s).data = s.data := rfl
@[simp] theorem clearPriorFlags_toCount (s : State) : (clearPriorFlags s).toCount = s.toCount := rfl
@[simp] theorem clearPriorFlags_pending (s : State) : (clearPriorFlags s).pending = s.pending := rfl
@[simp] theorem clearPriorFlags_busTrace (s : State) : (clearPriorFlags s).busTrace = s.busTrace := rfl
@[simp] theorem clearPriorFlags_afIndex (s : State) : (clearPriorFlags s).afIndex = s.afIndex := rfl
@[simp] theorem clearPriorFlags_pwmCompare (s : State) : (clearPriorFlags s).pwmCompare = s.pwmCompare := rfl
@[simp] theorem clearPriorFlags_afEnable (s : State) : (clearPriorFlags s).afEnable = s.afEnable := rfl
@[simp] theorem clearPriorFlags_cdCounter (s : State) : (clearPriorFlags s).cdCounter = s.cdCounter := rfl
@[simp] theorem clearPriorFlags_rollover (s : State) : (clearPriorFlags s).rollover = s.rollover := rfl
@[simp] theorem clearPriorFlags_blinkPhase (s : State) : (clearPriorFlags s).blinkPhase = s.blinkPhase := rfl
@[simp] theorem clearPriorFlags_pirHigh (s : State) : (clearPriorFlags s).pirHigh = s.pirHigh := rfl
@[simp] theorem clearPriorFlags_pirLow (s : State) : (clearPriorFlags s).pirLow = s.pirLow := rfl
@[simp] theorem clearPriorFlags_cdtIe (s : State) : (clearPriorFlags s).cdtIe = s.cdtIe := rfl
@[simp] theorem clearPriorFlags_wakeIe (s : State) : (clearPriorFlags s).wakeIe = s.wakeIe := rfl
@[simp] theorem clearPriorFlags_led (s : State) : (clearPriorFlags s).led = s.led := rfl
@[simp] theorem clearPriorFlags_boardState (s : State) : (clearPriorFlags s).boardState = s.boardState := rfl
@[simp] theorem clearPriorFlags_safeIdx (s : State) : (clearPriorFlags s).safeIdx = s.safeIdx := rfl
@[simp] theorem clearPriorFlags_inputs (s : State) : (clearPriorFlags s).inputs = s.inputs := rfl
@[simp] theorem clearPriorFlags_dispBuf (s : State) : (clearPriorFlags s).dispBuf = s.dispBuf := rfl
@[simp] theorem clearPriorFlags_lowpower (s : State) : (clearPriorFlags s).lowpower = s.lowpower := rfl
@[simp] theorem clearPriorFlags_outTrace (s : State) : (clearPriorFlags s).outTrace = s.outTrace := rfl
@[simp] theorem clearPriorFlags_cfg (s : State) : (clearPriorFlags s).cfg = s.cfg := rfl
@[simp] theorem clearPriorFlags_ctl (s : State) : (clearPriorFlags s).ctl = s.ctl := rfl
@[simp] theorem clearPriorFlags_result (s : State) : (clearPriorFlags s).result = s.result := rfl
@[simp] theorem clearPriorFlags_cmds (s : State) : (clearPriorFlags s).cmds = s.cmds := rfl
@[simp] theorem clearPriorFlags_events (s : State) : (clearPriorFlags s).events = s.events := rfl
@[simp] theorem clearPriorFlags_sched (s : State) : (clearPriorFlags s).sched = s.sched := rfl

/-! ### loadData -/

@[simp] theorem loadData_enabled (b : Byte) (s : State) : (loadData b s).enabled = s.enabled := rfl
@[simp] theorem loadData_owner (b : Byte) (s : State) : (loadData b s).owner = s.owner := rfl
@[simp] theorem loadData_flagTc (b : Byte) (s : State) : (loadData b s).flagTc = s.flagTc := rfl
@[simp] theorem loadData_flagBerr (b : Byte) (s : State) : (loadData b s).flagBerr = s.flagBerr := rfl
@[simp] theorem loadData_flagArb (b : Byte) (s : State) : (loadData b s).flagArb = s.flagArb := rfl
@[simp] theorem loadData_flagNack (b : Byte) (s : State) : (loadData b s).flagNack = s.flagNack := rfl
@[simp] theorem loadData_ackPolicy (b : Byte) (s : State) : (loadData b s).ackPolicy = s.ackPolicy := rfl
@[simp] theorem loadData_data (b : Byte) (s : State) : (loadData b s).data = b := rfl
@[simp] theorem loadData_toCount (b : Byte) (s : State) : (loadData b s).toCount = s.toCount := rfl
@[simp] theorem loadData_pending (b : Byte) (s : State) : (loadData b s).pending = s.pending := rfl
@[simp] theorem loadData_busTrace (b : Byte) (s : State) : (loadData b s).busTrace = s.busTrace := rfl
@[simp] theorem loadData_afIndex (b : Byte) (s : State) : (loadData b s).afIndex = s.afIndex := rfl
@[simp] theorem loadData_pwmCompare (b : Byte) (s : State) : (loadData b s).pwmCompare = s.pwmCompare := rfl
@[simp] theorem loadData_afEnable (b : Byte) (s : State) : (loadData b s).afEnable = s.afEnable := rfl
@[simp] theorem loadData_cdCounter (b : Byte) (s : State) : (loadData b s).cdCounter = s.cdCounter := rfl
@[simp] theorem loadData_rollover (b : Byte) (s : State) : (loadData b s).rollover = s.rollover := rfl
@[simp] theorem loadData_blinkPhase (b : Byte) (s : State) : (loadData b s).blinkPhase = s.blinkPhase := rfl
@[simp] theorem loadData_pirHigh (b : Byte) (s : State) : (loadData b s).pirHigh = s.pirHigh := rfl
@[simp] theorem loadData_pirLow (b : Byte) (s : State) : (loadData b s).pirLow = s.pirLow := rfl
@[simp] theorem loadData_cdtIe (b : Byte) (s : State) : (loadData b s).cdtIe = s.cdtIe := rfl
@[simp] theorem loadData_wakeIe (b : Byte) (s : State) : (loadData b s).wakeIe = s.wakeIe := rfl
@[simp] theorem loadData_led (b : Byte) (s : State) : (loadData b s).led = s.led := rfl
@[simp] theorem loadData_boardState (b : Byte) (s : State) : (loadData b s).boardState = s.boardState := rfl
@[simp] theorem loadData_safeIdx (b : Byte) (s : State) : (loadData b s).safeIdx = s.safeIdx := rfl
@[simp] theorem loadData_inputs (b : Byte) (s : State) : (loadData b s).inputs = s.inputs := rfl
@[simp] theorem loadData_dispBuf (b : Byte) (s : State) : (loadData b s).dispBuf = s.dispBuf := rfl
@[simp] theorem loadData_lowpower (b : Byte) (s : State) : (loadData b s).lowpower = s.lowpower := rfl
@[simp] theorem loadData_outTrace (b : Byte) (s : State) : (loadData b s).outTrace = s.outTrace := rfl
@[simp] theorem loadData_cfg (b : Byte) (s : State) : (loadData b s).cfg = s.cfg := rfl
@[simp] theorem loadData_ctl (b : Byte) (s : State) : (loadData b s).ctl = s.ctl := rfl
@[simp] theorem loadData_result (b : Byte) (s : State) : (loadData b s).result = s.result := rfl
@[simp] theorem loadData_cmds (b : Byte) (s : State) : (loadData b s).cmds = s.cmds := rfl
@[simp] theorem loadData_events (b : Byte) (s : State) : (loadData b s).events = s.events := rfl
@[simp] theorem loadData_sched (b : Byte) (s : State) : (loadData b s).sched = s.sched := rfl

/-! ### takeBus -/

@[simp] theorem takeBus_enabled (s : State) : (takeBus s).enabled = s.enabled := rfl
@[simp] theorem takeBus_owner (s : State) : (takeBus s).owner = true := rfl
@[simp] theorem takeBus_flagTc (s : State) : (takeBus s).flagTc = s.flagTc := rfl
@[simp] theorem takeBus_flagBerr (s : State) : (takeBus s).flagBerr = s.flagBerr := rfl
@[simp] theorem takeBus_flagArb (s : State) : (takeBus s).flagArb = s.flagArb := rfl
@[simp] theorem takeBus_flagNack (s : State) : (takeBus s).flagNack = s.flagNack := rfl
@[simp] theorem takeBus_ackPolicy (s : State) : (takeBus s).ackPolicy = s.ackPolicy := rfl
@[simp] theorem takeBus_data (s : State) : (takeBus s).data = s.data := rfl
@[simp] theorem takeBus_toCount (s : State) : (takeBus s).toCount = s.toCount := rfl
@[simp] theorem takeBus_pending (s : State) : (takeBus s).pending = s.pending := rfl
@[simp] theorem takeBus_busTrace (s : State) : (takeBus s).busTrace = s.busTrace := rfl
@[simp] theorem takeBus_afIndex (s : State) : (takeBus s).afIndex = s.afIndex := rfl
@[simp] theorem takeBus_pwmCompare (s : State) : (takeBus s).pwmCompare = s.pwmCompare := rfl
@[simp] theorem takeBus_afEnable (s : State) : (takeBus s).afEnable = s.afEnable := rfl
@[simp] theorem takeBus_cdCounter (s : State) : (takeBus s).cdCounter = s.cdCounter := rfl
@[simp] theorem takeBus_rollover (s : State) : (takeBus s).rollover = s.rollover := rfl
@[simp] theorem takeBus_blinkPhase (s : State) : (takeBus s).blinkPhase = s.blinkPhase := rfl
@[simp] theorem takeBus_pirHigh (s : State) : (takeBus s).pirHigh = s.pirHigh := rfl
@[simp] theorem takeBus_pirLow (s : State) : (takeBus s).pirLow = s.pirLow := rfl
@[simp] theorem takeBus_cdtIe (s : State) : (takeBus s).cdtIe = s.cdtIe := rfl
@[simp] theorem takeBus_wakeIe (s : State) : (takeBus s).wakeIe = s.wakeIe := rfl
@[simp] theorem takeBus_led (s : State) : (takeBus s).led = s.led := rfl
@[simp] theorem takeBus_boardState (s : State) : (takeBus s).boardState = s.boardState := rfl
@[simp] theorem takeBus_safeIdx (s : State) : (takeBus s).safeIdx = s.safeIdx := rfl
@[simp] theorem takeBus_inputs (s : State) : (takeBus s).inputs = s.inputs := rfl
@[simp] theorem takeBus_dispBuf (s : State) : (takeBus s).dispBuf = s.dispBuf := rfl
@[simp] theorem takeBus_lowpower (s : State) : (takeBus s).lowpower = s.lowpower := rfl
@[simp] theorem takeBus_outTrace (s : State) : (takeBus s).outTrace = s.outTrace := rfl
@[simp] theorem takeBus_cfg (s : State) : (takeBus s).cfg = s.cfg := rfl
@[simp] theorem takeBus_ctl (s : State) : (takeBus s).ctl = s.ctl := rfl
@[simp] theorem takeBus_result (s : State) : (takeBus s).result = s.result := rfl
@[simp] theorem takeBus_cmds (s : State) : (takeBus s).cmds = s.cmds := rfl
@[simp] theorem takeBus_events (s : State) : (takeBus s).events = s.events := rfl
@[simp] theorem takeBus_sched (s : State) : (takeBus s).sched = s.sched := rfl

/-! ### latchPolicy -/

@[simp] theorem latchPolicy_enabled (p : AckPolicy) (s : State) : (latchPolicy p s).enabled = s.enabled := rfl
@[simp] theorem latchPolicy_owner (p : AckPolicy) (s : State) : (latchPolicy p s).owner = s.owner := rfl
@[simp] theorem latchPolicy_flagTc (p : AckPolicy) (s : State) : (latchPolicy p s).flagTc = s.flagTc := rfl
@[simp] theorem latchPolicy_flagBerr (p : AckPolicy) (s : State) : (latchPolicy p s).flagBerr = s.flagBerr := rfl
@[simp] theorem latchPolicy_flagArb (p : AckPolicy) (s : State) : (latchPolicy p s).flagArb = s.flagArb := rfl
@[simp] theorem latchPolicy_flagNack (p : AckPolicy) (s : State) : (latchPolicy p s).flagNack = s.flagNack := rfl
@[simp] theorem latchPolicy_ackPolicy (p : AckPolicy) (s : State) : (latchPolicy p s).ackPolicy = p := rfl
@[simp] theorem latchPolicy_data (p : AckPolicy) (s : State) : (latchPolicy p s).data = s.data := rfl
@[simp] theorem latchPolicy_toCount (p : AckPolicy) (s : State) : (latchPolicy p s).toCount = s.toCount := rfl
@[simp] theorem latchPolicy_pending (p : AckPolicy) (s : State) : (latchPolicy p s).pending = s.pending := rfl
@[simp] theorem latchPolicy_busTrace (p : AckPolicy) (s : State) : (latchPolicy p s).busTrace = s.busTrace := rfl
@[simp] theorem latchPolicy_afIndex (p : AckPolicy) (s : State) : (latchPolicy p s).afIndex = s.afIndex := rfl
@[simp] theorem latchPolicy_pwmCompare (p : AckPolicy) (s : State) :
    (latchPolicy p s).pwmCompare = s.pwmCompare := rfl
@[simp] theorem latchPolicy_afEnable (p : AckPolicy) (s : State) : (latchPolicy p s).afEnable = s.afEnable := rfl
@[simp] theorem latchPolicy_cdCounter (p : AckPolicy) (s : State) : (latchPolicy p s).cdCounter = s.cdCounter := rfl
@[simp] theorem latchPolicy_rollover (p : AckPolicy) (s : State) : (latchPolicy p s).rollover = s.rollover := rfl
@[simp] theorem latchPolicy_blinkPhase (p : AckPolicy) (s : State) :
    (latchPolicy p s).blinkPhase = s.blinkPhase := rfl
@[simp] theorem latchPolicy_pirHigh (p : AckPolicy) (s : State) : (latchPolicy p s).pirHigh = s.pirHigh := rfl
@[simp] theorem latchPolicy_pirLow (p : AckPolicy) (s : State) : (latchPolicy p s).pirLow = s.pirLow := rfl
@[simp] theorem latchPolicy_cdtIe (p : AckPolicy) (s : State) : (latchPolicy p s).cdtIe = s.cdtIe := rfl
@[simp] theorem latchPolicy_wakeIe (p : AckPolicy) (s : State) : (latchPolicy p s).wakeIe = s.wakeIe := rfl
@[simp] theorem latchPolicy_led (p : AckPolicy) (s : State) : (latchPolicy p s).led = s.led := rfl
@[simp] theorem latchPolicy_boardState (p : AckPolicy) (s : State) :
    (latchPolicy p s).boardState = s.boardState := rfl
@[simp] theorem latchPolicy_safeIdx (p : AckPolicy) (s : State) : (latchPolicy p s).safeIdx = s.safeIdx := rfl
@[simp] theorem latchPolicy_inputs (p : AckPolicy) (s : State) : (latchPolicy p s).inputs = s.inputs := rfl
@[simp] theorem latchPolicy_dispBuf (p : AckPolicy) (s : State) : (latchPolicy p s).dispBuf = s.dispBuf := rfl
@[simp] theorem latchPolicy_lowpower (p : AckPolicy) (s : State) : (latchPolicy p s).lowpower = s.lowpower := rfl
@[simp] theorem latchPolicy_outTrace (p : AckPolicy) (s : State) : (latchPolicy p s).outTrace = s.outTrace := rfl
@[simp] theorem latchPolicy_cfg (p : AckPolicy) (s : State) : (latchPolicy p s).cfg = s.cfg := rfl
@[simp] theorem latchPolicy_ctl (p : AckPolicy) (s : State) : (latchPolicy p s).ctl = s.ctl := rfl
@[simp] theorem latchPolicy_result (p : AckPolicy) (s : State) : (latchPolicy p s).result = s.result := rfl
@[simp] theorem latchPolicy_cmds (p : AckPolicy) (s : State) : (latchPolicy p s).cmds = s.cmds := rfl
@[simp] theorem latchPolicy_events (p : AckPolicy) (s : State) : (latchPolicy p s).events = s.events := rfl
@[simp] theorem latchPolicy_sched (p : AckPolicy) (s : State) : (latchPolicy p s).sched = s.sched := rfl

/-! ### openWait -/

@[simp] theorem openWait_enabled (b : Counter) (w : Waiter) (s : State) : (openWait b w s).enabled = s.enabled := rfl
@[simp] theorem openWait_owner (b : Counter) (w : Waiter) (s : State) : (openWait b w s).owner = s.owner := rfl
@[simp] theorem openWait_flagTc (b : Counter) (w : Waiter) (s : State) : (openWait b w s).flagTc = s.flagTc := rfl
@[simp] theorem openWait_flagBerr (b : Counter) (w : Waiter) (s : State) :
    (openWait b w s).flagBerr = s.flagBerr := rfl
@[simp] theorem openWait_flagArb (b : Counter) (w : Waiter) (s : State) : (openWait b w s).flagArb = s.flagArb := rfl
@[simp] theorem openWait_flagNack (b : Counter) (w : Waiter) (s : State) :
    (openWait b w s).flagNack = s.flagNack := rfl
@[simp] theorem openWait_ackPolicy (b : Counter) (w : Waiter) (s : State) :
    (openWait b w s).ackPolicy = s.ackPolicy := rfl
@[simp] theorem openWait_data (b : Counter) (w : Waiter) (s : State) : (openWait b w s).data = s.data := rfl
@[simp] theorem openWait_toCount (b : Counter) (w : Waiter) (s : State) : (openWait b w s).toCount = 0 := rfl
@[simp] theorem openWait_pending (b : Counter) (w : Waiter) (s : State) : (openWait b w s).pending = s.pending := rfl
@[simp] theorem openWait_busTrace (b : Counter) (w : Waiter) (s : State) :
    (openWait b w s).busTrace = s.busTrace := rfl
@[simp] theorem openWait_afIndex (b : Counter) (w : Waiter) (s : State) : (openWait b w s).afIndex = s.afIndex := rfl
@[simp] theorem openWait_pwmCompare (b : Counter) (w : Waiter) (s : State) :
    (openWait b w s).pwmCompare = s.pwmCompare := rfl
@[simp] theorem openWait_afEnable (b : Counter) (w : Waiter) (s : State) :
    (openWait b w s).afEnable = s.afEnable := rfl
@[simp] theorem openWait_cdCounter (b : Counter) (w : Waiter) (s : State) :
    (openWait b w s).cdCounter = s.cdCounter := rfl
@[simp] theorem openWait_rollover (b : Counter) (w : Waiter) (s : State) :
    (openWait b w s).rollover = s.rollover := rfl
@[simp] theorem openWait_blinkPhase (b : Counter) (w : Waiter) (s : State) :
    (openWait b w s).blinkPhase = s.blinkPhase := rfl
@[simp] theorem openWait_pirHigh (b : Counter) (w : Waiter) (s : State) : (openWait b w s).pirHigh = s.pirHigh := rfl
@[simp] theorem openWait_pirLow (b : Counter) (w : Waiter) (s : State) : (openWait b w s).pirLow = s.pirLow := rfl
@[simp] theorem openWait_cdtIe (b : Counter) (w : Waiter) (s : State) : (openWait b w s).cdtIe = s.cdtIe := rfl
@[simp] theorem openWait_wakeIe (b : Counter) (w : Waiter) (s : State) : (openWait b w s).wakeIe = s.wakeIe := rfl
@[simp] theorem openWait_led (b : Counter) (w : Waiter) (s : State) : (openWait b w s).led = s.led := rfl
@[simp] theorem openWait_boardState (b : Counter) (w : Waiter) (s : State) :
    (openWait b w s).boardState = s.boardState := rfl
@[simp] theorem openWait_safeIdx (b : Counter) (w : Waiter) (s : State) : (openWait b w s).safeIdx = s.safeIdx := rfl
@[simp] theorem openWait_inputs (b : Counter) (w : Waiter) (s : State) : (openWait b w s).inputs = s.inputs := rfl
@[simp] theorem openWait_dispBuf (b : Counter) (w : Waiter) (s : State) : (openWait b w s).dispBuf = s.dispBuf := rfl
@[simp] theorem openWait_lowpower (b : Counter) (w : Waiter) (s : State) :
    (openWait b w s).lowpower = s.lowpower := rfl
@[simp] theorem openWait_outTrace (b : Counter) (w : Waiter) (s : State) :
    (openWait b w s).outTrace = s.outTrace := rfl
@[simp] theorem openWait_cfg (b : Counter) (w : Waiter) (s : State) : (openWait b w s).cfg = s.cfg := rfl
@[simp] theorem openWait_ctl (b : Counter) (w : Waiter) (s : State) : (openWait b w s).ctl = .wait b w := rfl
@[simp] theorem openWait_result (b : Counter) (w : Waiter) (s : State) : (openWait b w s).result = s.result := rfl
@[simp] theorem openWait_cmds (b : Counter) (w : Waiter) (s : State) : (openWait b w s).cmds = s.cmds := rfl
@[simp] theorem openWait_events (b : Counter) (w : Waiter) (s : State) : (openWait b w s).events = s.events := rfl
@[simp] theorem openWait_sched (b : Counter) (w : Waiter) (s : State) : (openWait b w s).sched = s.sched := rfl

/-! ### closeWait -/

@[simp] theorem closeWait_enabled (r : Code) (s : State) : (closeWait r s).enabled = s.enabled := rfl
@[simp] theorem closeWait_owner (r : Code) (s : State) :
    (closeWait r s).owner = if r = .arbLost then false else s.owner := rfl
@[simp] theorem closeWait_flagTc (r : Code) (s : State) : (closeWait r s).flagTc = s.flagTc := rfl
@[simp] theorem closeWait_flagBerr (r : Code) (s : State) : (closeWait r s).flagBerr = s.flagBerr := rfl
@[simp] theorem closeWait_flagArb (r : Code) (s : State) : (closeWait r s).flagArb = s.flagArb := rfl
@[simp] theorem closeWait_flagNack (r : Code) (s : State) : (closeWait r s).flagNack = s.flagNack := rfl
@[simp] theorem closeWait_ackPolicy (r : Code) (s : State) : (closeWait r s).ackPolicy = s.ackPolicy := rfl
@[simp] theorem closeWait_data (r : Code) (s : State) : (closeWait r s).data = s.data := rfl
@[simp] theorem closeWait_toCount (r : Code) (s : State) : (closeWait r s).toCount = s.toCount := rfl
@[simp] theorem closeWait_pending (r : Code) (s : State) : (closeWait r s).pending = .none := rfl
@[simp] theorem closeWait_busTrace (r : Code) (s : State) : (closeWait r s).busTrace = s.busTrace := rfl
@[simp] theorem closeWait_afIndex (r : Code) (s : State) : (closeWait r s).afIndex = s.afIndex := rfl
@[simp] theorem closeWait_pwmCompare (r : Code) (s : State) : (closeWait r s).pwmCompare = s.pwmCompare := rfl
@[simp] theorem closeWait_afEnable (r : Code) (s : State) : (closeWait r s).afEnable = s.afEnable := rfl
@[simp] theorem closeWait_cdCounter (r : Code) (s : State) : (closeWait r s).cdCounter = s.cdCounter := rfl
@[simp] theorem closeWait_rollover (r : Code) (s : State) : (closeWait r s).rollover = s.rollover := rfl
@[simp] theorem closeWait_blinkPhase (r : Code) (s : State) : (closeWait r s).blinkPhase = s.blinkPhase := rfl
@[simp] theorem closeWait_pirHigh (r : Code) (s : State) : (closeWait r s).pirHigh = s.pirHigh := rfl
@[simp] theorem closeWait_pirLow (r : Code) (s : State) : (closeWait r s).pirLow = s.pirLow := rfl
@[simp] theorem closeWait_cdtIe (r : Code) (s : State) : (closeWait r s).cdtIe = s.cdtIe := rfl
@[simp] theorem closeWait_wakeIe (r : Code) (s : State) : (closeWait r s).wakeIe = s.wakeIe := rfl
@[simp] theorem closeWait_led (r : Code) (s : State) : (closeWait r s).led = s.led := rfl
@[simp] theorem closeWait_boardState (r : Code) (s : State) : (closeWait r s).boardState = s.boardState := rfl
@[simp] theorem closeWait_safeIdx (r : Code) (s : State) : (closeWait r s).safeIdx = s.safeIdx := rfl
@[simp] theorem closeWait_inputs (r : Code) (s : State) : (closeWait r s).inputs = s.inputs := rfl
@[simp] theorem closeWait_dispBuf (r : Code) (s : State) : (closeWait r s).dispBuf = s.dispBuf := rfl
@[simp] theorem closeWait_lowpower (r : Code) (s : State) : (closeWait r s).lowpower = s.lowpower := rfl
@[simp] theorem closeWait_outTrace (r : Code) (s : State) : (closeWait r s).outTrace = s.outTrace := rfl
@[simp] theorem closeWait_cfg (r : Code) (s : State) : (closeWait r s).cfg = s.cfg := rfl
@[simp] theorem closeWait_ctl (r : Code) (s : State) : (closeWait r s).ctl = s.ctl := rfl
@[simp] theorem closeWait_result (r : Code) (s : State) : (closeWait r s).result = s.result := rfl
@[simp] theorem closeWait_cmds (r : Code) (s : State) : (closeWait r s).cmds = s.cmds := rfl
@[simp] theorem closeWait_events (r : Code) (s : State) : (closeWait r s).events = s.events := rfl
@[simp] theorem closeWait_sched (r : Code) (s : State) : (closeWait r s).sched = s.sched := rfl

/-! ### countTick -/

@[simp] theorem countTick_enabled (s : State) : (countTick s).enabled = s.enabled := rfl
@[simp] theorem countTick_owner (s : State) : (countTick s).owner = s.owner := rfl
@[simp] theorem countTick_flagTc (s : State) : (countTick s).flagTc = s.flagTc := rfl
@[simp] theorem countTick_flagBerr (s : State) : (countTick s).flagBerr = s.flagBerr := rfl
@[simp] theorem countTick_flagArb (s : State) : (countTick s).flagArb = s.flagArb := rfl
@[simp] theorem countTick_flagNack (s : State) : (countTick s).flagNack = s.flagNack := rfl
@[simp] theorem countTick_ackPolicy (s : State) : (countTick s).ackPolicy = s.ackPolicy := rfl
@[simp] theorem countTick_data (s : State) : (countTick s).data = s.data := rfl
@[simp] theorem countTick_toCount (s : State) : (countTick s).toCount = s.toCount + 1 := rfl
@[simp] theorem countTick_pending (s : State) : (countTick s).pending = s.pending := rfl
@[simp] theorem countTick_busTrace (s : State) : (countTick s).busTrace = s.busTrace := rfl
@[simp] theorem countTick_afIndex (s : State) : (countTick s).afIndex = s.afIndex := rfl
@[simp] theorem countTick_pwmCompare (s : State) : (countTick s).pwmCompare = s.pwmCompare := rfl
@[simp] theorem countTick_afEnable (s : State) : (countTick s).afEnable = s.afEnable := rfl
@[simp] theorem countTick_cdCounter (s : State) : (countTick s).cdCounter = s.cdCounter := rfl
@[simp] theorem countTick_rollover (s : State) : (countTick s).rollover = s.rollover := rfl
@[simp] theorem countTick_blinkPhase (s : State) : (countTick s).blinkPhase = s.blinkPhase := rfl
@[simp] theorem countTick_pirHigh (s : State) : (countTick s).pirHigh = s.pirHigh := rfl
@[simp] theorem countTick_pirLow (s : State) : (countTick s).pirLow = s.pirLow := rfl
@[simp] theorem countTick_cdtIe (s : State) : (countTick s).cdtIe = s.cdtIe := rfl
@[simp] theorem countTick_wakeIe (s : State) : (countTick s).wakeIe = s.wakeIe := rfl
@[simp] theorem countTick_led (s : State) : (countTick s).led = s.led := rfl
@[simp] theorem countTick_boardState (s : State) : (countTick s).boardState = s.boardState := rfl
@[simp] theorem countTick_safeIdx (s : State) : (countTick s).safeIdx = s.safeIdx := rfl
@[simp] theorem countTick_inputs (s : State) : (countTick s).inputs = s.inputs := rfl
@[simp] theorem countTick_dispBuf (s : State) : (countTick s).dispBuf = s.dispBuf := rfl
@[simp] theorem countTick_lowpower (s : State) : (countTick s).lowpower = s.lowpower := rfl
@[simp] theorem countTick_outTrace (s : State) : (countTick s).outTrace = s.outTrace := rfl
@[simp] theorem countTick_cfg (s : State) : (countTick s).cfg = s.cfg := rfl
@[simp] theorem countTick_ctl (s : State) : (countTick s).ctl = s.ctl := rfl
@[simp] theorem countTick_result (s : State) : (countTick s).result = s.result := rfl
@[simp] theorem countTick_cmds (s : State) : (countTick s).cmds = s.cmds := rfl
@[simp] theorem countTick_events (s : State) : (countTick s).events = s.events := rfl
@[simp] theorem countTick_sched (s : State) : (countTick s).sched = s.sched := rfl

/-! ### takeCompletion -/

@[simp] theorem takeCompletion_enabled (f : PeerFlags) (d : Byte) (s : State) :
    (takeCompletion f d s).enabled = s.enabled := rfl
@[simp] theorem takeCompletion_owner (f : PeerFlags) (d : Byte) (s : State) :
    (takeCompletion f d s).owner = s.owner := rfl
@[simp] theorem takeCompletion_flagTc (f : PeerFlags) (d : Byte) (s : State) :
    (takeCompletion f d s).flagTc = true := rfl
@[simp] theorem takeCompletion_flagBerr (f : PeerFlags) (d : Byte) (s : State) :
    (takeCompletion f d s).flagBerr = (s.flagBerr || f.berr) := rfl
@[simp] theorem takeCompletion_flagArb (f : PeerFlags) (d : Byte) (s : State) :
    (takeCompletion f d s).flagArb = f.arb := rfl
@[simp] theorem takeCompletion_flagNack (f : PeerFlags) (d : Byte) (s : State) :
    (takeCompletion f d s).flagNack = (f.nack && (s.pending == .addr || s.pending == .write)) := rfl
@[simp] theorem takeCompletion_ackPolicy (f : PeerFlags) (d : Byte) (s : State) :
    (takeCompletion f d s).ackPolicy = s.ackPolicy := rfl
@[simp] theorem takeCompletion_data (f : PeerFlags) (d : Byte) (s : State) :
    (takeCompletion f d s).data = if s.pending = .read then d else s.data := rfl
@[simp] theorem takeCompletion_toCount (f : PeerFlags) (d : Byte) (s : State) :
    (takeCompletion f d s).toCount = s.toCount := rfl
@[simp] theorem takeCompletion_pending (f : PeerFlags) (d : Byte) (s : State) :
    (takeCompletion f d s).pending = .none := rfl
@[simp] theorem takeCompletion_busTrace (f : PeerFlags) (d : Byte) (s : State) :
    (takeCompletion f d s).busTrace = s.busTrace ++ [.complete f d] := rfl
@[simp] theorem takeCompletion_afIndex (f : PeerFlags) (d : Byte) (s : State) :
    (takeCompletion f d s).afIndex = s.afIndex := rfl
@[simp] theorem takeCompletion_pwmCompare (f : PeerFlags) (d : Byte) (s : State) :
    (takeCompletion f d s).pwmCompare = s.pwmCompare := rfl
@[simp] theorem takeCompletion_afEnable (f : PeerFlags) (d : Byte) (s : State) :
    (takeCompletion f d s).afEnable = s.afEnable := rfl
@[simp] theorem takeCompletion_cdCounter (f : PeerFlags) (d : Byte) (s : State) :
    (takeCompletion f d s).cdCounter = s.cdCounter := rfl
@[simp] theorem takeCompletion_rollover (f : PeerFlags) (d : Byte) (s : State) :
    (takeCompletion f d s).rollover = s.rollover := rfl
@[simp] theorem takeCompletion_blinkPhase (f : PeerFlags) (d : Byte) (s : State) :
    (takeCompletion f d s).blinkPhase = s.blinkPhase := rfl
@[simp] theorem takeCompletion_pirHigh (f : PeerFlags) (d : Byte) (s : State) :
    (takeCompletion f d s).pirHigh = s.pirHigh := rfl
@[simp] theorem takeCompletion_pirLow (f : PeerFlags) (d : Byte) (s : State) :
    (takeCompletion f d s).pirLow = s.pirLow := rfl
@[simp] theorem takeCompletion_cdtIe (f : PeerFlags) (d : Byte) (s : State) :
    (takeCompletion f d s).cdtIe = s.cdtIe := rfl
@[simp] theorem takeCompletion_wakeIe (f : PeerFlags) (d : Byte) (s : State) :
    (takeCompletion f d s).wakeIe = s.wakeIe := rfl
@[simp] theorem takeCompletion_led (f : PeerFlags) (d : Byte) (s : State) : (takeCompletion f d s).led = s.led := rfl
@[simp] theorem takeCompletion_boardState (f : PeerFlags) (d : Byte) (s : State) :
    (takeCompletion f d s).boardState = s.boardState := rfl
@[simp] theorem takeCompletion_safeIdx (f : PeerFlags) (d : Byte) (s : State) :
    (takeCompletion f d s).safeIdx = s.safeIdx := rfl
@[simp] theorem takeCompletion_inputs (f : PeerFlags) (d : Byte) (s : State) :
    (takeCompletion f d s).inputs = s.inputs := rfl
@[simp] theorem takeCompletion_dispBuf (f : PeerFlags) (d : Byte) (s : State) :
    (takeCompletion f d s).dispBuf = s.dispBuf := rfl
@[simp] theorem takeCompletion_lowpower (f : PeerFlags) (d : Byte) (s : State) :
    (takeCompletion f d s).lowpower = s.lowpower := rfl
@[simp] theorem takeCompletion_outTrace (f : PeerFlags) (d : Byte) (s : State) :
    (takeCompletion f d s).outTrace = s.outTrace := rfl
@[simp] theorem takeCompletion_cfg (f : PeerFlags) (d : Byte) (s : State) : (takeCompletion f d s).cfg = s.cfg := rfl
@[simp] theorem takeCompletion_ctl (f : PeerFlags) (d : Byte) (s : State) : (takeCompletion f d s).ctl = s.ctl := rfl
@[simp] theorem takeCompletion_result (f : PeerFlags) (d : Byte) (s : State) :
    (takeCompletion f d s).result = s.result := rfl
@[simp] theorem takeCompletion_cmds (f : PeerFlags) (d : Byte) (s : State) :
    (takeCompletion f d s).cmds = s.cmds := rfl
@[simp] theorem takeCompletion_events (f : PeerFlags) (d : Byte) (s : State) :
    (takeCompletion f d s).events = s.events := rfl
@[simp] theorem takeCompletion_sched (f : PeerFlags) (d : Byte) (s : State) :
    (takeCompletion f d s).sched = s.sched := rfl

/-! ### putDigit -/

@[simp] theorem putDigit_enabled (i g : Byte) (s : State) : (putDigit i g s).enabled = s.enabled := rfl
@[simp] theorem putDigit_owner (i g : Byte) (s : State) : (putDigit i g s).owner = s.owner := rfl
@[simp] theorem putDigit_flagTc (i g : Byte) (s : State) : (putDigit i g s).flagTc = s.flagTc := rfl
@[simp] theorem putDigit_flagBerr (i g : Byte) (s : State) : (putDigit i g s).flagBerr = s.flagBerr := rfl
@[simp] theorem putDigit_flagArb (i g : Byte) (s : State) : (putDigit i g s).flagArb = s.flagArb := rfl
@[simp] theorem putDigit_flagNack (i g : Byte) (s : State) : (putDigit i g s).flagNack = s.flagNack := rfl
@[simp] theorem putDigit_ackPolicy (i g : Byte) (s : State) : (putDigit i g s).ackPolicy = s.ackPolicy := rfl
@[simp] theorem putDigit_data (i g : Byte) (s : State) : (putDigit i g s).data = s.data := rfl
@[simp] theorem putDigit_toCount (i g : Byte) (s : State) : (putDigit i g s).toCount = s.toCount := rfl
@[simp] theorem putDigit_pending (i g : Byte) (s : State) : (putDigit i g s).pending = s.pending := rfl
@[simp] theorem putDigit_busTrace (i g : Byte) (s : State) : (putDigit i g s).busTrace = s.busTrace := rfl
@[simp] theorem putDigit_afIndex (i g : Byte) (s : State) : (putDigit i g s).afIndex = s.afIndex := rfl
@[simp] theorem putDigit_pwmCompare (i g : Byte) (s : State) : (putDigit i g s).pwmCompare = s.pwmCompare := rfl
@[simp] theorem putDigit_afEnable (i g : Byte) (s : State) : (putDigit i g s).afEnable = s.afEnable := rfl
@[simp] theorem putDigit_cdCounter (i g : Byte) (s : State) : (putDigit i g s).cdCounter = s.cdCounter := rfl
@[simp] theorem putDigit_rollover (i g : Byte) (s : State) : (putDigit i g s).rollover = s.rollover := rfl
@[simp] theorem putDigit_blinkPhase (i g : Byte) (s : State) : (putDigit i g s).blinkPhase = s.blinkPhase := rfl
@[simp] theorem putDigit_pirHigh (i g : Byte) (s : State) : (putDigit i g s).pirHigh = s.pirHigh := rfl
@[simp] theorem putDigit_pirLow (i g : Byte) (s : State) : (putDigit i g s).pirLow = s.pirLow := rfl
@[simp] theorem putDigit_cdtIe (i g : Byte) (s : State) : (putDigit i g s).cdtIe = s.cdtIe := rfl
@[simp] theorem putDigit_wakeIe (i g : Byte) (s : State) : (putDigit i g s).wakeIe = s.wakeIe := rfl
@[simp] theorem putDigit_led (i g : Byte) (s : State) : (putDigit i g s).led = s.led := rfl
@[simp] theorem putDigit_boardState (i g : Byte) (s : State) : (putDigit i g s).boardState = s.boardState := rfl
@[simp] theorem putDigit_safeIdx (i g : Byte) (s : State) : (putDigit i g s).safeIdx = s.safeIdx := rfl
@[simp] theorem putDigit_inputs (i g : Byte) (s : State) : (putDigit i g s).inputs = s.inputs := rfl
@[simp] theorem putDigit_dispBuf (i g : Byte) (s : State) :
    (putDigit i g s).dispBuf = digitPut s.cfg i g s.dispBuf := rfl
@[simp] theorem putDigit_lowpower (i g : Byte) (s : State) : (putDigit i g s).lowpower = s.lowpower := rfl
@[simp] theorem putDigit_outTrace (i g : Byte) (s : State) : (putDigit i g s).outTrace = s.outTrace := rfl
@[simp] theorem putDigit_cfg (i g : Byte) (s : State) : (putDigit i g s).cfg = s.cfg := rfl
@[simp] theorem putDigit_ctl (i g : Byte) (s : State) : (putDigit i g s).ctl = s.ctl := rfl
@[simp] theorem putDigit_result (i g : Byte) (s : State) : (putDigit i g s).result = s.result := rfl
@[simp] theorem putDigit_cmds (i g : Byte) (s : State) : (putDigit i g s).cmds = s.cmds := rfl
@[simp] theorem putDigit_events (i g : Byte) (s : State) : (putDigit i g s).events = s.events := rfl
@[simp] theorem putDigit_sched (i g : Byte) (s : State) : (putDigit i g s).sched = s.sched := rfl

/-! ### countDown -/

@[simp] theorem countDown_enabled (s : State) : (countDown s).enabled = s.enabled := rfl
@[simp] theorem countDown_owner (s : State) : (countDown s).owner = s.owner := rfl
@[simp] theorem countDown_flagTc (s : State) : (countDown s).flagTc = s.flagTc := rfl
@[simp] theorem countDown_flagBerr (s : State) : (countDown s).flagBerr = s.flagBerr := rfl
@[simp] theorem countDown_flagArb (s : State) : (countDown s).flagArb = s.flagArb := rfl
@[simp] theorem countDown_flagNack (s : State) : (countDown s).flagNack = s.flagNack := rfl
@[simp] theorem countDown_ackPolicy (s : State) : (countDown s).ackPolicy = s.ackPolicy := rfl
@[simp] theorem countDown_data (s : State) : (countDown s).data = s.data := rfl
@[simp] theorem countDown_toCount (s : State) : (countDown s).toCount = s.toCount := rfl
@[simp] theorem countDown_pending (s : State) : (countDown s).pending = s.pending := rfl
@[simp] theorem countDown_busTrace (s : State) : (countDown s).busTrace = s.busTrace := rfl
@[simp] theorem countDown_afIndex (s : State) : (countDown s).afIndex = s.afIndex := rfl
@[simp] theorem countDown_pwmCompare (s : State) : (countDown s).pwmCompare = s.pwmCompare := rfl
@[simp] theorem countDown_afEnable (s : State) : (countDown s).afEnable = s.afEnable := rfl
@[simp] theorem countDown_cdCounter (s : State) :
    (countDown s).cdCounter = (if s.cdCounter - 1 = 0 then s.cfg.cdStart else s.cdCounter - 1) := rfl
@[simp] theorem countDown_rollover (s : State) :
    (countDown s).rollover = (if s.cdCounter - 1 = 0 then true else s.rollover) := rfl
@[simp] theorem countDown_blinkPhase (s : State) : (countDown s).blinkPhase = s.blinkPhase := rfl
@[simp] theorem countDown_pirHigh (s : State) : (countDown s).pirHigh = s.pirHigh := rfl
@[simp] theorem countDown_pirLow (s : State) : (countDown s).pirLow = s.pirLow := rfl
@[simp] theorem countDown_cdtIe (s : State) : (countDown s).cdtIe = s.cdtIe := rfl
@[simp] theorem countDown_wakeIe (s : State) : (countDown s).wakeIe = s.wakeIe := rfl
@[simp] theorem countDown_led (s : State) : (countDown s).led = s.led := rfl
@[simp] theorem countDown_boardState (s : State) : (countDown s).boardState = s.boardState := rfl
@[simp] theorem countDown_safeIdx (s : State) : (countDown s).safeIdx = s.safeIdx := rfl
@[simp] theorem countDown_inputs (s : State) : (countDown s).inputs = s.inputs := rfl
@[simp] theorem countDown_dispBuf (s : State) : (countDown s).dispBuf = s.dispBuf := rfl
@[simp] theorem countDown_lowpower (s : State) : (countDown s).lowpower = s.lowpower := rfl
@[simp] theorem countDown_outTrace (s : State) : (countDown s).outTrace = s.outTrace := rfl
@[simp] theorem countDown_cfg (s : State) : (countDown s).cfg = s.cfg := rfl
@[simp] theorem countDown_ctl (s : State) : (countDown s).ctl = s.ctl := rfl
@[simp] theorem countDown_result (s : State) : (countDown s).result = s.result := rfl
@[simp] theorem countDown_cmds (s : State) : (countDown s).cmds = s.cmds := rfl
@[simp] theorem countDown_events (s : State) : (countDown s).events = s.events := rfl
@[simp] theorem countDown_sched (s : State) : (countDown s).sched = s.sched := rfl

/-! ### writeSample -/

@[simp] theorem writeSample_enabled (x : Byte) (s : State) : (writeSample x s).enabled = s.enabled := rfl
@[simp] theorem writeSample_owner (x : Byte) (s : State) : (writeSample x s).owner = s.owner := rfl
@[simp] theorem writeSample_flagTc (x : Byte) (s : State) : (writeSample x s).flagTc = s.flagTc := rfl
@[simp] theorem writeSample_flagBerr (x : Byte) (s : State) : (writeSample x s).flagBerr = s.flagBerr := rfl
@[simp] theorem writeSample_flagArb (x : Byte) (s : State) : (writeSample x s).flagArb = s.flagArb := rfl
@[simp] theorem writeSample_flagNack (x : Byte) (s : State) : (writeSample x s).flagNack = s.flagNack := rfl
@[simp] theorem writeSample_ackPolicy (x : Byte) (s : State) : (writeSample x s).ackPolicy = s.ackPolicy := rfl
@[simp] theorem writeSample_data (x : Byte) (s : State) : (writeSample x s).data = s.data := rfl
@[simp] theorem writeSample_toCount (x : Byte) (s : State) : (writeSample x s).toCount = s.toCount := rfl
@[simp] theorem writeSample_pending (x : Byte) (s : State) : (writeSample x s).pending = s.pending := rfl
@[simp] theorem writeSample_busTrace (x : Byte) (s : State) : (writeSample x s).busTrace = s.busTrace := rfl
@[simp] theorem writeSample_afIndex (x : Byte) (s : State) : (writeSample x s).afIndex = s.afIndex := rfl
@[simp] theorem writeSample_pwmCompare (x : Byte) (s : State) : (writeSample x s).pwmCompare = x := rfl
@[simp] theorem writeSample_afEnable (x : Byte) (s : State) : (writeSample x s).afEnable = s.afEnable := rfl
@[simp] theorem writeSample_cdCounter (x : Byte) (s : State) : (writeSample x s).cdCounter = s.cdCounter := rfl
@[simp] theorem writeSample_rollover (x : Byte) (s : State) : (writeSample x s).rollover = s.rollover := rfl
@[simp] theorem writeSample_blinkPhase (x : Byte) (s : State) : (writeSample x s).blinkPhase = s.blinkPhase := rfl
@[simp] theorem writeSample_pirHigh (x : Byte) (s : State) : (writeSample x s).pirHigh = s.pirHigh := rfl
@[simp] theorem writeSample_pirLow (x : Byte) (s : State) : (writeSample x s).pirLow = s.pirLow := rfl
@[simp] theorem writeSample_cdtIe (x : Byte) (s : State) : (writeSample x s).cdtIe = s.cdtIe := rfl
@[simp] theorem writeSample_wakeIe (x : Byte) (s : State) : (writeSample x s).wakeIe = s.wakeIe := rfl
@[simp] theorem writeSample_led (x : Byte) (s : State) : (writeSample x s).led = s.led := rfl
@[simp] theorem writeSample_boardState (x : Byte) (s : State) : (writeSample x s).boardState = s.boardState := rfl
@[simp] theorem writeSample_safeIdx (x : Byte) (s : State) : (writeSample x s).safeIdx = s.safeIdx := rfl
@[simp] theorem writeSample_inputs (x : Byte) (s : State) : (writeSample x s).inputs = s.inputs := rfl
@[simp] theorem writeSample_dispBuf (x : Byte) (s : State) : (writeSample x s).dispBuf = s.dispBuf := rfl
@[simp] theorem writeSample_lowpower (x : Byte) (s : State) : (writeSample x s).lowpower = s.lowpower := rfl
@[simp] theorem writeSample_outTrace (x : Byte) (s : State) :
    (writeSample x s).outTrace = s.outTrace ++ [.pwm x] := rfl
@[simp] theorem writeSample_cfg (x : Byte) (s : State) : (writeSample x s).cfg = s.cfg := rfl
@[simp] theorem writeSample_ctl (x : Byte) (s : State) : (writeSample x s).ctl = s.ctl := rfl
@[simp] theorem writeSample_result (x : Byte) (s : State) : (writeSample x s).result = s.result := rfl
@[simp] theorem writeSample_cmds (x : Byte) (s : State) : (writeSample x s).cmds = s.cmds := rfl
@[simp] theorem writeSample_events (x : Byte) (s : State) : (writeSample x s).events = s.events := rfl
@[simp] theorem writeSample_sched (x : Byte) (s : State) : (writeSample x s).sched = s.sched := rfl

/-! ### enter -/

@[simp] theorem enter_enabled (b : BoardState) (s : State) : (enter b s).enabled = s.enabled := by
  cases b <;> rfl
@[simp] theorem enter_owner (b : BoardState) (s : State) : (enter b s).owner = s.owner := by
  cases b <;> rfl
@[simp] theorem enter_flagTc (b : BoardState) (s : State) : (enter b s).flagTc = s.flagTc := by
  cases b <;> rfl
@[simp] theorem enter_flagBerr (b : BoardState) (s : State) : (enter b s).flagBerr = s.flagBerr := by
  cases b <;> rfl
@[simp] theorem enter_flagArb (b : BoardState) (s : State) : (enter b s).flagArb = s.flagArb := by
  cases b <;> rfl
@[simp] theorem enter_flagNack (b : BoardState) (s : State) : (enter b s).flagNack = s.flagNack := by
  cases b <;> rfl
@[simp] theorem enter_ackPolicy (b : BoardState) (s : State) : (enter b s).ackPolicy = s.ackPolicy := by
  cases b <;> rfl
@[simp] theorem enter_data (b : BoardState) (s : State) : (enter b s).data = s.data := by
  cases b <;> rfl
@[simp] theorem enter_toCount (b : BoardState) (s : State) : (enter b s).toCount = s.toCount := by
  cases b <;> rfl
@[simp] theorem enter_pending (b : BoardState) (s : State) : (enter b s).pending = s.pending := by
  cases b <;> rfl
@[simp] theorem enter_busTrace (b : BoardState) (s : State) : (enter b s).busTrace = s.busTrace := by
  cases b <;> rfl
@[simp] theorem enter_pwmCompare (b : BoardState) (s : State) : (enter b s).pwmCompare = s.pwmCompare := by
  cases b <;> rfl
@[simp] theorem enter_rollover (b : BoardState) (s : State) : (enter b s).rollover = s.rollover := by
  cases b <;> rfl
@[simp] theorem enter_blinkPhase (b : BoardState) (s : State) : (enter b s).blinkPhase = s.blinkPhase := by
  cases b <;> rfl
@[simp] theorem enter_led (b : BoardState) (s : State) : (enter b s).led = s.led := by
  cases b <;> rfl
@[simp] theorem enter_boardState (b : BoardState) (s : State) : (enter b s).boardState = b := by
  cases b <;> rfl
@[simp] theorem enter_safeIdx (b : BoardState) (s : State) : (enter b s).safeIdx = s.safeIdx := by
  cases b <;> rfl
@[simp] theorem enter_inputs (b : BoardState) (s : State) : (enter b s).inputs = s.inputs := by
  cases b <;> rfl
@[simp] theorem enter_dispBuf (b : BoardState) (s : State) : (enter b s).dispBuf = s.dispBuf := by
  cases b <;> rfl
@[simp] theorem enter_lowpower (b : BoardState) (s : State) : (enter b s).lowpower = s.lowpower := by
  cases b <;> rfl
@[simp] theorem enter_outTrace (b : BoardState) (s : State) : (enter b s).outTrace = s.outTrace := by
  cases b <;> rfl
@[simp] theorem enter_cfg (b : BoardState) (s : State) : (enter b s).cfg = s.cfg := by
  cases b <;> rfl
@[simp] theorem enter_ctl (b : BoardState) (s : State) : (enter b s).ctl = s.ctl := by
  cases b <;> rfl
@[simp] theorem enter_result (b : BoardState) (s : State) : (enter b s).result = s.result := by
  cases b <;> rfl
@[simp] theorem enter_cmds (b : BoardState) (s : State) : (enter b s).cmds = s.cmds := by
  cases b <;> rfl
@[simp] theorem enter_events (b : BoardState) (s : State) : (enter b s).events = s.events := by
  cases b <;> rfl
@[simp] theorem enter_sched (b : BoardState) (s : State) : (enter b s).sched = s.sched := by
  cases b <;> rfl

end Sys2Proof.Machine
end

