-- ==== Sys2Proof/Laws/Ops.lean ====
section
/-! SUPPORT. What each shared operation can do, said once: inversion of the guards, and the frame of the bus engine's
operations (`OnlyEngine`). -/

namespace Sys2Proof.Machine

/-! ## Guards -/

@[simp] theorem asCommand_idle {s : State} (h : s.ctl = .idle) (f : State → Out) : asCommand s f = f s := by
  simp [asCommand, h]

theorem asCommand_next {s t : State} {f : State → Out} (h : asCommand s f = .next t) :
    s.ctl = .idle ∧ f s = .next t := by
  unfold asCommand at h
  split at h
  · exact ⟨‹_›, h⟩
  · cases h
  · cases h

@[simp] theorem whenEnabled_on {s : State} (h : s.enabled = true) (f : State → Out) : whenEnabled s f = f s := by
  simp [whenEnabled, h]

@[simp] theorem whenEnabled_off {s : State} (h : s.enabled = false) (f : State → Out) :
    whenEnabled s f = .refused .engineDisabled := by
  simp [whenEnabled, h]

theorem whenEnabled_next {s t : State} {f : State → Out} (h : whenEnabled s f = .next t) :
    s.enabled = true ∧ f s = .next t := by
  unfold whenEnabled at h
  split at h
  · exact ⟨‹_›, h⟩
  · cases h

/-! ## The frame of the bus engine -/

theorem OnlyEngine.refl (s : State) : OnlyEngine s s := ⟨rfl, rfl, rfl, rfl, rfl⟩

theorem OnlyEngine.trans {s t u : State} (h : OnlyEngine s t) (h' : OnlyEngine t u) : OnlyEngine s u :=
  ⟨h'.lifecycle.trans h.lifecycle, h'.output.trans h.output, h'.cmds.trans h.cmds, h'.events.trans h.events,
    h'.sched.trans h.sched⟩

theorem OnlyEngine.cfg {s t : State} (h : OnlyEngine s t) : t.cfg = s.cfg :=
  congrArg LifecycleFields.cfg h.lifecycle

theorem giveResult_only (r : Result) (s : State) : OnlyEngine s (giveResult r s) := ⟨rfl, rfl, rfl, rfl, rfl⟩

theorem runJob_only (j : Job) (s : State) : OnlyEngine s (runJob j s) := ⟨rfl, rfl, rfl, rfl, rfl⟩

theorem loopOn_only (l : List LoopAct) (s : State) : OnlyEngine s (loopOn l s) := by
  cases l <;> exact ⟨rfl, rfl, rfl, rfl, rfl⟩

theorem returnAggregate_only (up : Upper) (c : Code) (s : State) : OnlyEngine s (returnAggregate up c s) := by
  cases up
  · exact giveResult_only _ _
  · exact loopOn_only _ _

theorem finishBlink_only (k : BlinkCont) (s : State) : OnlyEngine s (finishBlink k s) := by
  cases k
  · exact giveResult_only _ _
  · exact returnAggregate_only _ _ _

theorem blinkOn_only (n : Nat) (k : BlinkCont) (s : State) : OnlyEngine s (blinkOn n k s) := by
  unfold blinkOn
  split
  · exact finishBlink_only _ _
  · exact runJob_only _ _

theorem deliverBlock_only (k : Cont) (c : Code) (got : List Byte) (s : State) :
    OnlyEngine s (deliverBlock k c got s) := by
  cases k with
  | hostRead => exact giveResult_only _ _
  | hostWrite => exact giveResult_only _ _
  | writeAll i res up =>
    simp only [deliverBlock]
    split
    · exact runJob_only _ _
    · exact returnAggregate_only _ _ _
  | config up =>
    simp only [deliverBlock]
    split
    · exact returnAggregate_only _ _ _
    · exact blinkOn_only _ _ _

/-- What `resume` does is one of: hand a result back, or go on with a job. -/
theorem resume_cases (w : Waiter) (r : Code) (s : State) :
    (∃ v, resume w r s = giveResult v s) ∨ (∃ pos k, resume w r s = runJob (.block pos k) s) := by
  cases w <;> simp only [resume] <;> (repeat' split) <;>
    first
      | exact .inl ⟨_, rfl⟩
      | exact .inr ⟨_, _, rfl⟩

theorem resume_only (w : Waiter) (r : Code) (s : State) : OnlyEngine s (resume w r s) := by
  rcases resume_cases w r s with ⟨v, h⟩ | ⟨pos, k, h⟩ <;> rw [h]
  · exact giveResult_only _ _
  · exact runJob_only _ _

theorem issue_only (c : BusCmd) (s : State) : OnlyEngine s (issue c s) := ⟨rfl, rfl, rfl, rfl, rfl⟩

theorem loadData_only (b : Byte) (s : State) : OnlyEngine s (loadData b s) := ⟨rfl, rfl, rfl, rfl, rfl⟩

theorem takeBus_only (s : State) : OnlyEngine s (takeBus s) := ⟨rfl, rfl, rfl, rfl, rfl⟩

theorem latchPolicy_only (p : AckPolicy) (s : State) : OnlyEngine s (latchPolicy p s) := ⟨rfl, rfl, rfl, rfl, rfl⟩

theorem openWait_only (b : Counter) (w : Waiter) (s : State) : OnlyEngine s (openWait b w s) :=
  ⟨rfl, rfl, rfl, rfl, rfl⟩

theorem closeWait_only (r : Code) (s : State) : OnlyEngine s (closeWait r s) := ⟨rfl, rfl, rfl, rfl, rfl⟩

theorem countTick_only (s : State) : OnlyEngine s (countTick s) := ⟨rfl, rfl, rfl, rfl, rfl⟩

theorem takeCompletion_only (f : PeerFlags) (d : Byte) (s : State) : OnlyEngine s (takeCompletion f d s) :=
  ⟨rfl, rfl, rfl, rfl, rfl⟩

theorem clearPriorFlags_only (s : State) : OnlyEngine s (clearPriorFlags s) := ⟨rfl, rfl, rfl, rfl, rfl⟩

theorem initEngine_only (s : State) : OnlyEngine s (initEngine s) := ⟨rfl, rfl, rfl, rfl, rfl⟩

theorem recoveryAct_only (a : RecAct) (s : State) : OnlyEngine s (recoveryAct a s) := by
  cases a <;> exact ⟨rfl, rfl, rfl, rfl, rfl⟩

theorem endWait_only (b : Counter) (w : Waiter) (s : State) : OnlyEngine s (endWait b w s) :=
  (closeWait_only _ _).trans (resume_only _ _ _)

theorem settle_only (s : State) : OnlyEngine s (settle s) := by
  unfold settle
  split
  · split
    · exact endWait_only _ _ _
    · exact OnlyEngine.refl s
  · exact OnlyEngine.refl s
  · exact OnlyEngine.refl s

theorem beginWait_only (b : Counter) (w : Waiter) (s : State) : OnlyEngine s (beginWait b w s) :=
  (openWait_only _ _ _).trans (settle_only _)

/-- What `startPrim` does when it does anything: fail fast on the latched bus error, or issue and wait. -/
theorem startPrim_next {ab : Byte} {w : Waiter} {s t : State} (h : startPrim ab w s = .next t) :
    s.enabled = true ∧ s.owner = false ∧
      ((s.flagBerr = true ∧ t = resume w .busError (clearPriorFlags s)) ∨
        (s.flagBerr = false ∧ t = beginWait s.cfg.toAddr w
          (issue (.addr ab false) (takeBus (loadData ab (clearPriorFlags s)))))) := by
  obtain ⟨he, h⟩ := whenEnabled_next h
  cases ho : s.owner
  · cases hb : s.flagBerr
    · simp [ho, hb] at h
      exact ⟨he, rfl, .inr ⟨rfl, h.symm⟩⟩
    · simp [ho, hb] at h
      exact ⟨he, rfl, .inl ⟨rfl, h.symm⟩⟩
  · simp [ho] at h

/-- What `restartPrim` does when it does anything: no effect without ownership, else issue and wait. -/
theorem restartPrim_next {ab : Byte} {w : Waiter} {s t : State} (h : restartPrim ab w s = .next t) :
    s.enabled = true ∧
      ((s.owner = true ∧ t = beginWait s.cfg.toAddr w (issue (.addr ab true) (loadData ab s))) ∨
        (s.owner = false ∧ t = resume w .masterNotOwner s)) := by
  obtain ⟨he, h⟩ := whenEnabled_next h
  cases ho : s.owner <;> simp [ho] at h
  · exact ⟨he, .inr ⟨rfl, h.symm⟩⟩
  · exact ⟨he, .inl ⟨rfl, h.symm⟩⟩

/-- What `writePrim` does when it does anything. -/
theorem writePrim_next {b : Byte} {w : Waiter} {s t : State} (h : writePrim b w s = .next t) :
    s.enabled = true ∧
      ((s.owner = true ∧ t = beginWait s.cfg.toWrite w (issue (.write b) (loadData b s))) ∨
        (s.owner = false ∧ t = resume w .masterNotOwner s)) := by
  obtain ⟨he, h⟩ := whenEnabled_next h
  cases ho : s.owner <;> simp [ho] at h
  · exact ⟨he, .inr ⟨rfl, h.symm⟩⟩
  · exact ⟨he, .inl ⟨rfl, h.symm⟩⟩

/-- What `readPrim` does when it does anything: the policy is latched before the command that carries it. -/
theorem readPrim_next {p : AckPolicy} {w : Waiter} {s t : State} (h : readPrim p w s = .next t) :
    s.enabled = true ∧
      ((s.owner = true ∧ t = beginWait s.cfg.toRead w (issue (.read p) (latchPolicy p s))) ∨
        (s.owner = false ∧ t = resume w .masterNotOwner s)) := by
  obtain ⟨he, h⟩ := whenEnabled_next h
  cases ho : s.owner <;> simp [ho] at h
  · exact ⟨he, .inr ⟨rfl, h.symm⟩⟩
  · exact ⟨he, .inl ⟨rfl, h.symm⟩⟩

theorem startPrim_only {ab : Byte} {w : Waiter} {s t : State} (h : startPrim ab w s = .next t) : OnlyEngine s t := by
  obtain ⟨-, -, ⟨-, rfl⟩ | ⟨-, rfl⟩⟩ := startPrim_next h
  · exact (clearPriorFlags_only s).trans (resume_only _ _ _)
  · exact (((clearPriorFlags_only s).trans (loadData_only _ _)).trans (takeBus_only _)).trans
      ((issue_only _ _).trans (beginWait_only _ _ _))

theorem restartPrim_only {ab : Byte} {w : Waiter} {s t : State} (h : restartPrim ab w s = .next t) :
    OnlyEngine s t := by
  obtain ⟨-, ⟨-, rfl⟩ | ⟨-, rfl⟩⟩ := restartPrim_next h
  · exact (loadData_only _ _).trans ((issue_only _ _).trans (beginWait_only _ _ _))
  · exact resume_only _ _ _

theorem writePrim_only {b : Byte} {w : Waiter} {s t : State} (h : writePrim b w s = .next t) : OnlyEngine s t := by
  obtain ⟨-, ⟨-, rfl⟩ | ⟨-, rfl⟩⟩ := writePrim_next h
  · exact (loadData_only _ _).trans ((issue_only _ _).trans (beginWait_only _ _ _))
  · exact resume_only _ _ _

theorem readPrim_only {p : AckPolicy} {w : Waiter} {s t : State} (h : readPrim p w s = .next t) :
    OnlyEngine s t := by
  obtain ⟨-, ⟨-, rfl⟩ | ⟨-, rfl⟩⟩ := readPrim_next h
  · exact (latchPolicy_only _ _).trans ((issue_only _ _).trans (beginWait_only _ _ _))
  · exact resume_only _ _ _

/-- What `STOP` leaves: the bus released and its trace entry when it was owned, nothing otherwise. -/
theorem stopPrim_snd (s : State) : (stopPrim s).2 = if s.owner then stopEngine s else s := by
  unfold stopPrim
  split <;> rfl

theorem stopPrim_only (s : State) : OnlyEngine s (stopPrim s).2 := by
  rw [stopPrim_snd]
  split <;> exact ⟨rfl, rfl, rfl, rfl, rfl⟩

theorem writeBlock_only {a7 : BitVec 7} {reg : Byte} {bytes : List Byte} {k : Cont} {s t : State}
    (h : writeBlock a7 reg bytes k s = .next t) : OnlyEngine s t := startPrim_only h

theorem readBlock_only {a7 : BitVec 7} {reg : Byte} {n : Nat} {k : Cont} {s t : State}
    (h : readBlock a7 reg n k s = .next t) : OnlyEngine s t := startPrim_only h

theorem configWrite_only {c : Byte} {up : Upper} {s t : State} (h : configWrite c up s = .next t) :
    OnlyEngine s t := startPrim_only h

theorem digitStep_only {i : Fin 5} {res : Code} {up : Upper} {s t : State} (h : digitStep i res up s = .next t) :
    OnlyEngine s t := by
  unfold digitStep at h
  split at h
  · exact startPrim_only h
  · cases h

theorem blinkRate_only {r : Byte} {up : Upper} {s t : State} (h : blinkRate r up s = .next t) :
    OnlyEngine s t := by
  unfold blinkRate at h
  split at h
  · exact startPrim_only h
  · cases h
    exact returnAggregate_only _ _ _

theorem blockStep_only {pos : BlkPos} {k : Cont} {s t : State} (h : blockStep pos k s = .next t) :
    OnlyEngine s t := by
  unfold blockStep at h
  split at h
  · exact writePrim_only h
  · exact writePrim_only h
  · obtain ⟨-, h⟩ := whenEnabled_next h
    cases h
    exact (stopPrim_only s).trans (deliverBlock_only _ _ _ _)
  · exact writePrim_only h
  · exact restartPrim_only h
  · exact readPrim_only h
  · obtain ⟨-, h⟩ := whenEnabled_next h
    cases h
    exact (stopPrim_only s).trans (deliverBlock_only _ _ _ _)
  · obtain ⟨-, h⟩ := whenEnabled_next h
    cases h
    exact (stopPrim_only s).trans (deliverBlock_only _ _ _ _)
  · cases h
    exact deliverBlock_only _ _ _ _
  · cases h
    exact (recoveryAct_only _ _).trans (deliverBlock_only _ _ _ _)
  · cases h
    exact (recoveryAct_only _ _).trans (runJob_only _ _)

theorem recoverStep_only (todo : List RecAct) (s : State) : OnlyEngine s (recoverStep todo s) := by
  unfold recoverStep
  split
  · exact giveResult_only _ _
  · exact (recoveryAct_only _ _).trans (giveResult_only _ _)
  · exact (recoveryAct_only _ _).trans (runJob_only _ _)

/-! ## The wait -/

theorem wake_iff {b : Counter} {s : State} : wake b s = true ↔ s.flagTc = true ∨ b ≤ s.toCount := by
  simp [wake]

theorem wake_false {b : Counter} {s : State} (hf : s.flagTc = false) (h : s.toCount < b) : wake b s = false := by
  rw [← Bool.not_eq_true, wake_iff, hf]
  simpa using BitVec.not_le.2 h

/-- In a wait that is not over, `settle` does nothing. -/
theorem settle_open {s : State} {b : Counter} {w : Waiter} (hc : s.ctl = .wait b w) (hw : wake b s = false) :
    settle s = s := by
  simp [settle, hc, hw]

/-- In a wait that is over, `settle` ends it. -/
theorem settle_over {s : State} {b : Counter} {w : Waiter} (hc : s.ctl = .wait b w) (hw : wake b s = true) :
    settle s = endWait b w s := by
  simp [settle, hc, hw]

/-- Outside a wait, `settle` does nothing. -/
theorem settle_free {s : State} (hc : ∀ b w, s.ctl ≠ .wait b w) : settle s = s := by
  unfold settle
  split
  · exact absurd ‹_› (hc _ _)
  · rfl
  · rfl

/-- A wait whose budget is not 0, begun with transfer complete clear, stays open. -/
theorem beginWait_open {b : Counter} {w : Waiter} {s : State} (hb : b ≠ 0) (hf : s.flagTc = false) :
    beginWait b w s = openWait b w s :=
  settle_open (b := b) (w := w) rfl (by simp [wake, hf, BitVec.le_def]; bv_omega)

/-- A wait of budget 0 ends at once with `TIMEOUT` (R133). -/
theorem beginWait_zero (w : Waiter) (s : State) :
    beginWait 0 w s = resume w .timeout (closeWait .timeout (openWait 0 w s)) :=
  settle_over (b := 0) (w := w) rfl (by simp [wake])

/-- A timeout tick that leaves the wait short of its budget changes the counter only. -/
theorem tickTo_open {s : State} {b : Counter} {w : Waiter} (hc : s.ctl = .wait b w) (hf : s.flagTc = false)
    (h : s.toCount + 1 < b) : exec .tickTo s = .next (countTick s) := by
  rw [exec, execTickTo, settle_open (s := countTick s) hc (wake_false hf h)]

/-- The timeout tick that reaches the budget ends the wait. -/
theorem tickTo_over {s : State} {b : Counter} {w : Waiter} (hc : s.ctl = .wait b w) (h : b ≤ s.toCount + 1) :
    exec .tickTo s = .next (endWait b w (countTick s)) := by
  rw [exec, execTickTo, settle_over (s := countTick s) hc (wake_iff.2 (.inr h))]

/-- A completion ends the wait it falls in. -/
theorem peerComplete_over {s : State} {b : Counter} {w : Waiter} (f : PeerFlags) (d : Byte) (hc : s.ctl = .wait b w)
    (hp : s.pending ≠ .none) : exec (.peerComplete f d) s = .next (endWait b w (takeCompletion f d s)) := by
  rw [exec, execPeerComplete, if_neg hp, settle_over (s := takeCompletion f d s) hc (wake_iff.2 (.inl rfl))]

end Sys2Proof.Machine
end

