-- ==== Sys2Proof/Laws/Peer.lean ====
section
/-! SUPPORT. The healthy peer's memory: every write keeps the canonical form, a read after a write gives the byte
written, and a write leaves every other cell alone. Also how the short runs of one side compose. -/

namespace Sys2Proof.Machine

/-! ## The peer's memory -/

theorem peerMemFrom_mono {lo lo' : Nat} {mem : List Host.Cell} (h : peerMemFrom lo mem = true) (hl : lo' ≤ lo) :
    peerMemFrom lo' mem = true := by
  cases mem with
  | nil => rfl
  | cons c rest =>
    simp only [peerMemFrom, Bool.and_eq_true, decide_eq_true_eq] at h ⊢
    exact ⟨⟨by omega, h.1.2⟩, h.2⟩

/-- Below the least listed address a memory reads as 0. -/
theorem peerRead_below {lo a : Nat} {mem : List Host.Cell} (h : peerMemFrom lo mem = true) (ha : a < lo) :
    peerRead mem a = 0 := by
  induction mem generalizing lo with
  | nil => rfl
  | cons c rest ih =>
    simp only [peerMemFrom, Bool.and_eq_true, decide_eq_true_eq] at h
    simp only [peerRead]
    rw [if_neg (by omega)]
    exact ih h.2 (by omega)

theorem peerCons_from {lo a : Nat} {v : Byte} {rest : List Host.Cell} (hl : lo ≤ a)
    (h : peerMemFrom (a + 1) rest = true) : peerMemFrom lo (peerCons a v rest) = true := by
  unfold peerCons
  split
  · exact peerMemFrom_mono h (by omega)
  · simp only [peerMemFrom, Bool.and_eq_true, decide_eq_true_eq, bne_iff_ne]
    exact ⟨⟨hl, ‹_›⟩, h⟩

theorem peerWrite_from {lo a : Nat} {v : Byte} {mem : List Host.Cell} (h : peerMemFrom lo mem = true) (hl : lo ≤ a) :
    peerMemFrom lo (peerWrite mem a v) = true := by
  induction mem generalizing lo with
  | nil => exact peerCons_from hl rfl
  | cons c rest ih =>
    have h' := h
    simp only [peerMemFrom, Bool.and_eq_true, decide_eq_true_eq, bne_iff_ne] at h
    obtain ⟨⟨h1, h2⟩, h3⟩ := h
    simp only [peerWrite]
    split
    · refine peerCons_from hl ?_
      simp only [peerMemFrom, Bool.and_eq_true, decide_eq_true_eq, bne_iff_ne]
      exact ⟨⟨by omega, h2⟩, h3⟩
    · split
      · subst a
        exact peerCons_from h1 h3
      · simp only [peerMemFrom, Bool.and_eq_true, decide_eq_true_eq, bne_iff_ne]
        exact ⟨⟨h1, h2⟩, ih h3 (by omega)⟩

/-- A write keeps the canonical form. -/
theorem peerWrite_wf {mem : List Host.Cell} (h : peerMemWf mem = true) (a : Nat) (v : Byte) :
    peerMemWf (peerWrite mem a v) = true :=
  peerWrite_from h (Nat.zero_le a)

theorem peerRead_cons {a b : Nat} {v : Byte} {rest : List Host.Cell} (h : peerMemFrom (a + 1) rest = true) :
    peerRead (peerCons a v rest) b = if b = a then v else peerRead rest b := by
  unfold peerCons
  by_cases hb : b = a
  · subst hb
    split
    · simp [peerRead_below h (Nat.lt_succ_self b), *]
    · simp [peerRead]
  · split
    · simp
    · simp [peerRead, Ne.symm hb]

/-- What a memory reads as after a write. -/
theorem peerRead_write {lo : Nat} {mem : List Host.Cell} (h : peerMemFrom lo mem = true) (a b : Nat) (v : Byte) :
    peerRead (peerWrite mem a v) b = if b = a then v else peerRead mem b := by
  induction mem generalizing lo with
  | nil =>
    simp only [peerWrite]
    rw [peerRead_cons rfl]
  | cons c rest ih =>
    obtain ⟨k, w⟩ := c
    have h' := h
    simp only [peerMemFrom, Bool.and_eq_true, decide_eq_true_eq, bne_iff_ne] at h
    obtain ⟨⟨h1, h2⟩, h3⟩ := h
    simp only [peerWrite]
    split
    · refine peerRead_cons ?_
      simp only [peerMemFrom, Bool.and_eq_true, decide_eq_true_eq, bne_iff_ne]
      exact ⟨⟨by omega, h2⟩, h3⟩
    · split
      · subst a
        rw [peerRead_cons h3]
        by_cases hb : b = k
        · simp [hb]
        · simp [hb, peerRead, Ne.symm hb]
      · simp only [peerRead]
        by_cases hk : k = b
        · subst hk
          simp only [if_true]
          rw [if_neg (by omega)]
        · simp only [hk, if_false]
          exact ih h3

/-- A read after a write to the same cell gives the byte written. -/
theorem peerRead_write_same {mem : List Host.Cell} (h : peerMemWf mem = true) (a : Nat) (v : Byte) :
    peerRead (peerWrite mem a v) a = v := by
  rw [peerRead_write h]
  exact if_pos rfl

/-- A write leaves every other cell alone. -/
theorem peerRead_write_other {mem : List Host.Cell} (h : peerMemWf mem = true) {a b : Nat} (v : Byte) (hb : b ≠ a) :
    peerRead (peerWrite mem a v) b = peerRead mem b := by
  rw [peerRead_write h]
  exact if_neg hb

/-! ## Runs of one side -/

theorem execSeq_append {a : List Instr} {s t : State} (h : execSeq a s = .next t) (b : List Instr) :
    execSeq (a ++ b) s = execSeq b t := by
  induction a generalizing s with
  | nil =>
    cases h
    rfl
  | cons i a ih =>
    simp only [List.cons_append, execSeq] at h ⊢
    cases hi : exec i s with
    | next u =>
      rw [hi] at h
      exact ih h
    | fault f => simp [hi] at h
    | refused r => simp [hi] at h

theorem execSeq_single (i : Instr) (s : State) : execSeq [i] s = exec i s := by
  simp only [execSeq]
  cases exec i s <;> rfl

/-- One more of the same operation. -/
theorem execSeq_replicate_succ {n : Nat} {i : Instr} {s t : State}
    (h : execSeq (List.replicate n i) s = .next t) : execSeq (List.replicate (n + 1) i) s = exec i t := by
  rw [List.replicate_succ', execSeq_append h, execSeq_single]

theorem hostSteps_add {m : Nat} {s t : State} (h : hostSteps m s = .next t) (n : Nat) :
    hostSteps (m + n) s = hostSteps n t := by
  induction m generalizing s with
  | zero =>
    cases h
    rw [Nat.zero_add]
  | succ m ih =>
    rw [Nat.add_right_comm]
    simp only [hostSteps] at h ⊢
    split at h
    · split at h
      · exact ih h
      · cases h
      · cases h
    · cases h
    · cases h

/-- One host step, in a job. -/
theorem hostSteps_run {n : Nat} {j : Job} {s t : State} (hc : s.ctl = .run j) (h : hostStep j s = .next t) :
    hostSteps (n + 1) s = hostSteps n t := by
  simp only [hostSteps, hc, h]

/-! ## What may fall before an answer

The frame of a script's events, said once: whatever they are, the engine but for its tick counter, the host, the display
buffer and the configuration are as before, and a wait in progress stays open. -/

/-- What the events of a script leave alone. -/
structure BesideFrame (s t : State) : Prop where
  engine : engineOf t = { engineOf s with toCount := t.toCount }
  host : hostOf t = hostOf s
  dispBuf : t.dispBuf = s.dispBuf
  cfg : t.cfg = s.cfg
  safeIdx : t.safeIdx = s.safeIdx

theorem BesideFrame.refl (s : State) : BesideFrame s s := ⟨rfl, rfl, rfl, rfl, rfl⟩

theorem BesideFrame.trans {s t u : State} (h : BesideFrame s t) (h' : BesideFrame t u) : BesideFrame s u :=
  ⟨by rw [h'.engine, h.engine], h'.host.trans h.host, h'.dispBuf.trans h.dispBuf, h'.cfg.trans h.cfg,
    h'.safeIdx.trans h.safeIdx⟩

theorem BesideFrame.ctl {s t : State} (h : BesideFrame s t) : t.ctl = s.ctl := congrArg HostFields.ctl h.host

theorem BesideFrame.busTrace {s t : State} (h : BesideFrame s t) : t.busTrace = s.busTrace :=
  congrArg EngineFields.busTrace h.engine

theorem BesideFrame.pending {s t : State} (h : BesideFrame s t) : t.pending = s.pending :=
  congrArg EngineFields.pending h.engine

theorem BesideFrame.flagTc {s t : State} (h : BesideFrame s t) : t.flagTc = s.flagTc :=
  congrArg EngineFields.flagTc h.engine

/-- What a handler leaves alone: as `BesideFrame`, and the tick counter too. -/
def HandlerFrame (s t : State) : Prop :=
  BesideFrame s t ∧ t.toCount = s.toCount

theorem HandlerFrame.refl (s : State) : HandlerFrame s s := ⟨.refl s, rfl⟩

theorem HandlerFrame.trans {s t u : State} (h : HandlerFrame s t) (h' : HandlerFrame t u) : HandlerFrame s u :=
  ⟨h.1.trans h'.1, h'.2.trans h.2⟩

theorem interruptEntry_frame (s : State) : HandlerFrame s (interruptEntry s) := ⟨⟨rfl, rfl, rfl, rfl, rfl⟩, rfl⟩

theorem enter_frame (b : BoardState) (s : State) : HandlerFrame s (enter b s) := by
  cases b <;> exact ⟨⟨rfl, rfl, rfl, rfl, rfl⟩, rfl⟩

theorem debounceActive_frame (s : State) : HandlerFrame s (debounceActive s) := by
  simp only [debounceActive]
  split_ifs <;> exact ⟨⟨rfl, rfl, rfl, rfl, rfl⟩, rfl⟩

theorem debounceInactive_frame (s : State) : HandlerFrame s (debounceInactive s) := by
  simp only [debounceInactive]
  split_ifs <;> exact ⟨⟨rfl, rfl, rfl, rfl, rfl⟩, rfl⟩

theorem timerDuties_frame (pir : Bool) (s : State) : HandlerFrame s (timerDuties pir s) := by
  unfold timerDuties
  cases s.boardState <;> dsimp only <;> first | exact .refl s | skip
  · cases pir
    · exact debounceInactive_frame s
    · exact debounceActive_frame s
  · exact ⟨⟨rfl, rfl, rfl, rfl, rfl⟩, rfl⟩

theorem feedAudio_frame (s : State) : HandlerFrame s (feedAudio s) := by
  unfold feedAudio
  split
  · exact ⟨⟨rfl, rfl, rfl, rfl, rfl⟩, rfl⟩
  · unfold feedOneShot
    split
    · exact ⟨⟨rfl, rfl, rfl, rfl, rfl⟩, rfl⟩
    · exact .refl s
  · exact .refl s

theorem sensorWake_frame (s : State) : HandlerFrame s (sensorWake s) := by
  unfold sensorWake
  split
  · exact enter_frame _ _
  · exact .refl s

/-- A tick that does not come too late changes the counter only. -/
theorem beside_tick {s : State} (h : tooLate .tick s = false) : beside .tick s = countTick s := by
  rw [beside, h]
  simp only [Bool.false_eq_true, if_false, Beside.instr, exec, execTickTo]
  cases hc : s.ctl with
  | idle => exact settle_free (fun _ _ => by simp [countTick, hc])
  | run j => exact settle_free (fun _ _ => by simp [countTick, hc])
  | wait b w => exact settle_open (s := countTick s) hc (by simpa [tooLate, hc] using h)

/-- An event of a script other than a tick is a handler's or the inputs'. -/
theorem beside_handler {e : Beside} (he : e ≠ .tick) (s : State) : HandlerFrame s (beside e s) := by
  have hl : tooLate e s = false := by
    unfold tooLate
    split <;> simp [he]
  simp only [beside, hl, Bool.false_eq_true, if_false]
  cases e with
  | tick => exact absurd rfl he
  | timer pir =>
    simp only [Beside.instr, exec, execTickCd]
    split_ifs
    · exact (interruptEntry_frame s).trans (timerDuties_frame _ _)
    · exact .refl s
  | underflow =>
    simp only [Beside.instr, exec, execPwmUnderflow]
    split_ifs
    · exact (interruptEntry_frame s).trans (feedAudio_frame _)
    · exact .refl s
  | edge =>
    simp only [Beside.instr, exec, execSensorEdge]
    split_ifs
    · exact (interruptEntry_frame s).trans (sensorWake_frame _)
    · exact .refl s
  | inputs mask =>
    simp only [Beside.instr, exec, execInputs]
    split_ifs
    · exact ⟨⟨rfl, rfl, rfl, rfl, rfl⟩, rfl⟩
    · exact .refl s

/-- A tick that would come too late is passed over. -/
theorem beside_late {e : Beside} {s : State} (h : tooLate e s = true) : beside e s = s := by
  simp [beside, h]

theorem beside_frame (e : Beside) (s : State) : BesideFrame s (beside e s) := by
  by_cases he : e = .tick
  · subst he
    cases hl : tooLate .tick s
    · rw [beside_tick hl]
      exact ⟨rfl, rfl, rfl, rfl, rfl⟩
    · rw [beside_late hl]
      exact .refl s
  · exact (beside_handler he s).1

theorem besides_frame (es : List Beside) (s : State) : BesideFrame s (besides es s) := by
  induction es generalizing s with
  | nil => exact .refl s
  | cons e es ih => exact (beside_frame e s).trans (ih _)

/-- No event of a script ends a wait. -/
theorem beside_open {e : Beside} {s : State} {b : Counter} {w : Waiter} (hc : s.ctl = .wait b w)
    (hw : wake b s = false) : wake b (beside e s) = false := by
  by_cases he : e = .tick
  · subst he
    cases hl : tooLate .tick s
    · rw [beside_tick hl]
      simpa [tooLate, hc] using hl
    · rwa [beside_late hl]
  · obtain ⟨hf, ht⟩ := beside_handler he s
    rwa [wake, ht, hf.flagTc]

theorem besides_open {es : List Beside} {s : State} {b : Counter} {w : Waiter} (hc : s.ctl = .wait b w)
    (hw : wake b s = false) : wake b (besides es s) = false := by
  induction es generalizing s with
  | nil => exact hw
  | cons e es ih => exact ih ((beside_frame e s).ctl.trans hc) (beside_open hc hw)

/-! ## Served runs -/

/-- A served run ends when the host is idle. -/
theorem serve_idle (any : Nat → Byte) (script : List (List Beside)) {s : State} (p : Peer) (hc : s.ctl = .idle) :
    serve any script (s, p) = (s, p) := by
  cases script with
  | nil => rfl
  | cons es script => simp [serve, servedStep, hc]

/-- One served step of the host, after the events `es`. -/
theorem serve_run (any : Nat → Byte) (script : List (List Beside)) {es : List Beside} {j : Job} {s t : State} (p : Peer)
    (hc : s.ctl = .run j) (hj : j ≠ .loopGate) (h : hostStep j (besides es s) = .next t) :
    serve any (es :: script) (s, p) = serve any script (t, p) := by
  have hr : hostReady (besides es s) = true := by
    unfold hostReady
    rw [(besides_frame es s).ctl, hc]
    cases j <;> first | rfl | exact absurd rfl hj
  simp [serve, servedStep, hc, hr, h]

/-- One served step of the peer, after the events `es`: it answers the last entry of the trace. -/
theorem serve_answer (any : Nat → Byte) (script : List (List Beside)) {es : List Beside} {b : Counter} {w : Waiter}
    {s : State} {p q : Peer} {e : BusEvent} {d : Byte} (hc : s.ctl = .wait b w) (hp : s.pending ≠ .none)
    (hl : s.busTrace.getLast? = some e) (ha : peerAnswer (any s.busTrace.length) e p = some (q, d)) :
    serve any (es :: script) (s, p) =
      serve any script (endWait b w (takeCompletion noFlags d (besides es s)), q) := by
  have hf := besides_frame es s
  have h := peerComplete_over noFlags d (hf.ctl.trans hc) (by rw [hf.pending]; exact hp)
  simp [serve, servedStep, hc, hl, ha, h]

end Sys2Proof.Machine
end

