-- ==== Sys2Proof/Laws/PerInstr.lean ====
section
/-! SUPPORT. What holds of every operation as syntax, one lemma for each constructor: the first byte of an operation's
encoding (for `WRBLK`, with the fourth) decides its length (R110), whatever follows it in the stream. -/

namespace Sys2Proof.Laws.EncodeLength

/-- R110 for the operation `i`: the length a stream's head decides is the length of the encoding. -/
def Statement (i : Instr) : Prop :=
  ∀ (n : Nat) (rest : List Byte), i.wellFormed n = true → streamLength (encode i ++ rest) = (encode i).length

theorem init : Statement .init := fun _ _ _ => rfl

theorem start (ab : Byte) : Statement (.start ab) := fun _ _ _ => rfl

theorem rstart (ab : Byte) : Statement (.rstart ab) := fun _ _ _ => rfl

theorem wbyte (b : Byte) : Statement (.wbyte b) := fun _ _ _ => rfl

theorem rbyte (p : AckPolicy) : Statement (.rbyte p) := fun _ _ _ => rfl

theorem stop : Statement .stop := fun _ _ _ => rfl

theorem recover : Statement .recover := fun _ _ _ => rfl

theorem rdblk (a7 : BitVec 7) (reg : Byte) (count : Byte) : Statement (.rdblk a7 reg count) := fun _ _ _ => rfl

theorem wrblk (a7 : BitVec 7) (reg : Byte) (bytes : List Byte) : Statement (.wrblk a7 reg bytes) := by
  intro n rest h
  have hl : bytes.length ≤ 255 := of_decide_eq_true h
  show 4 + (BitVec.ofNat 8 bytes.length).toNat = bytes.length + 4
  rw [BitVec.toNat_ofNat, Nat.mod_eq_of_lt (show bytes.length < 2 ^ 8 by omega), Nat.add_comm]

theorem setdigit (index : Byte) (glyph : Byte) : Statement (.setdigit index glyph) := fun _ _ _ => rfl

theorem writeall : Statement .writeall := fun _ _ _ => rfl

theorem setblink (rate : Byte) : Statement (.setblink rate) := fun _ _ _ => rfl

theorem setosc (on : Byte) : Statement (.setosc on) := fun _ _ _ => rfl

theorem setdisp (on : Byte) : Statement (.setdisp on) := fun _ _ _ => rfl

theorem setdim (level : Byte) : Statement (.setdim level) := fun _ _ _ => rfl

theorem blinkn (n : Byte) : Statement (.blinkn n) := fun _ _ _ => rfl

theorem takeroll : Statement .takeroll := fun _ _ _ => rfl

theorem getcnt : Statement .getcnt := fun _ _ _ => rfl

theorem getstate : Statement .getstate := fun _ _ _ => rfl

theorem setstate (b : BoardState) : Statement (.setstate b) := fun _ _ _ => rfl

theorem getaf : Statement .getaf := fun _ _ _ => rfl

theorem mainloop : Statement .mainloop := fun _ _ _ => rfl

theorem tickTo : Statement .tickTo := fun _ _ _ => rfl

theorem tickCd (pir : Bool) : Statement (.tickCd pir) := fun _ _ _ => rfl

theorem pwmUnderflow : Statement .pwmUnderflow := fun _ _ _ => rfl

theorem sensorEdge : Statement .sensorEdge := fun _ _ _ => rfl

theorem peerComplete (f : PeerFlags) (d : Byte) : Statement (.peerComplete f d) := fun _ _ _ => rfl

theorem busFault : Statement .busFault := fun _ _ _ => rfl

theorem inputs (mask : Byte) : Statement (.inputs mask) := fun _ _ _ => rfl

end Sys2Proof.Laws.EncodeLength
end

