-- ==== Sys2Proof/Tests/Slice0.lean ====
section
/-! SUPPORT. Tests: the well-formedness checks and the decoder refuse what they should; every operation's bytes decode;
one step of each operation against 95_test_vectors.md (configuration CFG-A); and, for each statement with hypotheses, a
state and operands that meet them. -/

namespace Sys2Proof.Machine.Tests

/-! ## Helpers -/

/-- The outcome is a next state with this property. -/
def nextIs (o : Out) (p : State → Bool) : Bool :=
  match o with
  | .next t => p t
  | .fault _ => false
  | .refused _ => false

/-- The outcome is this refusal. -/
def refusedAs (o : Out) (r : Refusal) : Bool :=
  match o with
  | .next _ => false
  | .fault _ => false
  | .refused r' => decide (r' = r)

/-- After reset and `INIT`. -/
def started : State := { State.reset with enabled := true, busTrace := [.init] }

/-- With the bus owned. -/
def owning : State := { started with owner := true }

/-- Blocked in a host's wait of budget 2 after the issue of a write. -/
def waiting : State := { owning with pending := .write, ctl := .wait 2 .host }

/-- Counting down, as `SETSTATE 3` leaves it. -/
def counting : State := enter .countingDown started

/-- In `WAITING_ARMED`. -/
def armed : State := enter .waitingArmed started

def emptyPeer : Peer where
  mem := []
  ptr := 0
  dev := 0
  first := false

/-! ## Well-formedness -/

theorem test_illFormed_rdblk_count_zero : (Instr.rdblk 0x70 0 0).wellFormed 4 = false := by decide
theorem test_illFormed_wrblk_too_long :
    (Instr.wrblk 0x70 0 (List.replicate 256 0)).wellFormed 4 = false := by decide +kernel
theorem test_illFormed_inputs_missing_input : (Instr.inputs 0x10).wellFormed 4 = false := by decide
theorem test_wellFormed_boundary : (Instr.inputs 0x0F).wellFormed 4 = true ∧ (Instr.inputs 0xFF).wellFormed 8 = true ∧
    (Instr.rdblk 0x7F 0xFF 1).wellFormed 4 = true := by decide

/-! ## Decoding (95_test_vectors.md, section 2) -/

theorem test_decode_init : decode 4 [0x01] = .ok (.init, []) := by decide
theorem test_decode_start : decode 4 [0x02, 0xE0] = .ok (.start 0xE0, []) := by decide
theorem test_decode_rstart : decode 4 [0x03, 0xE1] = .ok (.rstart 0xE1, []) := by decide
theorem test_decode_wbyte : decode 4 [0x04, 0x21] = .ok (.wbyte 0x21, []) := by decide
theorem test_decode_rbyte : decode 4 [0x05, 0x01] = .ok (.rbyte .ack, []) ∧
    decode 4 [0x05, 0x00] = .ok (.rbyte .nack, []) := by decide
theorem test_decode_stop : decode 4 [0x06] = .ok (.stop, []) := by decide
theorem test_decode_recover : decode 4 [0x07] = .ok (.recover, []) := by decide
theorem test_decode_rdblk : decode 4 [0x10, 0x70, 0x10, 0x02] = .ok (.rdblk 0x70 0x10 2, []) := by decide
theorem test_decode_wrblk :
    decode 4 [0x11, 0x70, 0x10, 0x02, 0xDE, 0xAD, 0x06] = .ok (.wrblk 0x70 0x10 [0xDE, 0xAD], [0x06]) ∧
    decode 4 [0x11, 0x70, 0x81, 0x00] = .ok (.wrblk 0x70 0x81 [], []) := by decide
theorem test_decode_setdigit : decode 4 [0x20, 0x04, 0x07] = .ok (.setdigit 4 7, []) := by decide
theorem test_decode_writeall : decode 4 [0x21] = .ok (.writeall, []) := by decide
theorem test_decode_setblink : decode 4 [0x22, 0x02] = .ok (.setblink 2, []) := by decide
theorem test_decode_setosc : decode 4 [0x23, 0x01] = .ok (.setosc 1, []) := by decide
theorem test_decode_setdisp : decode 4 [0x24, 0x00] = .ok (.setdisp 0, []) := by decide
theorem test_decode_setdim : decode 4 [0x25, 0x0F] = .ok (.setdim 15, []) := by decide
theorem test_decode_blinkn : decode 4 [0x26, 0x02] = .ok (.blinkn 2, []) := by decide
theorem test_decode_takeroll : decode 4 [0x30] = .ok (.takeroll, []) := by decide
theorem test_decode_getcnt : decode 4 [0x31] = .ok (.getcnt, []) := by decide
theorem test_decode_getstate : decode 4 [0x32] = .ok (.getstate, []) := by decide
theorem test_decode_setstate : decode 4 [0x33, 0x03] = .ok (.setstate .countingDown, []) := by decide
theorem test_decode_getaf : decode 4 [0x34] = .ok (.getaf, []) := by decide
theorem test_decode_mainloop : decode 4 [0x40] = .ok (.mainloop, []) := by decide
theorem test_decode_tickTo : decode 4 [0x80] = .ok (.tickTo, []) := by decide
theorem test_decode_tickCd : decode 4 [0x81, 0x01] = .ok (.tickCd true, []) := by decide
theorem test_decode_pwmUnderflow : decode 4 [0x82] = .ok (.pwmUnderflow, []) := by decide
theorem test_decode_sensorEdge : decode 4 [0x83] = .ok (.sensorEdge, []) := by decide
theorem test_decode_peerComplete :
    decode 4 [0x84, 0x04, 0x00] = .ok (.peerComplete { berr := false, arb := false, nack := true } 0x00, []) ∧
    decode 4 [0x84, 0x03, 0x00] = .ok (.peerComplete { berr := true, arb := true, nack := false } 0x00, []) := by
  decide
theorem test_decode_busFault : decode 4 [0x85] = .ok (.busFault, []) := by decide
theorem test_decode_inputs : decode 4 [0x86, 0x04] = .ok (.inputs 0x04, []) := by decide

theorem test_decode_refuses_reserved :
    [0x00, 0x08, 0x12, 0x27, 0x35, 0x41, 0x7F, 0x87, 0xFF].all
      (fun op => decide (decode 4 [op, 0, 0, 0] = .error (.reserved op))) = true := by decide
theorem test_decode_refuses_illegal :
    decode 4 [0x05, 0x02] = .error (.illegal 0x05) ∧ decode 4 [0x10, 0x70, 0x00, 0x00] = .error (.illegal 0x10) ∧
    decode 4 [0x10, 0x80, 0x00, 0x01] = .error (.illegal 0x10) ∧ decode 4 [0x33, 0x07] = .error (.illegal 0x33) ∧
    decode 4 [0x84, 0x08, 0x00] = .error (.illegal 0x84) ∧ decode 4 [0x81, 0x02] = .error (.illegal 0x81) ∧
    decode 4 [0x86, 0x10] = .error (.illegal 0x86) := by decide
theorem test_decode_refuses_truncated : decode 4 [0x11, 0x70, 0x00, 0x02, 0xAA] = .error (.truncated 0x11) := by
  decide

/-- Table rows: an operand byte the table gives no bit is 0, and `RDBLK`'s count 0 is illegal (R108). -/
theorem test_table_words : decodeTableWord 8 0x02 = some (.start 0) ∧ decodeTableWord 16 0xE002 = some (.start 0xE0) ∧
    decodeTableWord 8 0x10 = none ∧ decodeTableWord 32 0x02107010 = some (.rdblk 0x70 0x10 2) := by decide +kernel

/-- Address bytes (section 2). -/
theorem test_address_bytes : addressByte 0x70 false = 0xE0 ∧ addressByte 0x70 true = 0xE1 ∧
    addressByte 0x7F true = 0xFF ∧ addressByte 0 false = 0 := by decide

/-! ## One step of each operation -/

/-- VB18. -/
theorem test_init : nextIs (exec .init { owning with flagBerr := true })
    (fun t => t.enabled && !t.owner && !t.flagBerr && t.busTrace == [.init, .init]) = true := by decide
/-- VB1. -/
theorem test_start : nextIs (exec (.start 0xE0) started)
    (fun t => t.owner && t.data == 0xE0 && t.pending == .addr && t.busTrace == [.init, .addr 0xE0 false]) = true := by
  decide
/-- VB16, VB17. -/
theorem test_start_refused : refusedAs (exec (.start 0xE0) State.reset) .engineDisabled = true ∧
    refusedAs (exec (.start 0xE0) owning) .alreadyOwner = true := by decide
/-- R142's example. -/
theorem test_rstart : nextIs (exec (.rstart 0xE1) owning)
    (fun t => t.pending == .addr && t.busTrace == [.init, .addr 0xE1 true]) = true := by decide
/-- VB6: a budget of 0. -/
theorem test_wbyte_zero_budget :
    nextIs (exec (.wbyte 0x21) { owning with cfg := { Config.cfgA with toWrite := 0 } })
      (fun t => t.result == .code .timeout && t.owner && t.busTrace == [.init, .write 0x21]) = true := by decide
/-- VB10. -/
theorem test_wbyte_not_owner : nextIs (exec (.wbyte 0) started)
    (fun t => t.result == .code .masterNotOwner && t.busTrace == [.init]) = true := by decide
/-- VB15: the command carries the policy just latched. -/
theorem test_rbyte : nextIs (exec (.rbyte .ack) owning)
    (fun t => t.ackPolicy == .ack && t.busTrace == [.init, .read .ack]) = true := by decide
/-- VB2. -/
theorem test_stop : nextIs (exec .stop owning)
    (fun t => !t.owner && t.result == .code .ok && t.busTrace == [.init, .stop]) = true := by decide
/-- VC8: legal before `INIT`. -/
theorem test_recover : nextIs (exec .recover State.reset) (fun t => t.busTrace == [.recRelease]) = true := by decide
/-- VC12. -/
theorem test_wrblk_owner : refusedAs (exec (.wrblk 0x70 0 [1]) owning) .alreadyOwner = true := by decide
/-- VC6: the fail-fast start puts nothing on the bus. -/
theorem test_wrblk_latched : nextIs (exec (.wrblk 0x70 0 [0x3F]) { started with flagBerr := true })
    (fun t => t.busTrace == [.init] && t.ctl == .run (.block (.recover recoveryPlan) .hostWrite)) = true := by decide
/-- VC5's first byte. -/
theorem test_rdblk : nextIs (exec (.rdblk 0x70 0x05 3) started)
    (fun t => t.busTrace == [.init, .addr 0xE0 false]) = true := by decide
/-- VD1. -/
theorem test_setdigit : nextIs (exec (.setdigit 4 7) started) (fun t => t.dispBuf == #v[0, 0, 0, 0, 7]) = true ∧
    nextIs (exec (.setdigit 4 11) started) (fun t => t.dispBuf == #v[0, 0, 0, 0, 0]) = true := by decide
/-- VD2. -/
theorem test_setdigit_separator : nextIs (exec (.setdigit 2 200) started)
    (fun t => t.dispBuf == #v[0, 0, 1, 0, 0]) = true := by decide
/-- VD12. -/
theorem test_writeall_refused :
    refusedAs (exec .writeall { started with dispBuf := #v[200, 0, 0, 0, 0] }) .glyphOutOfRange = true := by decide
/-- VD6, VD7. -/
theorem test_setblink : nextIs (exec (.setblink 2) started)
    (fun t => t.ctl == .wait 2 (.blkStart (.wReg 0x85 []) (.config .host))) = true ∧
    nextIs (exec (.setblink 4) started) (fun t => t.result == .code .ok && t.busTrace == [.init]) = true := by decide
/-- Section 2, command bytes. -/
theorem test_setosc : nextIs (exec (.setosc 1) started)
    (fun t => t.ctl == .wait 2 (.blkStart (.wReg 0x21 []) (.config .host))) = true := by decide
/-- VD10. -/
theorem test_setdisp : nextIs (exec (.setdisp 0) started)
    (fun t => t.ctl == .wait 2 (.blkStart (.wReg 0x80 []) (.config .host))) = true := by decide
/-- Section 2, command bytes. -/
theorem test_setdim : nextIs (exec (.setdim 9) started)
    (fun t => t.ctl == .wait 2 (.blkStart (.wReg 0xE9 []) (.config .host))) = true := by decide
/-- VD11. -/
theorem test_blinkn : nextIs (exec (.blinkn 1) started) (fun t => t.led && t.outTrace == [.led true]) = true ∧
    nextIs (exec (.blinkn 0) started) (fun t => t.outTrace == [] && t.ctl == .idle) = true := by decide
/-- VT1's third read. -/
theorem test_takeroll : nextIs (exec .takeroll { started with rollover := true })
    (fun t => t.result == .bit true && !t.rollover) = true := by decide
/-- R211's example. -/
theorem test_getcnt : nextIs (exec .getcnt { started with cdCounter := 1234 })
    (fun t => t.result == .counter 1234) = true := by decide
/-- R273's example. -/
theorem test_getstate : nextIs (exec .getstate State.reset) (fun t => t.result == .board .sleeping) = true := by decide
/-- R272's example. -/
theorem test_setstate : nextIs (exec (.setstate .countingDown) { started with afIndex := 5 })
    (fun t => t.boardState == .countingDown && t.afEnable && t.afIndex == 0 && t.cdtIe && !t.wakeIe) = true := by
  decide
/-- VA2. -/
theorem test_getaf : nextIs (exec .getaf { started with afIndex := 3 }) (fun t => t.result == .counter 3) = true := by
  decide
/-- VS10. -/
theorem test_mainloop_armed : nextIs (exec .mainloop armed)
    (fun t => t.result == .none && t.ctl == .idle && t.boardState == .waitingArmed) = true := by decide
/-- VB19: outside a wait the counter wraps. -/
theorem test_tickTo_wraps : nextIs (exec .tickTo { started with toCount := 0xFFFF }) (fun t => t.toCount == 0) = true := by
  decide
/-- VB12: the timeout outranks the bus error. -/
theorem test_tickTo_over : nextIs (exec .tickTo { waiting with toCount := 1, flagBerr := true })
    (fun t => t.result == .code .timeout && t.flagBerr && t.pending == .none) = true := by decide
/-- VT1: the third tick. -/
theorem test_tickCd_rollover : nextIs (exec (.tickCd false) { counting with cdCounter := 1 })
    (fun t => t.rollover && t.cdCounter == 3) = true := by decide
/-- VT5: the third active tick. -/
theorem test_tickCd_commits : nextIs (exec (.tickCd true) { armed with pirHigh := 2 })
    (fun t => t.boardState == .countingDown && t.pirHigh == 0 && t.afEnable) = true := by decide
/-- VA1: the second underflow wraps. -/
theorem test_pwmUnderflow_siren : nextIs (exec .pwmUnderflow { counting with afIndex := 1 })
    (fun t => t.pwmCompare == 0x20 && t.afIndex == 0) = true := by decide
/-- VA2: nothing after the last sample. -/
theorem test_pwmUnderflow_exhausted :
    nextIs (exec .pwmUnderflow { enter .success started with afIndex := 3, pwmCompare := 3 })
      (fun t => t.pwmCompare == 3 && t.afIndex == 3 && t.outTrace == []) = true := by decide
/-- VT10. -/
theorem test_sensorEdge : nextIs (exec .sensorEdge { started with lowpower := true })
    (fun t => !t.lowpower && t.boardState == .waitingArmed && t.cdtIe && !t.wakeIe) = true := by decide
/-- VB4: the bus error outranks the decline. -/
theorem test_peerComplete_priority :
    nextIs (exec (.peerComplete { berr := true, arb := false, nack := true } 0) waiting)
      (fun t => t.result == .code .busError && t.owner) = true := by decide
/-- VB9: a read is not declined. -/
theorem test_peerComplete_read :
    nextIs (exec (.peerComplete { berr := false, arb := false, nack := true } 0x5A)
        { waiting with pending := .read, ctl := .wait 2 .hostRead })
      (fun t => t.result == .byte .ok (some 0x5A) && !t.flagNack) = true := by decide
/-- R137's example. -/
theorem test_busFault : nextIs (exec .busFault started) (fun t => t.flagBerr && !t.flagTc) = true := by decide
/-- VT13. -/
theorem test_inputs : nextIs (exec (.inputs 1) { started with lowpower := true })
    (fun t => t.inputs == 1 && t.lowpower) = true := by decide

/-! ## The healthy peer -/

/-- R78: the answer may come after a tick, and comes before the tick that would reach the budget. -/
theorem test_servedStep_beforeTheBudget :
    (servedStep (fun _ => 0x77) [.tick, .tick, .inputs 1] ({ waiting with busTrace := [.write 0x3F] }, emptyPeer)).map
        (fun tq => (tq.1.result, tq.1.toCount, tq.1.inputs, tq.1.busTrace)) =
      some (.code .ok, 1, 1, [.write 0x3F, .complete noFlags 0x77]) := by decide
/-- VC10: the pointer wraps after register 255. -/
theorem test_peerAnswer_wraps :
    peerAnswer 0 (.write 0x01) { emptyPeer with dev := 0x70, ptr := 0xFF } =
      some ({ mem := [(256 * 0x70 + 0xFF, 0x01)], dev := 0x70, ptr := 0x00, first := false }, 0) := by decide

/-! ## The fetch -/

/-- A table word placed on the reset state is the next operation. -/
theorem test_fetch_word : nextIs (step (State.reset.withFetchWord 8 0x01)) (fun t => t.enabled && t.cmds == []) = true ∧
    nextIs (step (State.reset.withFetchWord 8 0x85)) (fun t => t.flagBerr && t.events == []) = true := by
  decide +kernel

/-- With nothing to do the machine is quiescent. -/
theorem test_quiescent : (match step State.reset with | .fault f => decide (f = .quiescent) | _ => false) = true := by
  decide +kernel

/-! ## Witnesses: for each statement with hypotheses, values that meet them together -/

theorem next_of {o : Out} {p : State → Bool} (h : nextIs o p = true) : ∃ t, o = .next t ∧ p t = true := by
  cases o with
  | next t => exact ⟨t, rfl, h⟩
  | fault f => cases h
  | refused r => cases h

/-- The engine's invariant for a host between commands. -/
theorem engine_idle {s : State} (hc : s.ctl = .idle) (hp : s.pending = .none) (ho : s.owner = true → s.enabled = true) :
    EngineConsistent s :=
  ⟨by simp [hc, hp], by simp [hc], ho, by simp [hc]⟩

/-- The engine's invariant for a host in a job. -/
theorem engine_run {s : State} {j : Job} (hc : s.ctl = .run j) (hp : s.pending = .none)
    (ho : s.owner = true ∧ s.enabled = true) : EngineConsistent s :=
  ⟨by simp [hc, hp], by simp [hc], fun _ => ho.2, fun _ _ _ _ => ho.1⟩

/-- The invariant's parts that are decided by evaluation, for states in `COUNTING_DOWN`, `SLEEPING` or `DONE`. -/
def lifeOk (s : State) : Bool :=
  s.cdCounter != 0 && decide (s.cdCounter ≤ s.cfg.cdStart) && s.blinkPhase != 0 &&
    decide (s.pirHigh < s.cfg.thActive) && decide (s.pirLow < s.cfg.thInactive) && (s.pirHigh == 0 || s.pirLow == 0) &&
    (s.wakeIe == decide (s.boardState = .sleeping)) && maskFits s.cfg.nInputs s.inputs &&
    decide (s.safeIdx < s.cfg.nInputs) && decide (s.afIndex.toNat < s.cfg.siren.length) &&
    ((s.boardState == .sleeping && !s.cdtIe && !s.afEnable) || (s.boardState == .countingDown && s.cdtIe && s.afEnable)
      || (s.boardState == .done && !s.cdtIe && !s.afEnable))

theorem inv_of {s : State} (h : lifeOk s = true) (e : EngineConsistent s) : Inv s := by
  simp only [lifeOk, Bool.and_eq_true, Bool.or_eq_true, bne_iff_ne, beq_iff_eq, decide_eq_true_eq,
    Bool.not_eq_true'] at h
  obtain ⟨⟨⟨⟨⟨⟨⟨⟨⟨⟨h1, h2⟩, h3⟩, h4⟩, h5⟩, h6⟩, h7⟩, h8⟩, h9⟩, h10⟩, h11⟩ := h
  refine ⟨⟨h1, h2, h3, h4, h5, h6⟩, ?_, ?_, ⟨h9, h8⟩, e⟩
  · rcases h11 with (⟨⟨hb, hc⟩, ha⟩ | ⟨⟨hb, hc⟩, ha⟩) | ⟨⟨hb, hc⟩, ha⟩ <;>
      exact ⟨by simp [h7], by simp [hb, hc], by simp [hb, hc], by simp [hb, ha], by simp [hb, ha]⟩
  · refine ⟨fun _ => h10, ?_, ?_⟩ <;> intro hb <;> simp [hb] at h11

theorem busReady_of {s : State}
    (h : (decide (s.ctl = .idle) && s.enabled && !s.owner && !s.flagBerr && s.cfg.toAddr != 0 && s.cfg.toRead != 0 &&
      s.cfg.toWrite != 0) = true) : BusReady s := by
  simp only [Bool.and_eq_true, bne_iff_ne, decide_eq_true_eq, Bool.not_eq_true'] at h
  obtain ⟨⟨⟨⟨⟨⟨h1, h2⟩, h3⟩, h4⟩, h5⟩, h6⟩, h7⟩ := h
  exact ⟨h1, h2, h3, h4, h5, h6, h7⟩

theorem admitted_cfgA : admitted Config.cfgA = true := by decide
theorem inv_started : Inv started := inv_of (by decide) (engine_idle rfl rfl (by decide))
theorem inv_counting : Inv counting := inv_of (by decide) (engine_idle rfl rfl (by decide))
theorem ready_started : BusReady started := busReady_of (by decide)
theorem ready_counting : BusReady counting := busReady_of (by decide)

/-! ### Encoding and the step -/

theorem witness_DecodeEncode : (Instr.rdblk 0x7F 0xFF 1).wellFormed 4 = true ∧
    (Instr.rdblk 0x7F 0xFF 0xFF).wellFormed 4 = true ∧ (Instr.inputs 0x0F).wellFormed 4 = true ∧
    (Instr.wrblk 0x00 0x00 (List.replicate 255 0)).wellFormed 4 = true := by decide +kernel
theorem witness_EncodeDecode : decode 4 [0x86, 0x0F, 0x01] = .ok (.inputs 0x0F, [0x01]) ∧
    ([0x11, 0x70, 0x00, 0x01] : List Byte).length < streamLength [0x11, 0x70, 0x00, 0x01] ∧
    ([0x02] : List Byte).length < streamLength [0x02] := by decide
theorem witness_InvalidEncodingsRefused : 1 < (2 : Byte).toNat ∧ 7 < (8 : Byte).toNat ∧ 2 ^ 4 ≤ (0x10 : Byte).toNat ∧
    6 < (7 : Byte).toNat ∧ 127 < (0x80 : Byte).toNat ∧ (0 : Byte).toNat ≤ ([] : List Byte).length := by decide

/-- Two commands to come, alone and with an event and the host's turn. -/
theorem witness_StepRunsDecodedCommand :
    decode 4 [0x07, 0x01] = .ok (.recover, [0x01]) ∧ Instr.recover.isEvent = false ∧
    ({ started with cmds := [0x07, 0x01] } : State).events = [] ∧
    ({ started with cmds := [0x07, 0x01], events := [0x85], sched := [.host] } : State).sched.head? = some .host := by
  decide
theorem witness_StepRunsDecodedEvent : decode 4 [0x85, 0x80] = .ok (.busFault, [0x80]) ∧ Instr.busFault.isEvent = true ∧
    hostReady { started with events := [0x85] } = false ∧ hostReady { started with cmds := [0x07] } = true ∧
    ({ started with cmds := [0x07], events := [0x85], sched := [.env] } : State).sched.head? = some .env := by decide
theorem witness_PlacedOperationRunsNext : admitted started.cfg = true ∧ (Instr.inputs 0x0F).wellFormed 4 = true ∧
    (Instr.inputs 0x0F).isEvent = true ∧ (Instr.rdblk 0 0 1).wellFormed 4 = true ∧
    (Instr.rdblk 0 0 1).isEvent = false := by decide
theorem witness_CommandStepsAreSteps : ∃ s t : State, admitted s.cfg = true ∧ s.events = [] ∧ s.ctl ≠ .run .loopGate ∧
    hostSteps 12 s = .next t ∧ t.ctl = .idle := by
  obtain ⟨t, ht, hp⟩ := next_of (o := hostSteps 12 (runJob (.recover recoveryPlan) started))
    (p := fun t => decide (t.ctl = .idle)) (by decide)
  exact ⟨runJob (.recover recoveryPlan) started, t, by decide, rfl, by decide, ht, by simpa using hp⟩
theorem witness_RefusedByTheModel : admitted { Config.cfgA with nInputs := 9 } = false ∧
    State.reset.ctl = .idle ∧ State.reset.enabled = false ∧ (digitSegments Config.cfgA State.reset.dispBuf 0).isSome ∧
    digitSegments Config.cfgA #v[11, 0, 0, 0, 0] 0 = none ∧
    waiting.ctl ≠ .idle ∧ Instr.init.isEvent = false ∧ (Instr.rdblk 0 0 1).wellFormed 4 = true := by decide
/-- `MAINLOOP` with the engine disabled, in `COUNTING_DOWN` and in `SLEEPING` with an input activated. -/
theorem witness_RefusedByTheModel_mainloop : (enter .countingDown State.reset).ctl = .idle ∧
    (enter .countingDown State.reset).enabled = false ∧ (enter .countingDown State.reset).lowpower = false ∧
    (enter .countingDown State.reset).boardState = .countingDown ∧ State.reset.lowpower = false ∧
    State.reset.boardState = .sleeping ∧ ({ State.reset with inputs := 0x08 } : State).inputs ≠ 0 := by decide

/-! ### Reset and invariants -/

theorem witness_ResetMeetsInv : admitted Config.cfgA = true ∧ drawFits Config.cfgA Draws.cfgA ∧
    drawFits Config.cfgA { Draws.cfgA with safeIdx := 3, inputs := 0x0F } :=
  ⟨by decide, ⟨by decide, by decide⟩, ⟨by decide, by decide⟩⟩

/-- A step from a state in the middle of a game: also for the statements about every step. -/
theorem witness_StepKeepsInv : ∃ s t : State, Inv s ∧ step s = .next t ∧ t.boardState = .countingDown ∧ t.rollover := by
  obtain ⟨t, ht, hp⟩ := next_of (o := step { counting with cdCounter := 1, events := [0x81, 0x00] })
    (p := fun t => decide (t.boardState = .countingDown ∧ t.rollover = true)) (by decide +kernel)
  exact ⟨_, t, inv_of (by decide) (engine_idle rfl rfl (by decide)), ht, by simpa using hp⟩
theorem witness_ConfigAndSafeIndexFixed : ∃ s t : State, step s = .next t ∧ t.boardState = .success := by
  obtain ⟨t, ht, hp⟩ := next_of (o := step { started with cmds := [0x33, 0x04] })
    (p := fun t => decide (t.boardState = .success)) (by decide +kernel)
  exact ⟨_, t, ht, by simpa using hp⟩
theorem witness_GlyphsStayInRange : ∃ s t : State, glyphsInRange s ∧ step s = .next t ∧ t.dispBuf ≠ s.dispBuf := by
  obtain ⟨t, ht, hp⟩ := next_of (o := step { started with cmds := [0x20, 0x04, 0x0A] })
    (p := fun t => decide (t.dispBuf ≠ started.dispBuf)) (by decide +kernel)
  exact ⟨_, t, by unfold glyphsInRange; decide, ht, of_decide_eq_true hp⟩
theorem witness_HistoriesOnlyGrow : ∃ s t : State, step s = .next t ∧ t.outTrace ≠ s.outTrace := by
  obtain ⟨t, ht, hp⟩ := next_of (o := step { started with cmds := [0x26, 0x01] })
    (p := fun t => decide (t.outTrace ≠ [])) (by decide +kernel)
  exact ⟨_, t, ht, of_decide_eq_true hp⟩
theorem witness_HandlersKeepToTheirElements : nextIs (exec (.tickCd true) counting) (fun _ => true) = true ∧
    nextIs (exec .pwmUnderflow counting) (fun _ => true) = true ∧
    nextIs (exec .sensorEdge started) (fun _ => true) = true := by decide
theorem witness_BusOperationsFrame : nextIs (exec (.wrblk 0x70 0 [1]) started) (fun _ => true) = true ∧
    nextIs (exec (.peerComplete noFlags 0) waiting) (fun _ => true) = true ∧
    nextIs (hostStep (.block (.stop []) .hostWrite) owning) (fun _ => true) = true ∧
    nextIs (hostStep (.digit 4 .ok .host) started) (fun _ => true) = true ∧
    nextIs (hostStep (.recover recoveryPlan) started) (fun _ => true) = true := by decide
theorem witness_EventsChangeBoardState :
    nextIs (exec .sensorEdge started) (fun t => t.boardState == .waitingArmed) = true ∧
    nextIs (exec (.tickCd true) { armed with pirHigh := 2 }) (fun t => t.boardState == .countingDown) = true ∧
    nextIs (exec (.tickCd false) { armed with pirLow := 1 }) (fun t => t.boardState == .sleeping) = true := by decide
theorem witness_DoneIsTerminal : ∃ s t : State, Inv s ∧ s.boardState = .done ∧ s.lowpower = true ∧
    s.ctl = .run .loopGate ∧ step s = .next t ∧ t.inputs = 0x0F := by
  obtain ⟨t, ht, hp⟩ := next_of
    (o := step { enter .done owning with lowpower := true, ctl := .run .loopGate, events := [0x86, 0x0F] })
    (p := fun t => decide (t.inputs = 0x0F)) (by decide +kernel)
  exact ⟨_, t, inv_of (by decide) (engine_run (j := .loopGate) rfl rfl (by decide)), rfl, rfl, rfl, ht, of_decide_eq_true hp⟩

/-! ### The bus engine -/

theorem witness_InitRearms : State.reset.ctl = .idle ∧ owning.ctl = .idle := by decide
theorem witness_StartIssuesAndWaits : started.ctl = .idle ∧ started.enabled = true ∧ started.owner = false ∧
    started.flagBerr = false ∧ started.cfg.toAddr ≠ 0 ∧
    ({ started with cfg := { Config.cfgA with toAddr := 0 } } : State).cfg.toAddr = 0 := by decide
theorem witness_StartWithoutIssue : started.ctl = .idle ∧ started.enabled = true ∧ started.owner = false ∧
    ({ started with flagBerr := true } : State).flagBerr = true ∧ owning.owner = true ∧ owning.enabled = true := by
  decide
theorem witness_OwnedTransfersIssue : owning.ctl = .idle ∧ owning.enabled = true ∧ owning.owner = true ∧
    owning.cfg.toAddr ≠ 0 ∧ owning.cfg.toWrite ≠ 0 ∧ owning.cfg.toRead ≠ 0 := by decide
/-- The clauses for budgets of 0. -/
theorem witness_OwnedTransfersIssue_zero : ∃ s : State, s.ctl = .idle ∧ s.enabled = true ∧ s.owner = true ∧
    s.cfg.toAddr = 0 ∧ s.cfg.toWrite = 0 ∧ s.cfg.toRead = 0 :=
  ⟨{ owning with cfg := { Config.cfgA with toAddr := 0, toWrite := 0, toRead := 0 } }, by decide⟩
theorem witness_NotOwnerChangesNothing : started.ctl = .idle ∧ started.enabled = true ∧ started.owner = false := by
  decide
theorem witness_StopReleasesTheBus : owning.ctl = .idle ∧ owning.enabled = true ∧ owning.owner = true := by decide
theorem witness_TimeoutAtExactlyTheBudget : (2 : Counter) ≠ 0 ∧ waiting.ctl = .wait 2 .host ∧ waiting.flagTc = false ∧
    waiting.toCount = 0 ∧ waiting.toCount.toNat + 1 < (2 : Counter).toNat ∧
    ({ waiting with ctl := .wait 1 .hostRead } : State).ctl = .wait 1 .hostRead ∧
    ({ waiting with ctl := .wait 5 (.blkNext (.stop []) (.config .host)), toCount := 3 } : State).toCount.toNat + 1 <
      (5 : Counter).toNat := by decide
/-- Outside a wait. -/
theorem witness_TimeoutAtExactlyTheBudget_outside : ∀ b w, started.ctl ≠ .wait b w := by
  intro b w h
  cases h
theorem witness_CompletionEndsTheWait : waiting.ctl = .wait 2 .host ∧ (1 : Counter) < 2 ∧ waiting.toCount < 2 ∧
    waiting.pending = .write ∧ ({ waiting with pending := .read, ctl := .wait 2 .hostRead } : State).pending = .read ∧
    started.pending = .none := by decide
theorem witness_BusFaultLatches : ∃ s t : State, s.flagBerr = true ∧ step s = .next t ∧ t.flagBerr = false := by
  obtain ⟨t, ht, hp⟩ := next_of (o := step { started with flagBerr := true, cmds := [0x01] })
    (p := fun t => decide (t.flagBerr = false)) (by decide +kernel)
  exact ⟨_, t, rfl, ht, of_decide_eq_true hp⟩
theorem witness_RecoverRunsInFull : State.reset.ctl = .idle := rfl

/-! ### Block operations -/

theorem witness_BlockOperationsBegin : started.ctl = .idle ∧ started.enabled = true ∧ started.owner = false ∧
    started.flagBerr = false ∧ started.cfg.toAddr ≠ 0 ∧ owning.owner = true ∧ (1 : Byte) ≠ 0 ∧
    ({ started with cfg := { Config.cfgA with toAddr := 0 } } : State).cfg.toAddr = 0 ∧
    ([] : List Byte).length ≤ 255 ∧ (List.replicate 255 (0 : Byte)).length ≤ 255 ∧
    255 < (List.replicate 256 (0 : Byte)).length := by
  decide +kernel
theorem witness_BlockFailureRecovers : ∃ (s : State) (f : PeerFlags), s.ctl = .wait 2 (.blkNext (.stop []) .hostWrite) ∧
    s.toCount < 2 ∧ s.pending ≠ .none ∧ f.nack = true ∧ s.pending ≠ .read ∧ s.toCount + 1 = 2 :=
  ⟨{ waiting with ctl := .wait 2 (.blkNext (.stop []) .hostWrite), toCount := 1 },
    { berr := false, arb := false, nack := true }, by decide⟩
/-- The initial start, and a read, with the bus error only. -/
theorem witness_BlockFailureRecovers_start : ∃ (s : State) (f : PeerFlags),
    s.ctl = .wait 2 (.blkStart (.rReg 0x70 0 1) .hostRead) ∧ s.toCount < 2 ∧ s.pending = .addr ∧ f.berr = true :=
  ⟨{ waiting with ctl := .wait 2 (.blkStart (.rReg 0x70 0 1) .hostRead), pending := .addr },
    { berr := true, arb := false, nack := true }, by decide⟩
/-- The ways in at the beginning: a latched bus error, and an address budget of 0, at the last position of `WRITEALL`. -/
theorem witness_BlockFailureRecovers_begin : ∃ s : State, s.enabled = true ∧ s.owner = false ∧ s.flagBerr = true ∧
    s.cfg.toAddr = 0 ∧ ({ s with flagBerr := false } : State).flagBerr = false ∧
    s.ctl = .run (.digit 4 .peerAbsent .host) ∧ (digitSegments s.cfg s.dispBuf 4).isSome :=
  ⟨{ started with
      flagBerr := true, cfg := { Config.cfgA with toAddr := 0 }, ctl := .run (.digit 4 .peerAbsent .host) }, by decide⟩
/-- The main loop's display operations, at the beginning. -/
theorem witness_BlockFailureRecovers_loop : ∃ s s' : State, s.enabled = true ∧ s.owner = false ∧ s.flagBerr = true ∧
    s.ctl = .run (.loop [.writeAll, .setBlink 3]) ∧ (digitSegments s.cfg s.dispBuf 0).isSome ∧
    s'.enabled = true ∧ s'.owner = false ∧ s'.flagBerr = false ∧ s'.cfg.toAddr = 0 ∧ (3 : Byte).toNat ≤ 3 ∧
    s'.ctl = .run (.loop [.setBlink 3]) :=
  ⟨{ started with flagBerr := true, ctl := .run (.loop [.writeAll, .setBlink 3]) },
    { started with cfg := { Config.cfgA with toAddr := 0 }, ctl := .run (.loop [.setBlink 3]) }, by decide⟩
/-- The ways in inside: the repeated start, a byte sent and the last byte read, each with a budget of 0. -/
theorem witness_BlockFailureRecovers_inside : ∃ s : State, s.enabled = true ∧ s.owner = true ∧ s.cfg.toAddr = 0 ∧
    s.cfg.toWrite = 0 ∧ s.cfg.toRead = 0 ∧ s.ctl = .run (.block (.rByte 1 [0x11]) .hostRead) ∧
    ({ s with ctl := .run (.block (.rRestart 0x70 2) .hostRead) } : State).ctl =
      .run (.block (.rRestart 0x70 2) .hostRead) ∧
    ({ s with ctl := .run (.block (.wData [0x3F]) (.config .host)) } : State).ctl =
      .run (.block (.wData [0x3F]) (.config .host)) ∧ (0x70 : BitVec 7) ++ 1#1 = (0xE1 : Byte) :=
  ⟨{ owning with
      cfg := { Config.cfgA with toAddr := 0, toWrite := 0, toRead := 0 },
      ctl := .run (.block (.rByte 1 [0x11]) .hostRead) }, by decide⟩
theorem witness_AbsentPeerIsSparedRecovery : (∃ s : State, s.ctl = .wait 2 (.blkStart (.wReg 0 [1]) .hostWrite) ∧
    s.toCount < 2 ∧ s.pending = .addr ∧ s.enabled = true ∧ s.owner = true ∧ s.flagBerr = false) ∧
    ∃ s : State, s.ctl = .wait 2 (.blkStart (.wReg 0x85 []) (.config (.loop []))) ∧
      s.toCount < 2 ∧ s.pending = .addr ∧ s.owner = true ∧ s.flagBerr = false :=
  ⟨⟨{ waiting with ctl := .wait 2 (.blkStart (.wReg 0 [1]) .hostWrite), pending := .addr, toCount := 1 }, by decide⟩,
    ⟨{ waiting with ctl := .wait 2 (.blkStart (.wReg 0x85 []) (.config (.loop []))), pending := .addr }, by decide⟩⟩
theorem witness_BlockOperationNeverStuck : ∃ s : State, Inv s ∧ s.ctl = .run (.block (.rByte 1 [0x11]) .hostRead) :=
  ⟨{ owning with ctl := .run (.block (.rByte 1 [0x11]) .hostRead) },
    inv_of (by decide) (engine_run (j := .block (.rByte 1 [0x11]) .hostRead) rfl rfl (by decide)), rfl⟩
theorem witness_HealthyWriteThenRead : BusReady started ∧ peerMemWf emptyPeer.mem = true ∧
    ([0xDE, 0xAD] : List Byte) ≠ [] ∧ ([0xDE, 0xAD] : List Byte).length ≤ 255 ∧
    (List.replicate 255 (0 : Byte)).length ≤ 255 ∧
    2 * ([0xDE, 0xAD] : List Byte).length + 8 ≤ (List.replicate 12 [Beside.tick, .timer true]).length :=
  ⟨ready_started, by decide +kernel⟩
theorem witness_RecoveryIsEffective : State.reset.ctl = .idle ∧ State.reset.cfg.toAddr ≠ 0 ∧
    State.reset.cfg.toWrite ≠ 0 ∧ ([] : List Byte).length ≤ 255 ∧ 11 ≤ (List.replicate 11 [Beside.edge]).length ∧
    2 * ([] : List Byte).length + 8 ≤ (List.replicate 8 [Beside.tick]).length := by decide

/-! ### The display -/

theorem witness_SetdigitStoresOrDrops : started.ctl = .idle ∧ (4 : Byte).toNat = (4 : Fin 5).val ∧ (4 : Fin 5).val ≠ 2 ∧
    (10 : Byte).toNat < started.cfg.glyph.length ∧ 4 < (5 : Byte).toNat ∧
    started.cfg.glyph.length ≤ (11 : Byte).toNat := by decide
theorem witness_DisplayCommandsSendOneByte : BusReady started ∧ (3 : Byte).toNat ≤ 3 ∧ (1 : Byte).toNat ≤ 1 ∧
    (15 : Byte).toNat ≤ 15 ∧ started.ctl = .idle ∧ 3 < (4 : Byte).toNat ∧ 1 < (2 : Byte).toNat ∧
    15 < (16 : Byte).toNat ∧ 4 ≤ (List.replicate 4 ([] : List Beside)).length ∧ quiet (List.replicate 4 []) :=
  ⟨ready_started, by decide, by decide, by decide, by decide, by decide, by decide, by decide, by decide,
    fun _ h => List.eq_of_mem_replicate h⟩
/-- The main loop's `SETBLINK` and `WRITEALL`. -/
theorem witness_displayInLoop : ∃ s s' : State, BusReady { s with ctl := .idle } ∧ (3 : Byte).toNat ≤ 3 ∧
    s.ctl = .run (.loop [.setBlink 3]) ∧ BusReady { s' with ctl := .idle } ∧
    s'.ctl = .run (.loop [.writeAll, .setBlink 2]) ∧ digitSegments s'.cfg s'.dispBuf 0 = some 0x3F :=
  ⟨{ started with ctl := .run (.loop [.setBlink 3]) }, { started with ctl := .run (.loop [.writeAll, .setBlink 2]) },
    busReady_of (by decide), by decide, by decide, busReady_of (by decide), by decide, by decide⟩
theorem witness_WriteallBeginsAndGoesOn : BusReady started ∧ started.cfg.glyph[(started.dispBuf[0]).toNat]? = some 0x3F ∧
    started.cfg.glyph.length ≤ (({ started with dispBuf := #v[11, 0, 0, 0, 0] } : State).dispBuf[0]).toNat ∧
    (∃ s : State, BusReady { s with ctl := .idle } ∧ s.ctl = .run (.digit 4 .fail (.loop [])) ∧
      digitSegments s.cfg s.dispBuf 4 = some 0x3F ∧ digitSegments s.cfg #v[0, 0, 0, 0, 11] 4 = none) :=
  ⟨ready_started, by decide, by decide,
    { started with ctl := .run (.digit 4 .fail (.loop [])) }, busReady_of (by decide), by decide⟩
/-- The three ends of a position: the first after an earlier failure, the last two before the last position. -/
theorem witness_WriteallBeginsAndGoesOn_ends :
    (∃ s : State, s.enabled = true ∧ s.owner = true ∧ s.ctl = .run (.block .stopAbsent (.writeAll 4 .fail .host))) ∧
    (∃ s : State, s.ctl = .run (.block (.recover [.reinit]) (.writeAll 3 .ok .host))) ∧
    (∃ s : State, s.enabled = true ∧ s.owner = true ∧
      s.ctl = .run (.block (.stop []) (.writeAll 0 .peerAbsent (.loop [.lowPower])))) :=
  ⟨⟨{ owning with ctl := .run (.block .stopAbsent (.writeAll 4 .fail .host)) }, by decide⟩,
    ⟨{ owning with ctl := .run (.block (.recover [.reinit]) (.writeAll 3 .ok .host)) }, rfl⟩,
    ⟨{ owning with ctl := .run (.block (.stop []) (.writeAll 0 .peerAbsent (.loop [.lowPower]))) }, by decide⟩⟩
theorem witness_WriteallShowsTheBuffer : BusReady started ∧ admitted started.cfg = true ∧
    peerMemWf emptyPeer.mem = true ∧ started.cfg.dispStride ≠ 0 ∧ 34 ≤ (List.replicate 34 [Beside.tick, .edge]).length ∧
    ∀ i, digitSegments started.cfg started.dispBuf i = some (if i.val = 2 then 0 else 0x3F) :=
  ⟨ready_started, by decide⟩
theorem witness_FailedConfigurationBlinks : Config.cfgA.nDiag ≠ 0 ∧ (∃ s : State, s.enabled = true ∧ s.owner = true ∧
    s.cfg = Config.cfgA ∧ s.ctl = .run (.block .stopAbsent (.config .host))) ∧
    (∃ s : State, s.cfg = Config.cfgA ∧ s.ctl = .run (.block (.recover [.reinit]) (.config (.loop [])))) ∧
    ∃ s : State, s.cfg = Config.cfgA ∧ s.ctl = .run (.block (.recover [.reinit]) (.config (.loop [.lowPower]))) :=
  ⟨by decide, ⟨{ owning with ctl := .run (.block .stopAbsent (.config .host)) }, by decide⟩,
    ⟨{ owning with ctl := .run (.block (.recover [.reinit]) (.config (.loop []))) }, by decide⟩,
    ⟨{ owning with ctl := .run (.block (.recover [.reinit]) (.config (.loop [.lowPower]))) }, by decide⟩⟩
theorem witness_BlinknBlinksExactly : started.ctl = .idle ∧ (1 : Byte) ≠ 0 ∧ (255 : Byte) ≠ 0 := by decide

/-! ### Audio, countdown, debounce, inputs -/

theorem witness_SirenRepeats : counting.afEnable = true ∧ counting.boardState = .countingDown ∧
    counting.cfg.siren ≠ [] ∧ counting.cfg.siren.length < 2 ^ 16 ∧ counting.afIndex = 0 ∧
    counting.cfg.siren[(1 : Counter).toNat]? = some 0x20 := by decide
theorem witness_OneShotPlaysOnce : (enter .success started).afEnable = true ∧
    (enter .success started).boardState = .success ∧ (enter .failure started).boardState = .failure ∧
    Config.cfgA.win.length < 2 ^ 16 ∧ (enter .success started).afIndex = 0 ∧
    Config.cfgA.win[(2 : Counter).toNat]? = some 0x03 ∧ Config.cfgA.win.length ≤ (3 : Counter).toNat := by decide
theorem witness_InterruptsWithoutDuty : started.afEnable = false ∧ started.cdtIe = false ∧ armed.wakeIe = false ∧
    ({ armed with afEnable := true } : State).boardState = .waitingArmed ∧
    (enter .wireSetup armed).cdtIe = true ∧ (enter .wireSetup armed).boardState = .wireSetup ∧
    ({ armed with wakeIe := true } : State).boardState ≠ .sleeping := by decide
theorem witness_ReadsHandBackTheElement : started.ctl = .idle := rfl
theorem witness_RolloverAndCounterReads : started.ctl = .idle ∧ Inv started := ⟨rfl, inv_started⟩
theorem witness_CountdownTick : counting.cdtIe = true ∧ counting.boardState = .countingDown := by decide
theorem witness_RolloverAfterExactlyStartTicks : counting.cdtIe = true ∧ counting.boardState = .countingDown ∧
    counting.cfg.cdStart ≠ 0 ∧ counting.cdCounter = counting.cfg.cdStart ∧ counting.rollover = false ∧
    [true, false].length < counting.cfg.cdStart.toNat ∧
    [true, false, true].length = counting.cfg.cdStart.toNat := by decide
theorem witness_DebounceCommitsAtTheThreshold : armed.cdtIe = true ∧ armed.boardState = .waitingArmed ∧
    armed.pirHigh = 0 ∧ armed.pirLow = 0 ∧ armed.cfg.thActive ≠ 0 ∧ armed.cfg.thInactive ≠ 0 ∧
    2 < armed.cfg.thActive.toNat ∧ 1 < armed.cfg.thInactive.toNat ∧ 1 < armed.cfg.thInactive := by decide
theorem witness_SensorEdgeAndInputs : started.wakeIe = true ∧ started.boardState = .sleeping ∧
    (0x0F : Byte).toNat < 2 ^ started.cfg.nInputs ∧ 2 ^ started.cfg.nInputs ≤ (0x10 : Byte).toNat := by decide

/-! ### The control state machine -/

theorem witness_SetstateEnters : started.ctl = .idle := rfl
theorem witness_MainloopWithoutDisplay : started.ctl = .idle ∧ started.lowpower = false ∧
    started.boardState = .sleeping ∧ started.inputs = 0 ∧ (enter .wireSetup started).boardState = .wireSetup ∧
    ({ enter .wireSetup started with inputs := 8 } : State).inputs ≠ 0 ∧ (enter .done started).boardState = .done ∧
    ({ started with lowpower := true } : State).wakeIe = true := by decide
theorem witness_MainloopLeavesAtExhaustion : armed.ctl = .idle ∧ armed.lowpower = false ∧
    armed.boardState = .waitingArmed ∧ armed.cdtIe = true ∧
    armed.cfg.thActive ≤ ({ armed with pirHigh := 2 } : State).pirHigh + 1 ∧
    armed.cfg.thInactive ≤ ({ armed with pirLow := 1 } : State).pirLow + 1 ∧
    (enter .success started).boardState = .success ∧ (enter .success started).afIndex.toNat < Config.cfgA.win.length ∧
    Config.cfgA.lose.length ≤ (2 : Counter).toNat := by decide
theorem witness_GameOutcome : Inv counting ∧ admitted counting.cfg = true ∧ counting.ctl = .idle ∧
    counting.lowpower = false ∧ counting.boardState = .countingDown ∧ counting.enabled = true ∧
    counting.rollover = false ∧ ({ counting with rollover := true } : State).rollover = true :=
  ⟨inv_counting, by decide⟩
/-- With the safe input activated alone, and with two inputs activated. -/
theorem witness_GameOutcome_inputs : (∀ i, i < 8 → ((0x04 : Byte).getLsbD i = true ↔ i = counting.safeIdx)) ∧
    (0x06 : Byte) ≠ 0 ∧ ¬ ∀ i, i < 8 → ((0x06 : Byte).getLsbD i = true ↔ i = counting.safeIdx) := by decide
theorem witness_MainloopActionsBeforeTheBus : Inv started ∧ Inv counting ∧ admitted started.cfg = true ∧
    started.ctl = .idle ∧ started.lowpower = false ∧ started.enabled = true ∧ counting.rollover = false ∧
    ({ counting with inputs := 0x04 } : State).inputs = 1#8 <<< counting.safeIdx ∧
    ({ counting with inputs := 0x01 } : State).inputs ≠ 1#8 <<< counting.safeIdx ∧ counting.inputs = 0 :=
  ⟨inv_started, inv_counting, by decide⟩
/-- An input activated in `SLEEPING`. -/
theorem witness_MainloopActionsBeforeTheBus_sleeping : ∃ s : State, Inv s ∧ admitted s.cfg = true ∧ s.ctl = .idle ∧
    s.lowpower = false ∧ s.enabled = true ∧ s.boardState = .sleeping ∧ s.inputs ≠ 0 :=
  ⟨{ started with inputs := 0x01 }, inv_of (by decide) (engine_idle rfl rfl (by decide)), by decide⟩
theorem witness_StaleBoardStateIsOverwritten : ∃ s : State, s.ctl = .idle ∧ s.lowpower = false ∧
    s.boardState = .sleeping ∧ s.inputs ≠ 0 ∧ s.enabled = true ∧ s.wakeIe = true :=
  ⟨{ started with inputs := 0x01 }, by decide⟩
theorem onlyTicks_replicate (n k : Nat) : onlyTicks (List.replicate n (List.replicate k .tick)) := by
  intro es hes e he
  rw [List.eq_of_mem_replicate hes] at he
  exact List.eq_of_mem_replicate he
theorem witness_SuccessScenario : ∃ s : State, Inv s ∧ BusReady s ∧ admitted s.cfg = true ∧ s.lowpower = false ∧
    s.boardState = .countingDown ∧ s.rollover = false ∧ s.inputs = 1#8 <<< s.safeIdx ∧
    onlyTicks (List.replicate 8 (List.replicate 1 .tick)) :=
  ⟨{ counting with inputs := 0x04 }, inv_of (by decide) (engine_idle rfl rfl (by decide)), busReady_of (by decide),
    by decide, by decide, by decide, by decide, by decide, onlyTicks_replicate _ _⟩
theorem witness_RolloverScenario : Inv counting ∧ BusReady counting ∧ admitted counting.cfg = true ∧
    counting.lowpower = false ∧ counting.boardState = .countingDown ∧ counting.rollover = false ∧
    counting.cdCounter = counting.cfg.cdStart ∧ counting.inputs = 0 ∧
    onlyTicks (List.replicate 46 (List.replicate 1 .tick)) :=
  ⟨inv_counting, ready_counting, by decide, by decide, by decide, by decide, by decide, by decide,
    onlyTicks_replicate _ _⟩

end Sys2Proof.Machine.Tests
end

section
/-! The machine right after power-on. -/

namespace Sys2Proof.Machine

/-- R61, the power-on trigger: the Board State is no part of the configuration or of the draw. -/
@[simp] theorem resetWith_boardState (c : Config) (d : Draws) : (State.resetWith c d).boardState = .sleeping := rfl

/-- Settles O10: `State.reset` is one of the machines after power-on, with CFG-A and its draw. -/
theorem resetIsSleeping : Obligations.ResetIsSleeping :=
  ⟨resetWith_boardState, resetWith_boardState Config.cfgA Draws.cfgA⟩

end Sys2Proof.Machine
end

section
/-! The outcome of a wait, one equation for each code in the order of priority (R134). -/

namespace Sys2Proof.Machine

section
variable {b : Counter} {s : State}

theorem outcome_eq_timeout (hexp : b ≤ s.toCount) : outcome b s = .timeout := if_pos hexp

theorem outcome_eq_busError (hexp : ¬ b ≤ s.toCount) (hberr : s.flagBerr = true) : outcome b s = .busError := by
  simp only [outcome, if_neg hexp, hberr, if_true]

theorem outcome_eq_arbLost (hexp : ¬ b ≤ s.toCount) (hberr : s.flagBerr = false) (harb : s.flagArb = true) :
    outcome b s = .arbLost := by
  simp only [outcome, if_neg hexp, hberr, harb, Bool.false_eq_true, if_true, if_false]

theorem outcome_eq_nack (hexp : ¬ b ≤ s.toCount) (hberr : s.flagBerr = false) (harb : s.flagArb = false)
    (hnack : s.flagNack = true) : outcome b s = .nack := by
  simp only [outcome, if_neg hexp, hberr, harb, hnack, Bool.false_eq_true, if_true, if_false]

theorem outcome_eq_ok (hexp : ¬ b ≤ s.toCount) (hberr : s.flagBerr = false) (harb : s.flagArb = false)
    (hnack : s.flagNack = false) : outcome b s = .ok := by
  simp only [outcome, if_neg hexp, hberr, harb, hnack, Bool.false_eq_true, if_false]

end

/-- Settles O27: the five conditions exclude each other and one of them holds, so each code's equation decides all five
equivalences at once. -/
theorem outcomePriority : Obligations.OutcomePriority := by
  intro b s
  by_cases hexp : b ≤ s.toCount
  · simp [outcome_eq_timeout hexp, hexp]
  cases hberr : s.flagBerr with
  | true => simp [outcome_eq_busError hexp hberr, hexp]
  | false =>
    cases harb : s.flagArb with
    | true => simp [outcome_eq_arbLost hexp hberr harb, hexp]
    | false =>
      cases hnack : s.flagNack with
      | true => simp [outcome_eq_nack hexp hberr harb hnack, hexp]
      | false => simp [outcome_eq_ok hexp hberr harb hnack, hexp]

end Sys2Proof.Machine
end

section
/-! The Audio Feeder (R180 to R183): what one underflow does with a repeating and with a one-shot table, and what `k` of
them do. -/

namespace Sys2Proof.Machine

/-! ### One underflow -/

section
variable {s : State} {table : List Byte}

/-- R182. The index does not overflow its 16 bits before the end of the table, as the table is shorter than that. -/
theorem feedRepeating_eq (hlen : table.length < 2 ^ 16) {i : Counter} {x : Byte}
    (hi : i = if table.length ≤ s.afIndex.toNat then 0 else s.afIndex) (hx : table[i.toNat]? = some x) :
    feedRepeating table s =
      { writeSample x s with afIndex := if i.toNat + 1 = table.length then 0 else i + 1 } := by
  obtain ⟨hin, -⟩ := List.getElem?_eq_some_iff.mp hx
  have hnext : (i + 1).toNat = i.toNat + 1 := by bv_omega
  have hget : table.getD i.toNat 0 = x := by simp [hx]
  simp only [feedRepeating, ← hi, hget, hnext]

/-- R183, inside the table. -/
theorem feedOneShot_inside {x : Byte} (hx : table[s.afIndex.toNat]? = some x) :
    feedOneShot table s = { writeSample x s with afIndex := s.afIndex + 1 } := by
  obtain ⟨hin, -⟩ := List.getElem?_eq_some_iff.mp hx
  have hget : table.getD s.afIndex.toNat 0 = x := by simp [hx]
  simp only [feedOneShot, if_pos hin, hget]

/-- R183, exhausted. -/
theorem feedOneShot_exhausted (hend : table.length ≤ s.afIndex.toNat) : feedOneShot table s = s :=
  if_neg (Nat.not_lt.mpr hend)

theorem feedAudio_repeating (hsel : selectedTable s.cfg s.boardState = some (table, true)) :
    feedAudio s = feedRepeating table s := by
  simp only [feedAudio, hsel]

theorem feedAudio_oneShot (hsel : selectedTable s.cfg s.boardState = some (table, false)) :
    feedAudio s = feedOneShot table s := by
  simp only [feedAudio, hsel]

/-- R181, where a table is selected: no such state is `DONE`, so an enabled underflow feeds the audio. -/
theorem exec_pwmUnderflow_of_selected {rep : Bool} (haf : s.afEnable = true)
    (hsel : selectedTable s.cfg s.boardState = some (table, rep)) :
    exec .pwmUnderflow s = .next (feedAudio (interruptEntry s)) := by
  have hdone : s.boardState ≠ .done := by
    intro hd
    rw [hd] at hsel
    cases hsel
  exact if_pos ⟨haf, hdone⟩

/-- R181 with R182. -/
theorem exec_pwmUnderflow_repeating (haf : s.afEnable = true)
    (hsel : selectedTable s.cfg s.boardState = some (table, true)) (hlen : table.length < 2 ^ 16)
    {i : Counter} {x : Byte} (hi : i = if table.length ≤ s.afIndex.toNat then 0 else s.afIndex)
    (hx : table[i.toNat]? = some x) :
    exec .pwmUnderflow s = .next { s with
      lowpower := false, pwmCompare := x, outTrace := s.outTrace ++ [.pwm x],
      afIndex := if i.toNat + 1 = table.length then 0 else i + 1 } := by
  rw [exec_pwmUnderflow_of_selected haf hsel, feedAudio_repeating (s := interruptEntry s) hsel,
    feedRepeating_eq (s := interruptEntry s) hlen hi hx]
  rfl

/-- R181 with R183, inside the table. -/
theorem exec_pwmUnderflow_oneShot (haf : s.afEnable = true)
    (hsel : selectedTable s.cfg s.boardState = some (table, false)) {x : Byte}
    (hx : table[s.afIndex.toNat]? = some x) :
    exec .pwmUnderflow s = .next { s with
      lowpower := false, pwmCompare := x, outTrace := s.outTrace ++ [.pwm x], afIndex := s.afIndex + 1 } := by
  rw [exec_pwmUnderflow_of_selected haf hsel, feedAudio_oneShot (s := interruptEntry s) hsel,
    feedOneShot_inside (s := interruptEntry s) hx]
  rfl

/-- R181 with R183, exhausted. -/
theorem exec_pwmUnderflow_exhausted (haf : s.afEnable = true)
    (hsel : selectedTable s.cfg s.boardState = some (table, false)) (hend : table.length ≤ s.afIndex.toNat) :
    exec .pwmUnderflow s = .next { s with lowpower := false } := by
  rw [exec_pwmUnderflow_of_selected haf hsel, feedAudio_oneShot (s := interruptEntry s) hsel,
    feedOneShot_exhausted (s := interruptEntry s) hend]
  rfl

end

/-! ### Many underflows -/

/-- From `s` to `t` the feeder has gone to the index `i` and put `out` in the trace; it has touched nothing else but the
compare register and `lowpower`. -/
def Played (s : State) (i : Counter) (out : List OutEvent) (t : State) : Prop :=
  t = { s with lowpower := t.lowpower, pwmCompare := t.pwmCompare, afIndex := i, outTrace := s.outTrace ++ out }

namespace Played
variable {s t u : State} {i j : Counter} {out out' : List OutEvent}

theorem refl (s : State) : Played s s.afIndex [] s := by
  rw [Played, List.append_nil]

theorem trans (h : Played s i out t) (h' : Played t j out' u) : Played s j (out ++ out') u := by
  rw [Played] at h h' ⊢
  rw [h', h, List.append_assoc]

theorem afIndex (h : Played s i out t) : t.afIndex = i := (congrArg State.afIndex h).trans rfl

theorem cfg (h : Played s i out t) : t.cfg = s.cfg := (congrArg State.cfg h).trans rfl

theorem boardState (h : Played s i out t) : t.boardState = s.boardState := (congrArg State.boardState h).trans rfl

theorem afEnable (h : Played s i out t) : t.afEnable = s.afEnable := (congrArg State.afEnable h).trans rfl

/-- The table selected stays selected, as the feeder changes neither the Board State nor the configuration. -/
theorem selectedTable (h : Played s i out t) :
    selectedTable t.cfg t.boardState = selectedTable s.cfg s.boardState := by
  rw [h.cfg, h.boardState]

end Played

/-- The induction over `k` underflows, for an index `idx k` and a trace `out k` that each underflow carries on. -/
theorem execSeq_pwmUnderflow {s : State} {idx : Nat → Counter} {out : Nat → List OutEvent}
    (hidx : idx 0 = s.afIndex) (hout : out 0 = [])
    (hstep : ∀ k t, Played s (idx k) (out k) t → ∃ u new,
      exec .pwmUnderflow t = .next u ∧ Played t (idx (k + 1)) new u ∧ out (k + 1) = out k ++ new) (k : Nat) :
    ∃ t, execSeq (List.replicate k .pwmUnderflow) s = .next t ∧ Played s (idx k) (out k) t := by
  induction k with
  | zero =>
    rw [hidx, hout]
    exact ⟨s, rfl, .refl s⟩
  | succ k ih =>
    obtain ⟨t, hrun, ht⟩ := ih
    obtain ⟨u, new, hexec, hu, hnew⟩ := hstep k t ht
    rw [hnew]
    exact ⟨u, (execSeq_replicate_succ hrun).trans hexec, ht.trans hu⟩

theorem counter_toNat_ofNat {n : Nat} (h : n < 2 ^ 16) : (BitVec.ofNat 16 n : Counter).toNat = n := by
  rw [BitVec.toNat_ofNat, Nat.mod_eq_of_lt h]

theorem counter_ofNat_succ (n : Nat) : (BitVec.ofNat 16 n + 1 : Counter) = BitVec.ofNat 16 (n + 1) :=
  (BitVec.ofNat_add n 1).symm

/-- The siren's index counts modulo the length of its table: advancing it with the wrap of R182 is the remainder of the
next number. -/
theorem counter_wrap {n : Nat} (hpos : 0 < n) (hn : n < 2 ^ 16) (k : Nat) :
    (if (BitVec.ofNat 16 (k % n) : Counter).toNat + 1 = n then 0 else BitVec.ofNat 16 (k % n) + 1 : Counter) =
      BitVec.ofNat 16 ((k + 1) % n) := by
  have hlt : k % n < n := Nat.mod_lt k hpos
  rw [counter_toNat_ofNat (hlt.trans hn), counter_ofNat_succ, ← Nat.mod_add_mod k n 1]
  split
  · next hend =>
    rw [hend, Nat.mod_self]
    rfl
  · next hin => rw [Nat.mod_eq_of_lt (show k % n + 1 < n by omega)]

section
variable {s : State} {table : List Byte}

/-- R182 over `k` underflows: each one writes the sample at `k` modulo the length. -/
theorem execSeq_pwmUnderflow_repeating (haf : s.afEnable = true)
    (hsel : selectedTable s.cfg s.boardState = some (table, true)) (hlen : table.length < 2 ^ 16)
    (hpos : 0 < table.length) (hzero : s.afIndex = 0) (k : Nat) :
    ∃ t, execSeq (List.replicate k .pwmUnderflow) s = .next t ∧
      Played s (BitVec.ofNat 16 (k % table.length))
        ((List.range k).map fun j => .pwm (table.getD (j % table.length) 0)) t := by
  refine execSeq_pwmUnderflow (idx := fun k => BitVec.ofNat 16 (k % table.length))
    (out := fun k => (List.range k).map fun j => .pwm (table.getD (j % table.length) 0)) ?_ rfl ?_ k
  · rw [hzero, Nat.zero_mod]
    rfl
  · intro k t ht
    have hlt : k % table.length < table.length := Nat.mod_lt k hpos
    have htoNat := counter_toNat_ofNat (hlt.trans hlen)
    have hi : BitVec.ofNat 16 (k % table.length) = if table.length ≤ t.afIndex.toNat then 0 else t.afIndex := by
      rw [ht.afIndex, htoNat, if_neg (Nat.not_le.mpr hlt)]
    have hx : table[(BitVec.ofNat 16 (k % table.length) : Counter).toNat]? =
        some (table.getD (k % table.length) 0) := by
      rw [htoNat, List.getD_eq_getElem _ _ hlt, List.getElem?_eq_getElem hlt]
    have hexec := exec_pwmUnderflow_repeating (ht.afEnable.trans haf) (ht.selectedTable.trans hsel) hlen hi hx
    rw [counter_wrap hpos hlen] at hexec
    exact ⟨_, _, hexec, rfl, by rw [List.range_succ, List.map_append]; rfl⟩

/-- R183 over `k` underflows: the first `k` samples, and the index stays at the length once they are all written. -/
theorem execSeq_pwmUnderflow_oneShot (haf : s.afEnable = true)
    (hsel : selectedTable s.cfg s.boardState = some (table, false)) (hlen : table.length < 2 ^ 16)
    (hzero : s.afIndex = 0) (k : Nat) :
    ∃ t, execSeq (List.replicate k .pwmUnderflow) s = .next t ∧
      Played s (BitVec.ofNat 16 (min k table.length)) ((table.take k).map .pwm) t := by
  refine execSeq_pwmUnderflow (idx := fun k => BitVec.ofNat 16 (min k table.length))
    (out := fun k => (table.take k).map .pwm) ?_ rfl ?_ k
  · rw [hzero, Nat.zero_min]
    rfl
  · intro k t ht
    have haft := ht.afEnable.trans haf
    have hselt := ht.selectedTable.trans hsel
    have hindex : t.afIndex.toNat = min k table.length := by
      rw [ht.afIndex, counter_toNat_ofNat ((Nat.min_le_right ..).trans_lt hlen)]
    rcases Nat.lt_or_ge k table.length with hin | hend
    · have hx : table[t.afIndex.toNat]? = some table[k] := by
        rw [hindex, Nat.min_eq_left hin.le, List.getElem?_eq_getElem hin]
      have hnext : t.afIndex + 1 = BitVec.ofNat 16 (min (k + 1) table.length) := by
        rw [ht.afIndex, counter_ofNat_succ, Nat.min_eq_left hin.le, Nat.min_eq_left hin]
      have hexec := exec_pwmUnderflow_oneShot haft hselt hx
      rw [hnext] at hexec
      exact ⟨_, _, hexec, rfl, by rw [← List.take_append_getElem hin, List.map_append]; rfl⟩
    · have hstay : t.afIndex = BitVec.ofNat 16 (min (k + 1) table.length) := by
        rw [ht.afIndex, Nat.min_eq_right hend, Nat.min_eq_right (Nat.le_succ_of_le hend)]
      have hexec := exec_pwmUnderflow_exhausted haft hselt (hindex ▸ Nat.le_min.mpr ⟨hend, le_rfl⟩)
      refine ⟨_, [], hexec, ?_, ?_⟩
      · rw [Played, List.append_nil, ← hstay]
      · rw [List.append_nil, List.take_of_length_le hend, List.take_of_length_le (Nat.le_succ_of_le hend)]

end

/-- Settles O44: the siren is the repeating table that `COUNTING_DOWN` selects. -/
theorem sirenRepeats : Obligations.SirenRepeats := by
  intro s haf hboard hne hlen
  have hsel : selectedTable s.cfg s.boardState = some (s.cfg.siren, true) := by rw [hboard]; rfl
  have hpos := List.length_pos_of_ne_nil hne
  refine ⟨fun i x hi hx => exec_pwmUnderflow_repeating haf hsel hlen hi hx, fun hzero k => ?_⟩
  obtain ⟨t, hrun, ht⟩ := execSeq_pwmUnderflow_repeating haf hsel hlen hpos hzero k
  have hlt : k % s.cfg.siren.length < s.cfg.siren.length := Nat.mod_lt k hpos
  refine ⟨t, hrun, ht, ?_⟩
  rwa [ht.afIndex, counter_toNat_ofNat (hlt.trans hlen)]

/-- Settles O45: `SUCCESS` and `FAILURE` each select a one-shot table. -/
theorem oneShotPlaysOnce : Obligations.OneShotPlaysOnce := by
  intro s table haf hboard hlen
  have hsel : selectedTable s.cfg s.boardState = some (table, false) := by
    obtain ⟨hb, rfl⟩ | ⟨hb, rfl⟩ := hboard
    all_goals rw [hb]; rfl
  exact ⟨fun _ hx => exec_pwmUnderflow_oneShot haf hsel hx, exec_pwmUnderflow_exhausted haf hsel,
    execSeq_pwmUnderflow_oneShot haf hsel hlen⟩

end Sys2Proof.Machine
end

section
/-! `TAKEROLL` and `GETCNT` (R210, R211), the two commands that read the countdown. -/

namespace Sys2Proof.Machine

theorem decode_takeroll (n : Nat) (rest : List Byte) : decode n (0x30 :: rest) = .ok (.takeroll, rest) := rfl

theorem decode_getcnt (n : Nat) (rest : List Byte) : decode n (0x31 :: rest) = .ok (.getcnt, rest) := rfl

section
variable {s : State}

/-- A host that is idle already stays so: only the result is new. -/
theorem giveResult_of_idle (hidle : s.ctl = .idle) (r : Result) : giveResult r s = { s with result := r } := by
  rw [giveResult, ← hidle]

/-- R210: the result is the flag as it stood before it is cleared. -/
theorem exec_takeroll_idle (hidle : s.ctl = .idle) :
    exec .takeroll s = .next { s with rollover := false, result := .bit s.rollover } :=
  calc exec .takeroll s
    _ = asCommand s fun s => .next (giveResult (.bit (takeRollover s).1) (takeRollover s).2) := rfl
    _ = .next (giveResult (.bit s.rollover) { s with rollover := false }) := asCommand_idle hidle _
    _ = .next { s with rollover := false, result := .bit s.rollover } :=
      congrArg _ (giveResult_of_idle (s := { s with rollover := false }) hidle _)

/-- R211. -/
theorem exec_getcnt_idle (hidle : s.ctl = .idle) :
    exec .getcnt s = .next { s with result := .counter s.cdCounter } :=
  calc exec .getcnt s
    _ = asCommand s fun s => .next (giveResult (.counter s.cdCounter) s) := rfl
    _ = .next (giveResult (.counter s.cdCounter) s) := asCommand_idle hidle _
    _ = .next { s with result := .counter s.cdCounter } := congrArg _ (giveResult_of_idle hidle _)

end

/-- Settles O48: that the counter is never 0 is a field of the invariant. -/
theorem rolloverAndCounterReads : Obligations.RolloverAndCounterReads :=
  ⟨fun n rest => ⟨decode_takeroll n rest, decode_getcnt n rest⟩,
    fun _ hidle => ⟨exec_takeroll_idle hidle, exec_getcnt_idle hidle⟩,
    fun _ hinv => hinv.timer.counter_pos⟩

end Sys2Proof.Machine
end

section
/-! The main-loop iteration where it plays and ends the game (R266 to R269, R274): its start, one equation for each step
before the bus, and the outcomes. -/

namespace Sys2Proof.Machine

/-! ### The first step -/

section
variable {s : State}

/-- R261. -/
theorem exec_mainloop_idle (hidle : s.ctl = .idle) : exec .mainloop s = startLoop s :=
  asCommand_idle hidle _

/-- R266. -/
theorem startLoop_waitingArmed (hlow : s.lowpower = false) (hboard : s.boardState = .waitingArmed) :
    startLoop s = .next (loopOn [] s) := by
  simp [startLoop, hlow, hboard]

/-- R267, with the engine enabled. -/
theorem startLoop_countingDown (hlow : s.lowpower = false) (hboard : s.boardState = .countingDown)
    (hen : s.enabled = true) : startLoop s = .next (loopOn [.takeRoll] s) := by
  simp [startLoop, hlow, hboard, hen]

/-- R268, R269: the states that select a one-shot table are `SUCCESS` and `FAILURE`. -/
theorem startLoop_oneShot {table : List Byte} (hlow : s.lowpower = false)
    (hsel : selectedTable s.cfg s.boardState = some (table, false)) :
    startLoop s = .next (loopOn [.exhaustedState] s) := by
  cases hboard : s.boardState <;> simp [selectedTable, hboard] at hsel
  case success => simp [startLoop, hlow, hboard]
  case failure => simp [startLoop, hlow, hboard]

end

/-! ### One step of an iteration

Each equation takes one action off the list of those left; what the host was doing before is overwritten. -/

section
variable {n : Nat} {s : State} {rest : List LoopAct}

@[simp] theorem loopOn_boardState (l : List LoopAct) (s : State) : (loopOn l s).boardState = s.boardState :=
  congrArg LifecycleFields.boardState (loopOn_only l s).lifecycle

/-- Going on with an iteration overwrites the list of steps that were left. -/
theorem loopOn_loopOn_cons (l : List LoopAct) (a : LoopAct) (l' : List LoopAct) (s : State) :
    loopOn l (loopOn (a :: l') s) = loopOn l s := by
  cases l <;> rfl

theorem enter_loopOn (b : BoardState) (l : List LoopAct) (s : State) :
    enter b (loopOn l s) = loopOn l (enter b s) := by
  cases l <;> cases b <;> rfl

theorem hostSteps_loopOn {a : LoopAct} {t : State} (h : loopStep a rest (loopOn (a :: rest) s) = .next t) :
    hostSteps (n + 1) (loopOn (a :: rest) s) = hostSteps n t :=
  hostSteps_run rfl h

/-- R267, R210: rollover. -/
theorem hostSteps_takeRoll_rollover (hroll : s.rollover = true) :
    hostSteps (n + 1) (loopOn (.takeRoll :: rest) s) =
      hostSteps n (loopOn (rolloverActs s.cfg ++ rest) { s with rollover := false }) :=
  hostSteps_loopOn (if_pos hroll)

/-- R267, R210: no rollover, so that clearing the flag changes nothing. -/
theorem hostSteps_takeRoll_clear (hroll : s.rollover = false) :
    hostSteps (n + 1) (loopOn (.takeRoll :: rest) s) = hostSteps n (loopOn (.readInputs :: rest) s) := by
  have hclear : { s with rollover := false } = s := by rw [← hroll]
  calc hostSteps (n + 1) (loopOn (.takeRoll :: rest) s)
    _ = hostSteps n (loopOn (.readInputs :: rest) { s with rollover := false }) :=
      hostSteps_loopOn (if_neg (ne_true_of_eq_false hroll))
    _ = hostSteps n (loopOn (.readInputs :: rest) s) := by rw [hclear]

theorem hostSteps_readInputs :
    hostSteps (n + 1) (loopOn (.readInputs :: rest) s) =
      hostSteps n (loopOn (inputActs s.cfg s.safeIdx s.inputs ++ rest) s) :=
  hostSteps_loopOn (congrArg Host.Outcome.next (loopOn_loopOn_cons ..))

theorem hostSteps_readCount :
    hostSteps (n + 1) (loopOn (.readCount :: rest) s) =
      hostSteps n (loopOn (showCountActs s.cdCounter ++ rest) s) :=
  hostSteps_loopOn (congrArg Host.Outcome.next (loopOn_loopOn_cons ..))

theorem hostSteps_exhaustedState :
    hostSteps (n + 1) (loopOn (.exhaustedState :: rest) s) =
      hostSteps n (loopOn (.exhaustedIndex s.boardState :: rest) s) :=
  hostSteps_loopOn rfl

/-- R188: the table is exhausted. -/
theorem hostSteps_exhaustedIndex_true {b : BoardState} (h : exhausted s.cfg b s.afIndex = true) :
    hostSteps (n + 1) (loopOn (.exhaustedIndex b :: rest) s) = hostSteps n (loopOn (.enter .done :: rest) s) :=
  hostSteps_loopOn (if_pos h)

/-- R188: the table is not exhausted. -/
theorem hostSteps_exhaustedIndex_false {b : BoardState} (h : exhausted s.cfg b s.afIndex = false) :
    hostSteps (n + 1) (loopOn (.exhaustedIndex b :: rest) s) = hostSteps n (loopOn rest s) :=
  hostSteps_loopOn ((if_neg (ne_true_of_eq_false h)).trans (congrArg Host.Outcome.next (loopOn_loopOn_cons ..)))

theorem hostSteps_enter {b : BoardState} :
    hostSteps (n + 1) (loopOn (.enter b :: rest) s) = hostSteps n (loopOn rest (enter b s)) :=
  hostSteps_loopOn (congrArg Host.Outcome.next (by rw [enter_loopOn, loopOn_loopOn_cons]))

end

/-! ### The outcome of a countdown -/

/-- R18: the safe mask is the one mask in which exactly the bit of the Safe-Choice Index is set. -/
theorem eq_safeMask_iff {k : Nat} (hk : k < 8) (m : Byte) :
    m = safeMask k ↔ ∀ i, i < 8 → (m.getLsbD i = true ↔ i = k) := by
  have hbit (i : Nat) : (safeMask k).getLsbD i = true ↔ i = k := by
    simp [safeMask, ← BitVec.twoPow_eq, hk, eq_comm]
  constructor
  · rintro rfl i -
    exact hbit i
  · intro h
    refine BitVec.eq_of_getLsbD_eq fun i hi => ?_
    rw [Bool.eq_iff_iff, h i hi, hbit i]

/-- R8: an admitted machine has at most eight inputs, one for each bit of a mask. -/
theorem nInputs_le_of_admitted {c : Config} (h : admitted c = true) : c.nInputs ≤ 8 := by
  simp [admitted, admissionChecks] at h
  omega

section
variable {s : State}

/-- R267, rollover: the Board State is entered before anything is shown. -/
theorem countdown_rollover (hroll : s.rollover = true) :
    hostSteps 2 (loopOn [.takeRoll] s) =
      .next (loopOn (fourDigits 0 ++ [.writeAll, .setBlink (s.cfg.blinkFail.setWidth 8)])
        (enter .failure { s with rollover := false })) :=
  (hostSteps_takeRoll_rollover hroll).trans hostSteps_enter

/-- R267, no rollover: the second step branches on the input mask. -/
theorem countdown_inputs (hroll : s.rollover = false) (n : Nat) :
    hostSteps (n + 2) (loopOn [.takeRoll] s) = hostSteps n (loopOn (inputActs s.cfg s.safeIdx s.inputs) s) := by
  rw [hostSteps_takeRoll_clear hroll, hostSteps_readInputs, List.append_nil]

/-- R267, the safe input alone. -/
theorem countdown_success (hroll : s.rollover = false) (hsafe : s.inputs = safeMask s.safeIdx) :
    hostSteps 3 (loopOn [.takeRoll] s) =
      .next (loopOn [.setBlink (s.cfg.blinkSuccess.setWidth 8)] (enter .success s)) := by
  rw [countdown_inputs hroll 1, inputActs, if_pos hsafe]
  exact hostSteps_enter

/-- R267, any other input combination. -/
theorem countdown_wrongInput (hroll : s.rollover = false) (hsafe : s.inputs ≠ safeMask s.safeIdx)
    (hsome : s.inputs ≠ 0) :
    hostSteps 3 (loopOn [.takeRoll] s) =
      .next (loopOn [.setBlink (s.cfg.blinkFail.setWidth 8)] (enter .failure s)) := by
  rw [countdown_inputs hroll 1, inputActs, if_neg hsafe, if_pos hsome]
  exact hostSteps_enter

/-- R267, no exit. -/
theorem countdown_noInput (hroll : s.rollover = false) (hsafe : s.inputs ≠ safeMask s.safeIdx)
    (hnone : s.inputs = 0) :
    hostSteps 3 (loopOn [.takeRoll] s) = .next (loopOn (showCountActs s.cdCounter) s) := by
  rw [countdown_inputs hroll 1, inputActs, if_neg hsafe, if_neg (not_not_intro hnone)]
  exact hostSteps_readCount

end

/-- Settles O56: each of the three branches of R267 on the mask ends in a Board State of its own. The Safe-Choice Index
is below 8, so that its bit is one of the mask. -/
theorem gameOutcome : Obligations.GameOutcome := by
  intro s hinv hadm hidle hlow hboard hen
  refine ⟨_, (exec_mainloop_idle hidle).trans (startLoop_countingDown hlow hboard hen), fun hroll => ?_,
    fun hroll => ?_⟩
  · exact ⟨_, countdown_rollover hroll, by simp⟩
  · have hk : s.safeIdx < 8 := hinv.inputs.safe_lt.trans_le (nInputs_le_of_admitted hadm)
    rw [← eq_safeMask_iff hk]
    by_cases hsafe : s.inputs = safeMask s.safeIdx
    · exact ⟨_, countdown_success hroll hsafe, by simp [hsafe]⟩
    by_cases hnone : s.inputs = 0
    · exact ⟨_, countdown_noInput hroll hsafe hnone, by simp [hboard, hsafe], by simp [hboard, hnone]⟩
    · exact ⟨_, countdown_wrongInput hroll hsafe hnone, by simp [hsafe], by simpa [hsafe] using hnone⟩

/-! ### `WAITING_ARMED`, `SUCCESS` and `FAILURE` -/

section
variable {s : State}

/-- R201: an armed machine's tick debounces the sensor. -/
theorem exec_tickCd_waitingArmed (hboard : s.boardState = .waitingArmed) (hie : s.cdtIe = true) (pir : Bool) :
    exec (.tickCd pir) s =
      .next (if pir then debounceActive (interruptEntry s) else debounceInactive (interruptEntry s)) := by
  have hduties : timerDuties pir (interruptEntry s) =
      if pir then debounceActive (interruptEntry s) else debounceInactive (interruptEntry s) := by
    simp [timerDuties, hboard]
  calc exec (.tickCd pir) s
    _ = .next (timerDuties pir (interruptEntry s)) := if_pos ⟨hie, by simp [hboard]⟩
    _ = _ := congrArg _ hduties

/-- R203, at the threshold. -/
theorem debounceActive_reached (hth : s.cfg.thActive ≤ s.pirHigh + 1) :
    debounceActive s = enter .countingDown { s with pirLow := 0, pirHigh := 0 } :=
  if_pos hth

/-- R204, at the threshold. -/
theorem debounceInactive_reached (hth : s.cfg.thInactive ≤ s.pirLow + 1) :
    debounceInactive s = enter .sleeping { s with pirHigh := 0, pirLow := 0 } :=
  if_pos hth

/-- R188, where a one-shot table is selected. -/
theorem exhausted_oneShot {c : Config} {b : BoardState} {table : List Byte} (index : Counter)
    (hsel : selectedTable c b = some (table, false)) :
    exhausted c b index = decide (table.length ≤ index.toNat) := by
  cases b <;> simp [selectedTable] at hsel
  case success => rw [← hsel]; rfl
  case failure => rw [← hsel]; rfl

variable {table : List Byte}

/-- R268, R269, exhausted. -/
theorem hostSteps_exhausted (hsel : selectedTable s.cfg s.boardState = some (table, false))
    (hend : table.length ≤ s.afIndex.toNat) :
    hostSteps 3 (loopOn [.exhaustedState] s) = .next (giveResult .none (enter .done s)) := by
  have hex : exhausted s.cfg s.boardState s.afIndex = true := by simpa [exhausted_oneShot _ hsel] using hend
  rw [hostSteps_exhaustedState, hostSteps_exhaustedIndex_true hex, hostSteps_enter]
  rfl

/-- R268, R269, inside the table. -/
theorem hostSteps_notExhausted (hsel : selectedTable s.cfg s.boardState = some (table, false))
    (hin : s.afIndex.toNat < table.length) :
    hostSteps 2 (loopOn [.exhaustedState] s) = .next (giveResult .none s) := by
  have hex : exhausted s.cfg s.boardState s.afIndex = false := by simpa [exhausted_oneShot _ hsel] using hin
  rw [hostSteps_exhaustedState, hostSteps_exhaustedIndex_false hex]
  rfl

end

/-- Settles O55: the iteration and the tick in `WAITING_ARMED`, then the exhausted test of the one-shot tables. -/
theorem mainloopLeavesAtExhaustion : Obligations.MainloopLeavesAtExhaustion := by
  intro s hidle hlow
  refine ⟨fun hboard => ⟨?_, fun hie hth => ?_, fun hie hth => ?_⟩, fun table hboard => ?_⟩
  · calc exec .mainloop s
      _ = .next (giveResult .none s) := (exec_mainloop_idle hidle).trans (startLoop_waitingArmed hlow hboard)
      _ = .next { s with result := .none } := congrArg _ (giveResult_of_idle hidle _)
  · refine ⟨_, exec_tickCd_waitingArmed hboard hie true, ?_⟩
    rw [if_pos rfl, debounceActive_reached (s := interruptEntry s) hth, enter_boardState]
  · refine ⟨_, exec_tickCd_waitingArmed hboard hie false, ?_⟩
    rw [if_neg Bool.false_ne_true, debounceInactive_reached (s := interruptEntry s) hth, enter_boardState]
  · have hsel : selectedTable s.cfg s.boardState = some (table, false) := by
      obtain ⟨hb, rfl⟩ | ⟨hb, rfl⟩ := hboard
      all_goals rw [hb]; rfl
    refine ⟨_, (exec_mainloop_idle hidle).trans (startLoop_oneShot hlow hsel), fun hend => ?_, fun hin => ?_⟩
    · rw [hostSteps_exhausted hsel hend, giveResult_of_idle (s := enter .done s) hidle]
      rfl
    · rw [hostSteps_notExhausted hsel hin, giveResult_of_idle hidle]

end Sys2Proof.Machine
end

section
/-! The encoding (R104 to R110): each operand's byte and what reads back from it, each format's decoding, and from these
that decoding and encoding undo each other. -/

namespace Sys2Proof

/-! ### Operands -/

theorem policyOf_policyByte (p : AckPolicy) : policyOf (policyByte p) = some p := by
  cases p <;> rfl

theorem policyByte_of_policyOf {b : Byte} {p : AckPolicy} (h : policyOf b = some p) : policyByte p = b := by
  unfold policyOf at h
  split_ifs at h with h0 h1
  · cases h; exact h0.symm
  · cases h; exact h1.symm

theorem boardStateOf_boardStateByte (b : BoardState) : boardStateOf (boardStateByte b) = some b := by
  cases b <;> rfl

theorem boardStateByte_of_boardStateOf {x : Byte} {b : BoardState} (h : boardStateOf x = some b) :
    boardStateByte b = x := by
  unfold boardStateOf at h
  split at h <;> cases h
  all_goals exact (BitVec.eq_of_toNat_eq ‹_›).symm

/-- R108: the codes of the seven Board States are the bytes below 7. -/
theorem boardStateOf_eq_none {x : Byte} (h : 6 < x.toNat) : boardStateOf x = none := by
  unfold boardStateOf
  split <;> first | omega | rfl

theorem deviceOf_deviceByte (a : BitVec 7) : deviceOf (deviceByte a) = some a := by
  have hlt : (deviceByte a).toNat < 128 := by simp [deviceByte]; omega
  rw [deviceOf, if_pos hlt, deviceByte, BitVec.setWidth_setWidth_of_le a (by decide), BitVec.setWidth_eq]

theorem deviceByte_of_deviceOf {x : Byte} {a : BitVec 7} (h : deviceOf x = some a) : deviceByte a = x := by
  unfold deviceOf at h
  split_ifs at h with hlt
  cases h
  apply BitVec.eq_of_toNat_eq
  simp only [deviceByte, BitVec.toNat_setWidth]
  omega

theorem levelOf_levelByte (pir : Bool) : levelOf (levelByte pir) = some pir := by
  cases pir <;> rfl

theorem levelByte_of_levelOf {x : Byte} {pir : Bool} (h : levelOf x = some pir) : levelByte pir = x := by
  unfold levelOf at h
  split_ifs at h with h0 h1
  · cases h; exact h0.symm
  · cases h; exact h1.symm

theorem flagsOf_flagsByte (f : PeerFlags) : flagsOf (flagsByte f) = some f := by
  obtain ⟨berr, arb, nack⟩ := f
  cases berr <;> cases arb <;> cases nack <;> rfl

/-- The flag operands in range are the eight values of three bits. -/
theorem flagsByte_of_flagsOf {x : Byte} {f : PeerFlags} (h : flagsOf x = some f) : flagsByte f = x := by
  unfold flagsOf at h
  split_ifs at h with hlt
  cases h
  have height : ∀ k : Fin 8, flagsByte
      { berr := (BitVec.ofNat 8 k).getLsbD 0, arb := (BitVec.ofNat 8 k).getLsbD 1,
        nack := (BitVec.ofNat 8 k).getLsbD 2 } = BitVec.ofNat 8 k := by decide
  simpa using height ⟨x.toNat, hlt⟩

/-! ### Formats -/

section
variable {op : Byte} {i : Instr} {rest l : List Byte}

theorem orIllegal_eq_ok {j : Option Instr} {l : List Byte} (h : orIllegal op j l = .ok (i, rest)) :
    j = some i ∧ l = rest := by
  cases j with
  | none => cases h
  | some j => cases h; exact ⟨rfl, rfl⟩

theorem format1_eq_ok {f : Byte → Option Instr} (h : format1 op f l = .ok (i, rest)) :
    ∃ a, l = a :: rest ∧ f a = some i := by
  match l, h with
  | a :: l, h =>
    obtain ⟨hf, rfl⟩ := orIllegal_eq_ok h
    exact ⟨a, rfl, hf⟩

theorem format2_eq_ok {f : Byte → Byte → Option Instr} (h : format2 op f l = .ok (i, rest)) :
    ∃ a b, l = a :: b :: rest ∧ f a b = some i := by
  match l, h with
  | a :: b :: l, h =>
    obtain ⟨hf, rfl⟩ := orIllegal_eq_ok h
    exact ⟨a, b, rfl, hf⟩

theorem format3_eq_ok {f : Byte → Byte → Byte → Option Instr} (h : format3 op f l = .ok (i, rest)) :
    ∃ a b c, l = a :: b :: c :: rest ∧ f a b c = some i := by
  match l, h with
  | a :: b :: c :: l, h =>
    obtain ⟨hf, rfl⟩ := orIllegal_eq_ok h
    exact ⟨a, b, c, rfl, hf⟩

theorem formatV_eq_ok {f : Byte → Byte → List Byte → Option Instr} (h : formatV op f l = .ok (i, rest)) :
    ∃ a b n bytes, l = a :: b :: n :: (bytes ++ rest) ∧ bytes.length = n.toNat ∧ f a b bytes = some i := by
  match l, h with
  | a :: b :: n :: l, h =>
    simp only [formatV] at h
    split_ifs at h with hn
    obtain ⟨hf, rfl⟩ := orIllegal_eq_ok h
    exact ⟨a, b, n, l.take n.toNat, by rw [List.take_append_drop], List.length_take_of_le hn, hf⟩

theorem format1_short {f : Byte → Option Instr} (h : l.length < 1) : format1 op f l = .error (.truncated op) := by
  match l, h with
  | [], _ => rfl

theorem format2_short {f : Byte → Byte → Option Instr} (h : l.length < 2) :
    format2 op f l = .error (.truncated op) := by
  match l, h with
  | [], _ => rfl
  | [_], _ => rfl

theorem format3_short {f : Byte → Byte → Byte → Option Instr} (h : l.length < 3) :
    format3 op f l = .error (.truncated op) := by
  match l, h with
  | [], _ => rfl
  | [_], _ => rfl
  | [_, _], _ => rfl

theorem formatV_short {f : Byte → Byte → List Byte → Option Instr}
    (h : l.length < 3 + ((l.drop 2).headD 0).toNat) : formatV op f l = .error (.truncated op) := by
  match l, h with
  | [], _ => rfl
  | [_], _ => rfl
  | [_, _], _ => rfl
  | a :: b :: n :: l, h =>
    have hn : ¬ n.toNat ≤ l.length := by
      simp only [List.length_cons, List.drop_succ_cons, List.drop_zero, List.headD_cons] at h
      omega
    exact if_neg hn

/-- Format `CV` of a `WRBLK` whose bytes its count can hold. -/
theorem formatV_bytes {f : Byte → Byte → List Byte → Option Instr} {a b : Byte} {bytes : List Byte}
    (h : bytes.length ≤ countMax) :
    formatV op f (a :: b :: BitVec.ofNat 8 bytes.length :: (bytes ++ rest)) = orIllegal op (f a b bytes) rest := by
  have hn : (BitVec.ofNat 8 bytes.length).toNat = bytes.length := by
    rw [BitVec.toNat_ofNat, Nat.mod_eq_of_lt (show bytes.length < 2 ^ 8 from Nat.lt_succ_of_le h)]
  simp only [formatV, hn, List.length_append, Nat.le_add_right, if_true, List.take_left', List.drop_left']

end

/-- The row of `WRBLK`. -/
theorem decode_wrblk (n : Nat) (l : List Byte) :
    decode n (0x11 :: l) =
      formatV 0x11 (fun a reg bytes => (deviceOf a).map fun a7 => .wrblk a7 reg bytes) l := rfl

/-! ### Encoding, then decoding -/

/-- Settles O1: by cases on the operation; an operand whose type is narrower than a byte reads back from its byte,
and the bounds of R108 are those of the format. -/
theorem decodeEncode : Obligations.DecodeEncode := by
  intro n i rest hwf
  cases i with
  | rbyte p => exact congrArg (fun o => orIllegal 0x05 (o.map .rbyte) rest) (policyOf_policyByte p)
  | rdblk a7 reg count =>
    have hcount : count ≠ 0 := by simpa [Instr.wellFormed] using hwf
    show orIllegal 0x10 (if count = 0 then none else (deviceOf (deviceByte a7)).map fun a7 => .rdblk a7 reg count) rest
      = _
    rw [if_neg hcount, deviceOf_deviceByte]
    rfl
  | wrblk a7 reg bytes =>
    calc decode n (encode (.wrblk a7 reg bytes) ++ rest)
      _ = orIllegal 0x11 ((deviceOf (deviceByte a7)).map fun a7 => .wrblk a7 reg bytes) rest :=
        (decode_wrblk n _).trans (formatV_bytes (of_decide_eq_true hwf))
      _ = .ok (.wrblk a7 reg bytes, rest) := by rw [deviceOf_deviceByte]; rfl
  | setstate b => exact congrArg (fun o => orIllegal 0x33 (o.map .setstate) rest) (boardStateOf_boardStateByte b)
  | tickCd pir => exact congrArg (fun o => orIllegal 0x81 (o.map .tickCd) rest) (levelOf_levelByte pir)
  | peerComplete f d =>
    exact congrArg (fun o => orIllegal 0x84 (o.map fun f => .peerComplete f d) rest) (flagsOf_flagsByte f)
  | inputs mask => exact congrArg (fun o => orIllegal 0x86 o rest) (if_pos hwf)
  | _ => rfl

/-! ### Decoding, then encoding -/

/-- An opcode is the byte its number says. -/
theorem opcode_eq {op : Byte} {k : Nat} (h : op.toNat = k) (hk : k < 2 ^ 8 := by decide) : op = BitVec.ofNat 8 k := by
  subst h
  exact (BitVec.ofNat_toNat ..).symm ▸ (BitVec.setWidth_eq op).symm

/-- What decodes is well-formed, and the bytes read are its encoding: by the opcode, then by its format. -/
theorem encode_of_decode {n : Nat} {bytes rest : List Byte} {i : Instr} (h : decode n bytes = .ok (i, rest)) :
    i.wellFormed n = true ∧ bytes = encode i ++ rest := by
  cases bytes with
  | nil => cases h
  | cons op l =>
    simp only [decode] at h
    split at h
    -- no operand
    case h_1 hop | h_6 hop | h_7 hop | h_11 hop | h_17 hop | h_18 hop | h_19 hop | h_21 hop | h_22 hop | h_23 hop
        | h_25 hop | h_26 hop | h_28 hop =>
      cases h
      exact ⟨rfl, congrArg (· :: rest) (opcode_eq hop)⟩
    -- one operand, of any value
    case h_2 hop | h_3 hop | h_4 hop | h_12 hop | h_13 hop | h_14 hop | h_15 hop | h_16 hop =>
      obtain ⟨a, rfl, hf⟩ := format1_eq_ok h
      cases hf
      exact ⟨rfl, congrArg (· :: a :: rest) (opcode_eq hop)⟩
    case h_10 hop =>
      obtain ⟨a, b, rfl, hf⟩ := format2_eq_ok h
      cases hf
      exact ⟨rfl, congrArg (· :: a :: b :: rest) (opcode_eq hop)⟩
    case h_5 hop =>
      obtain ⟨a, rfl, hf⟩ := format1_eq_ok h
      obtain ⟨p, hp, rfl⟩ := Option.map_eq_some_iff.mp hf
      exact ⟨rfl, by rw [opcode_eq hop, ← policyByte_of_policyOf hp]; rfl⟩
    case h_8 hop =>
      obtain ⟨a, reg, c, rfl, hf⟩ := format3_eq_ok h
      split_ifs at hf with hc
      obtain ⟨a7, ha, rfl⟩ := Option.map_eq_some_iff.mp hf
      exact ⟨by simpa [Instr.wellFormed] using hc, by rw [opcode_eq hop, ← deviceByte_of_deviceOf ha]; rfl⟩
    case h_9 hop =>
      obtain ⟨a, reg, c, bytes, rfl, hlen, hf⟩ := formatV_eq_ok h
      obtain ⟨a7, ha, rfl⟩ := Option.map_eq_some_iff.mp hf
      have hcount : BitVec.ofNat 8 bytes.length = c := by rw [hlen, BitVec.ofNat_toNat, BitVec.setWidth_eq]
      refine ⟨decide_eq_true (hlen ▸ Nat.le_of_lt_succ c.isLt), ?_⟩
      rw [opcode_eq hop, ← deviceByte_of_deviceOf ha, ← hcount]
      rfl
    case h_20 hop =>
      obtain ⟨a, rfl, hf⟩ := format1_eq_ok h
      obtain ⟨b, hb, rfl⟩ := Option.map_eq_some_iff.mp hf
      exact ⟨rfl, by rw [opcode_eq hop, ← boardStateByte_of_boardStateOf hb]; rfl⟩
    case h_24 hop =>
      obtain ⟨a, rfl, hf⟩ := format1_eq_ok h
      obtain ⟨pir, hp, rfl⟩ := Option.map_eq_some_iff.mp hf
      exact ⟨rfl, by rw [opcode_eq hop, ← levelByte_of_levelOf hp]; rfl⟩
    case h_27 hop =>
      obtain ⟨a, d, rfl, hf⟩ := format2_eq_ok h
      obtain ⟨f, ha, rfl⟩ := Option.map_eq_some_iff.mp hf
      exact ⟨rfl, by rw [opcode_eq hop, ← flagsByte_of_flagsOf ha]; rfl⟩
    case h_29 hop =>
      obtain ⟨m, rfl, hf⟩ := format1_eq_ok h
      split_ifs at hf with hm
      cases hf
      exact ⟨hm, congrArg (· :: m :: rest) (opcode_eq hop)⟩
    case h_30 => cases h

/-- R110: the first byte (for `WRBLK`, with the fourth) decides the length of every operation's encoding. -/
theorem streamLength_encode (i : Instr) : Laws.EncodeLength.Statement i := by
  cases i with
  | wrblk a7 reg bytes => exact Laws.EncodeLength.wrblk a7 reg bytes
  | _ => exact fun _ _ _ => rfl

/-- R110: bytes that end before the length their first byte decides. -/
theorem decode_of_short {n : Nat} {op : Byte} {l : List Byte} (h : (op :: l).length < streamLength (op :: l)) :
    decode n (op :: l) = .error (.truncated op) := by
  simp only [streamLength] at h
  split at h
  case h_1 hop | h_2 hop | h_3 hop | h_4 hop | h_5 hop | h_6 hop | h_7 hop | h_8 hop | h_9 hop | h_10 hop | h_11 hop
      | h_12 hop =>
    obtain rfl := opcode_eq hop
    exact format1_short (Nat.lt_of_succ_lt_succ h)
  case h_13 hop | h_14 hop =>
    obtain rfl := opcode_eq hop
    exact format2_short (Nat.lt_of_succ_lt_succ h)
  case h_15 hop =>
    obtain rfl := opcode_eq hop
    exact format3_short (Nat.lt_of_succ_lt_succ h)
  case h_16 hop =>
    obtain rfl := opcode_eq hop
    have hlen : l.length < 3 + ((l.drop 2).headD 0).toNat := by
      rw [List.length_cons] at h
      omega
    exact (decode_wrblk n l).trans (formatV_short hlen)
  case h_17 => exact absurd h (by simp)

/-- Settles O2: the length is that of the encoding the bytes read are. -/
theorem encodeDecode : Obligations.EncodeDecode := by
  intro n bytes
  refine ⟨fun i rest h => ?_, fun h => ?_⟩
  · obtain ⟨hwf, hbytes⟩ := encode_of_decode h
    refine ⟨hwf, hbytes, ?_⟩
    rw [hbytes, streamLength_encode i n rest hwf, List.length_append]
  · cases bytes with
    | nil => exact absurd h (by simp [streamLength])
    | cons op l => exact ⟨op, l, rfl, decode_of_short h⟩

/-! ### What is refused -/

/-- The opcodes of R105 and R106. -/
def opcodes : List Byte :=
  [0x01, 0x02, 0x03, 0x04, 0x05, 0x06, 0x07, 0x10, 0x11, 0x20, 0x21, 0x22, 0x23, 0x24, 0x25, 0x26, 0x30,
    0x31, 0x32, 0x33, 0x34, 0x40, 0x80, 0x81, 0x82, 0x83, 0x84, 0x85, 0x86]

theorem orIllegal_ne_reserved (op : Byte) (i : Option Instr) (rest : List Byte) :
    orIllegal op i rest ≠ .error (.reserved op) := by
  cases i <;> simp [orIllegal]

theorem format1_ne_reserved (op : Byte) (f : Byte → Option Instr) (l : List Byte) :
    format1 op f l ≠ .error (.reserved op) := by
  rw [format1.eq_def]
  split
  · exact orIllegal_ne_reserved _ _ _
  · simp

theorem format2_ne_reserved (op : Byte) (f : Byte → Byte → Option Instr) (l : List Byte) :
    format2 op f l ≠ .error (.reserved op) := by
  rw [format2.eq_def]
  split
  · exact orIllegal_ne_reserved _ _ _
  · simp

theorem format3_ne_reserved (op : Byte) (f : Byte → Byte → Byte → Option Instr) (l : List Byte) :
    format3 op f l ≠ .error (.reserved op) := by
  rw [format3.eq_def]
  split
  · exact orIllegal_ne_reserved _ _ _
  · simp

theorem formatV_ne_reserved (op : Byte) (f : Byte → Byte → List Byte → Option Instr) (l : List Byte) :
    formatV op f l ≠ .error (.reserved op) := by
  rw [formatV.eq_def]
  split
  · split
    · exact orIllegal_ne_reserved _ _ _
    · simp
  · simp

/-- R109: a reserved opcode is one that no row of the tables has. -/
theorem decode_reserved_iff (n : Nat) (op : Byte) (rest : List Byte) :
    decode n (op :: rest) = .error (.reserved op) ↔ op ∉ opcodes := by
  simp only [decode]
  split
  case h_30 => exact iff_of_true rfl (by simp_all [opcodes, ← BitVec.toNat_inj])
  case h_1 hop | h_6 hop | h_7 hop | h_11 hop | h_17 hop | h_18 hop | h_19 hop | h_21 hop | h_22 hop | h_23 hop
      | h_25 hop | h_26 hop | h_28 hop =>
    obtain rfl := opcode_eq hop
    exact iff_of_false nofun (by decide)
  case h_2 hop | h_3 hop | h_4 hop | h_5 hop | h_12 hop | h_13 hop | h_14 hop | h_15 hop | h_16 hop | h_20 hop
      | h_24 hop | h_29 hop =>
    obtain rfl := opcode_eq hop
    exact iff_of_false (format1_ne_reserved _ _ _) (by decide)
  case h_10 hop | h_27 hop =>
    obtain rfl := opcode_eq hop
    exact iff_of_false (format2_ne_reserved _ _ _) (by decide)
  case h_8 hop =>
    obtain rfl := opcode_eq hop
    exact iff_of_false (format3_ne_reserved _ _ _) (by decide)
  case h_9 hop =>
    obtain rfl := opcode_eq hop
    exact iff_of_false (formatV_ne_reserved _ _ _) (by decide)

theorem policyOf_eq_none {p : Byte} (h : 1 < p.toNat) : policyOf p = none := by
  rw [policyOf, if_neg (by rintro rfl; simp at h), if_neg (by rintro rfl; simp at h)]

theorem levelOf_eq_none {p : Byte} (h : 1 < p.toNat) : levelOf p = none := by
  rw [levelOf, if_neg (by rintro rfl; simp at h), if_neg (by rintro rfl; simp at h)]

theorem deviceOf_eq_none {a : Byte} (h : 127 < a.toNat) : deviceOf a = none :=
  if_neg (by omega)

theorem flagsOf_eq_none {f : Byte} (h : 7 < f.toNat) : flagsOf f = none :=
  if_neg (by omega)

/-- Settles O3: the opcode's table row decides whether it is reserved, and each operand's decoding is none outside its
range. -/
theorem invalidEncodingsRefused : Obligations.InvalidEncodingsRefused := by
  refine ⟨decode_reserved_iff, fun n p rest h => ⟨?_, ?_⟩, fun n f d rest h => ?_, fun n m rest h => ?_,
    fun n b rest h => ?_, fun n a reg c rest h => ?_, fun n a reg c rest h hlen => ?_⟩
  · exact congrArg (fun o => orIllegal 0x05 (o.map .rbyte) rest) (policyOf_eq_none h)
  · exact congrArg (fun o => orIllegal 0x81 (o.map .tickCd) rest) (levelOf_eq_none h)
  · exact congrArg (fun o => orIllegal 0x84 (o.map fun f => .peerComplete f d) rest) (flagsOf_eq_none h)
  · have hm : ¬ maskFits n m = true := by simpa [maskFits] using h
    exact congrArg (fun o => orIllegal 0x86 o rest) (if_neg hm)
  · exact congrArg (fun o => orIllegal 0x33 (o.map .setstate) rest) (boardStateOf_eq_none h)
  · have hnone : (if c = 0 then none else (deviceOf a).map fun a7 => Instr.rdblk a7 reg c) = none := by
      rcases h with h | h
      · rw [deviceOf_eq_none h, Option.map_none, ite_self]
      · exact if_pos h
    exact congrArg (fun o => orIllegal 0x10 o rest) hnone
  · calc decode n (0x11 :: a :: reg :: c :: rest)
      _ = orIllegal 0x11 ((deviceOf a).map fun a7 => .wrblk a7 reg (rest.take c.toNat)) (rest.drop c.toNat) :=
        if_pos hlen
      _ = .error (.illegal 0x11) := by rw [deviceOf_eq_none h]; rfl

/-- Settles O4: each word is an operation's encoding. -/
theorem writtenWordsDecode : Obligations.WrittenWordsDecode :=
  ⟨decodeEncode 4 (.start 0xE0) [] rfl, decodeEncode 4 (.rbyte .ack) [] rfl,
    decodeEncode 4 (.rdblk 0x70 0x10 0x02) [] rfl,
    decodeEncode 4 (.wrblk 0x70 0x10 [0xDE, 0xAD]) [] rfl, decodeEncode 4 (.setdigit 0x04 0x07) [] rfl,
    decodeEncode 4 (.setstate .countingDown) [] rfl, decodeEncode 4 .getaf [] rfl, decodeEncode 4 .mainloop [] rfl,
    decodeEncode 4 (.tickCd true) [] rfl,
    decodeEncode 4 (.peerComplete { berr := false, arb := false, nack := true } 0x00) [] rfl,
    decodeEncode 4 (.inputs 0x04) [] rfl⟩

end Sys2Proof
end

section
/-! What a step of the host can do, said once: off the bus it writes at most one element and goes on; on the bus it
issues a command and waits, fails without one, stops, or takes a step of a recovery. The statements about every step are
derived from these cases. -/

namespace Sys2Proof.Machine

/-! ### Going on -/

/-- The host's command ends, or goes on with a job that is neither a block operation nor the gate of the low-power
wait. -/
def HandsOver (s t : State) : Prop :=
  (∃ v, t = giveResult v s) ∨ ∃ j, j ≠ .loopGate ∧ (∀ pos k, j ≠ .block pos k) ∧ t = runJob j s

section
variable {s t : State}

theorem handsOver_giveResult (v : Result) (s : State) : HandsOver s (giveResult v s) := .inl ⟨v, rfl⟩

theorem handsOver_loopOn (l : List LoopAct) (s : State) : HandsOver s (loopOn l s) := by
  cases l with
  | nil => exact handsOver_giveResult _ _
  | cons a l => exact .inr ⟨.loop (a :: l), nofun, nofun, rfl⟩

theorem handsOver_returnAggregate (up : Upper) (c : Code) (s : State) : HandsOver s (returnAggregate up c s) := by
  cases up with
  | host => exact handsOver_giveResult _ _
  | loop rest => exact handsOver_loopOn _ _

theorem handsOver_finishBlink (k : BlinkCont) (s : State) : HandsOver s (finishBlink k s) := by
  cases k with
  | host => exact handsOver_giveResult _ _
  | diag c up => exact handsOver_returnAggregate _ _ _

theorem handsOver_blinkOn (n : Nat) (k : BlinkCont) (s : State) : HandsOver s (blinkOn n k s) := by
  unfold blinkOn
  split
  · exact handsOver_finishBlink _ _
  · exact .inr ⟨.blink n false k, nofun, nofun, rfl⟩

theorem handsOver_deliverBlock (k : Cont) (c : Code) (got : List Byte) (s : State) :
    HandsOver s (deliverBlock k c got s) := by
  cases k with
  | hostRead => exact handsOver_giveResult _ _
  | hostWrite => exact handsOver_giveResult _ _
  | writeAll i res up =>
    simp only [deliverBlock]
    split
    · exact .inr ⟨.digit _ _ _, nofun, nofun, rfl⟩
    · exact handsOver_returnAggregate _ _ _
  | config up =>
    simp only [deliverBlock]
    split
    · exact handsOver_returnAggregate _ _ _
    · exact handsOver_blinkOn _ _ _

theorem HandsOver.onlyEngine (h : HandsOver s t) : OnlyEngine s t := by
  obtain ⟨v, rfl⟩ | ⟨j, -, -, rfl⟩ := h
  · exact giveResult_only v s
  · exact runJob_only j s

theorem HandsOver.engineOf (h : HandsOver s t) : engineOf t = engineOf s := by
  obtain ⟨v, rfl⟩ | ⟨j, -, -, rfl⟩ := h <;> rfl

theorem HandsOver.not_gate (h : HandsOver s t) : t.ctl ≠ .run .loopGate := by
  obtain ⟨v, rfl⟩ | ⟨j, hj, -, rfl⟩ := h
  · nofun
  · simpa using hj

theorem HandsOver.not_wait (h : HandsOver s t) (b : Counter) (w : Waiter) : t.ctl ≠ .wait b w := by
  obtain ⟨v, rfl⟩ | ⟨j, -, -, rfl⟩ := h <;> nofun

theorem HandsOver.not_block (h : HandsOver s t) (pos : BlkPos) (k : Cont) : t.ctl ≠ .run (.block pos k) := by
  obtain ⟨v, rfl⟩ | ⟨j, -, hj, rfl⟩ := h
  · nofun
  · simpa using hj pos k

end

/-! ### One step of the host -/

/-- What a step of the host off the bus may write: at most one of these, once. -/
inductive HostWrite (s : State) : State → Prop
  | none : HostWrite s s
  | digit (i g : Byte) : HostWrite s (putDigit i g s)
  | enter (b : BoardState) : HostWrite s (enter b s)
  | takeRollover : HostWrite s (takeRollover s).2
  | lowPower : HostWrite s { s with lowpower := true }
  | led (level : Bool) : HostWrite s (setLed level s)

/-- `u` is `s` with a bus command prepared: of the engine, only the data register, the policy, the ownership and the
flags other than the bus-error latch may differ. -/
structure Prepared (s u : State) : Prop where
  only : OnlyEngine s u
  trace : u.busTrace = s.busTrace
  berr : u.flagBerr = s.flagBerr
  enabled : u.enabled = s.enabled

/-- A step of the host: off the bus (`write`), or one of the five things a step on the bus can be. -/
inductive HostMove (s : State) : State → Prop
  | write {u t : State} : HostWrite s u → HandsOver u t → HostMove s t
  | wait {u : State} (c : BusCmd) (b : Counter) (w : Waiter) :
      Prepared s u → s.enabled = true → u.owner = true → HostMove s (beginWait b w (issue c u))
  | failFast (w : Waiter) : HostMove s (resume w .busError (clearPriorFlags s))
  | notOwner (w : Waiter) : HostMove s (resume w .masterNotOwner s)
  | stop {t : State} : HandsOver (stopPrim s).2 t → HostMove s t
  | recovered {t : State} (a : RecAct) : HandsOver (recoveryAct a s) t → HostMove s t
  | recovering (a : RecAct) (todo : List RecAct) (k : Cont) :
      HostMove s (runJob (.block (.recover todo) k) (recoveryAct a s))

section
variable {s t : State}

theorem HandsOver.move (h : HandsOver s t) : HostMove s t := .write .none h

theorem startPrim_move {ab : Byte} {w : Waiter} (h : startPrim ab w s = .next t) : HostMove s t := by
  obtain ⟨hen, -, ⟨-, rfl⟩ | ⟨-, rfl⟩⟩ := startPrim_next h
  · exact .failFast w
  · exact .wait _ _ w ⟨((clearPriorFlags_only s).trans (loadData_only _ _)).trans (takeBus_only _), rfl, rfl, rfl⟩
      hen rfl

theorem restartPrim_move {ab : Byte} {w : Waiter} (h : restartPrim ab w s = .next t) : HostMove s t := by
  obtain ⟨hen, ⟨how, rfl⟩ | ⟨-, rfl⟩⟩ := restartPrim_next h
  · exact .wait _ _ w ⟨loadData_only _ _, rfl, rfl, rfl⟩ hen how
  · exact .notOwner w

theorem writePrim_move {b : Byte} {w : Waiter} (h : writePrim b w s = .next t) : HostMove s t := by
  obtain ⟨hen, ⟨how, rfl⟩ | ⟨-, rfl⟩⟩ := writePrim_next h
  · exact .wait _ _ w ⟨loadData_only _ _, rfl, rfl, rfl⟩ hen how
  · exact .notOwner w

theorem readPrim_move {p : AckPolicy} {w : Waiter} (h : readPrim p w s = .next t) : HostMove s t := by
  obtain ⟨hen, ⟨how, rfl⟩ | ⟨-, rfl⟩⟩ := readPrim_next h
  · exact .wait _ _ w ⟨latchPolicy_only _ _, rfl, rfl, rfl⟩ hen how
  · exact .notOwner w

/-- The three phases of a block operation that end it with a `STOP`. -/
theorem stopDeliver_move {k : Cont} {c : Code} {got : List Byte}
    (h : (whenEnabled s fun s => .next (deliverBlock k c got (stopPrim s).2)) = .next t) : HostMove s t := by
  obtain ⟨-, h⟩ := whenEnabled_next h
  cases h
  exact .stop (handsOver_deliverBlock _ _ _ _)

theorem blockStep_move {pos : BlkPos} {k : Cont} (h : blockStep pos k s = .next t) : HostMove s t := by
  match pos, h with
  | .wReg reg bytes, h => exact writePrim_move h
  | .wData (b :: bytes), h => exact writePrim_move h
  | .wData [], h => exact stopDeliver_move h
  | .rReg a7 reg count, h => exact writePrim_move h
  | .rRestart a7 count, h => exact restartPrim_move h
  | .rByte left got, h => exact readPrim_move h
  | .stop got, h => exact stopDeliver_move h
  | .stopAbsent, h => exact stopDeliver_move h
  | .recover [], h =>
    cases h
    exact (handsOver_deliverBlock _ _ _ _).move
  | .recover [a], h =>
    cases h
    exact .recovered a (handsOver_deliverBlock _ _ _ _)
  | .recover (a :: a' :: todo), h =>
    cases h
    exact .recovering a (a' :: todo) k

theorem recoverStep_move (todo : List RecAct) (s : State) : HostMove s (recoverStep todo s) := by
  match todo with
  | [] => exact (handsOver_giveResult _ _).move
  | [a] => exact .recovered a (handsOver_giveResult _ _)
  | a :: a' :: todo => exact .recovered a (.inr ⟨.recover (a' :: todo), nofun, nofun, rfl⟩)

theorem digitStep_move {i : Fin 5} {res : Code} {up : Upper} (h : digitStep i res up s = .next t) : HostMove s t := by
  unfold digitStep at h
  split at h
  · exact startPrim_move h
  · cases h

theorem blinkRate_move {r : Byte} {up : Upper} (h : blinkRate r up s = .next t) : HostMove s t := by
  unfold blinkRate at h
  split at h
  · exact startPrim_move h
  · cases h
    exact (handsOver_returnAggregate _ _ _).move

theorem blinkStep_move (n : Nat) (lit : Bool) (k : BlinkCont) (s : State) : HostMove s (blinkStep n lit k s) := by
  cases lit with
  | true => exact .write (.led false) (handsOver_blinkOn _ _ _)
  | false => exact .write (.led true) (.inr ⟨.blink n true k, nofun, nofun, rfl⟩)

theorem loopOn_move (l : List LoopAct) (s : State) : HostMove s (loopOn l s) := (handsOver_loopOn l s).move

theorem loopStep_move {a : LoopAct} {rest : List LoopAct} (h : loopStep a rest s = .next t) : HostMove s t := by
  cases a with
  | testSleeping =>
    simp only [loopStep] at h
    split at h
    · cases h; exact loopOn_move _ _
    · obtain ⟨-, h⟩ := whenEnabled_next h
      cases h; exact loopOn_move _ _
  | testSetup =>
    simp only [loopStep] at h
    split at h <;> cases h <;> exact loopOn_move _ _
  | takeRoll =>
    simp only [loopStep] at h
    split at h <;> cases h <;> exact .write .takeRollover (handsOver_loopOn _ _)
  | readInputs => cases h; exact loopOn_move _ _
  | readCount => cases h; exact loopOn_move _ _
  | exhaustedState => cases h; exact loopOn_move _ _
  | exhaustedIndex b =>
    simp only [loopStep] at h
    split at h <;> cases h <;> exact loopOn_move _ _
  | enter b => cases h; exact .write (.enter b) (handsOver_loopOn _ _)
  | setDigit i g => cases h; exact .write (.digit i g) (handsOver_loopOn _ _)
  | writeAll => exact digitStep_move h
  | setBlink r => exact blinkRate_move h
  | lowPower => cases h; exact .write .lowPower (handsOver_loopOn _ _)

/-- The beginning of an iteration: the gate in the low-power wait, else a step that writes nothing. -/
theorem startLoop_next (h : startLoop s = .next t) :
    (s.lowpower = true ∧ t = runJob .loopGate s) ∨ (s.lowpower = false ∧ HandsOver s t) := by
  unfold startLoop at h
  split at h
  · next hlow => cases h; exact .inl ⟨hlow, rfl⟩
  · next hlow =>
    refine .inr ⟨eq_false_of_ne_true hlow, ?_⟩
    split at h
    case h_4 =>
      obtain ⟨-, h⟩ := whenEnabled_next h
      cases h; exact handsOver_loopOn _ _
    all_goals cases h; exact handsOver_loopOn _ _

/-- A step in the middle of a command. -/
theorem hostStep_move {j : Job} (hj : j ≠ .loopGate) (h : hostStep j s = .next t) : HostMove s t := by
  match j, hj, h with
  | .block pos k, _, h => exact blockStep_move h
  | .digit i res up, _, h => exact digitStep_move h
  | .recover todo, _, h => cases h; exact recoverStep_move _ _
  | .blink left lit k, _, h => cases h; exact blinkStep_move _ _ _ _
  | .loop [], _, h => cases h; exact loopOn_move _ _
  | .loop (a :: rest), _, h => exact loopStep_move h
  | .loopGate, hj, _ => exact absurd rfl hj

/-- Any step in the middle of a command: the gate too. -/
theorem hostStep_cases {j : Job} (h : hostStep j s = .next t) : t = runJob .loopGate s ∨ HostMove s t := by
  by_cases hj : j = .loopGate
  · subst hj
    exact (startLoop_next h).imp And.right (fun h => h.2.move)
  · exact .inr (hostStep_move hj h)

/-- The first step of a command, its host being idle. -/
def commandBody (i : Instr) (s : State) : Out :=
  match i with
  | .init => .next (giveResult .none (initEngine s))
  | .start ab => startPrim ab .host s
  | .rstart ab => restartPrim ab .host s
  | .wbyte b => writePrim b .host s
  | .rbyte p => readPrim p .hostRead s
  | .stop => whenEnabled s fun s => .next (giveResult (.code (stopPrim s).1) (stopPrim s).2)
  | .recover => .next (recoverStep recoveryPlan s)
  | .rdblk a7 reg count => readBlock a7 reg count.toNat .hostRead s
  | .wrblk a7 reg bytes => writeBlock a7 reg bytes .hostWrite s
  | .setdigit index glyph => .next (giveResult .none (putDigit index glyph s))
  | .writeall => digitStep 0 .ok .host s
  | .setblink rate => blinkRate rate .host s
  | .setosc on =>
    if on.toNat ≤ 1 then configWrite (oscCommand s.cfg on) .host s else .next (giveResult (.code .ok) s)
  | .setdisp on =>
    if on.toNat ≤ 1 then configWrite (dispCommand s.cfg 0 on) .host s else .next (giveResult (.code .ok) s)
  | .setdim level =>
    if level.toNat ≤ 15 then configWrite (dimCommand s.cfg level) .host s else .next (giveResult (.code .ok) s)
  | .blinkn n => if n = 0 then .next (giveResult .none s) else .next (blinkStep n.toNat false .host s)
  | .takeroll => .next (giveResult (.bit (takeRollover s).1) (takeRollover s).2)
  | .getcnt => .next (giveResult (.counter s.cdCounter) s)
  | .getstate => .next (giveResult (.board s.boardState) s)
  | .setstate b => .next (giveResult .none (enter b s))
  | .getaf => .next (giveResult (.counter s.afIndex) s)
  | .mainloop => startLoop s
  | .tickTo | .tickCd _ | .pwmUnderflow | .sensorEdge | .peerComplete _ _ | .busFault | .inputs _ => exec i s

theorem exec_command {i : Instr} {n : Nat} (hi : i.isEvent = false) (hwf : i.wellFormed n = true) (s : State) :
    exec i s = asCommand s (commandBody i) := by
  cases i with
  | rdblk a7 reg c =>
    have hc : c ≠ 0 := by simpa [Instr.wellFormed] using hwf
    exact if_neg hc
  | wrblk a7 reg bytes => exact if_neg (Nat.not_lt.mpr (of_decide_eq_true hwf))
  | tickTo | tickCd | pwmUnderflow | sensorEdge | peerComplete | busFault | inputs => cases hi
  | _ => rfl

/-- A command that is taken is taken by an idle host. -/
theorem exec_command_next {i : Instr} (hi : i.isEvent = false) (h : exec i s = .next t) :
    s.ctl = .idle ∧ commandBody i s = .next t := by
  cases i with
  | rdblk a7 reg c =>
    simp only [exec, execRdblk] at h
    split_ifs at h
    exact asCommand_next h
  | wrblk a7 reg bytes =>
    simp only [exec, execWrblk] at h
    split_ifs at h
    exact asCommand_next h
  | tickTo | tickCd | pwmUnderflow | sensorEdge | peerComplete | busFault | inputs => cases hi
  | _ => exact asCommand_next ((exec_command (n := 0) rfl rfl s).symm.trans h)

/-- But for `MAINLOOP` in the low-power wait the first step of a command is a `HostMove`. -/
theorem exec_command_cases {i : Instr} (hi : i.isEvent = false) (h : exec i s = .next t) :
    t = runJob .loopGate s ∨ HostMove s t := by
  obtain ⟨-, h⟩ := exec_command_next hi h
  cases i with
  | init => cases h; exact .inr (.recovered .reinit (handsOver_giveResult _ _))
  | start ab => exact .inr (startPrim_move h)
  | rstart ab => exact .inr (restartPrim_move h)
  | wbyte b => exact .inr (writePrim_move h)
  | rbyte p => exact .inr (readPrim_move h)
  | stop =>
    simp only [commandBody] at h
    obtain ⟨-, h⟩ := whenEnabled_next h
    cases h; exact .inr (.stop (handsOver_giveResult _ _))
  | recover => cases h; exact .inr (recoverStep_move _ _)
  | rdblk a7 reg c => exact .inr (startPrim_move h)
  | wrblk a7 reg bytes => exact .inr (startPrim_move h)
  | setdigit i g => cases h; exact .inr (.write (.digit i g) (handsOver_giveResult _ _))
  | writeall => exact .inr (digitStep_move h)
  | setblink r => exact .inr (blinkRate_move h)
  | setosc o | setdisp o | setdim o =>
    simp only [commandBody] at h
    split_ifs at h
    · exact .inr (startPrim_move h)
    · cases h; exact .inr (handsOver_giveResult _ _).move
  | blinkn n =>
    simp only [commandBody] at h
    split_ifs at h
    · cases h; exact .inr (handsOver_giveResult _ _).move
    · cases h; exact .inr (blinkStep_move _ _ _ _)
  | takeroll => cases h; exact .inr (.write .takeRollover (handsOver_giveResult _ _))
  | getcnt | getstate | getaf => cases h; exact .inr (handsOver_giveResult _ _).move
  | setstate b => cases h; exact .inr (.write (.enter b) (handsOver_giveResult _ _))
  | mainloop => exact (startLoop_next h).imp And.right (fun h => h.2.move)
  | tickTo | tickCd | pwmUnderflow | sensorEdge | peerComplete | busFault | inputs => cases hi

/-- A legal command of an idle host. -/
theorem exec_idle {i : Instr} {n : Nat} (hidle : s.ctl = .idle) (hi : i.isEvent = false)
    (hwf : i.wellFormed n = true) : exec i s = commandBody i s :=
  (exec_command hi hwf s).trans (asCommand_idle hidle _)

end

/-! ### One step of the machine -/

section
variable {s t : State}

/-- A fetch of the host that runs a command. -/
theorem fetchCommand_next (h : fetchCommand s = .next t) :
    ∃ i rest, i.isEvent = false ∧ exec i { s with cmds := rest } = .next t := by
  unfold fetchCommand at h
  split at h
  · cases h
  · next i rest _ =>
    split_ifs at h with hi
    exact ⟨i, rest, eq_false_of_ne_true hi, h⟩

/-- A fetch of the environment that takes an event. -/
theorem fetchEvent_next (h : fetchEvent s = .next t) :
    ∃ i rest, i.isEvent = true ∧ exec i { s with events := rest } = .next t := by
  unfold fetchEvent at h
  split at h
  · cases h
  · next i rest _ =>
    split_ifs at h with hi
    exact ⟨i, rest, hi, h⟩

/-- A move of the host: a step of its command, or the first step of the next. -/
theorem hostMove_next (h : hostMove s = .next t) :
    (∃ j, s.ctl = .run j ∧ hostStep j s = .next t) ∨
      ∃ i rest, i.isEvent = false ∧ exec i { s with cmds := rest } = .next t := by
  unfold hostMove at h
  split at h
  · next j hrun => exact .inl ⟨j, hrun, h⟩
  · exact .inr (fetchCommand_next h)
  · cases h

/-- Whoever moves, the choice of the turn leaves all but `sched`. -/
theorem takeTurn_sched {a : Agent} {u : State} (h : takeTurn s = some (a, u)) :
    ∃ sched, u = { s with sched := sched } := by
  unfold takeTurn at h
  split at h
  · split at h <;> cases h <;> exact ⟨_, rfl⟩
  · cases h; exact ⟨s.sched, rfl⟩
  · cases h; exact ⟨s.sched, rfl⟩
  · cases h

end

/-- A step that is taken: the streams move on, then the host takes a step of its command or its first one, or an
event is taken. -/
theorem step_next {s t : State} (h : step s = .next t) : admitted s.cfg = true ∧
    ∃ u, (∃ cmds events sched, u = { s with cmds := cmds, events := events, sched := sched }) ∧
      ((∃ j, u.ctl = .run j ∧ hostStep j u = .next t) ∨ (∃ i, i.isEvent = false ∧ exec i u = .next t) ∨
        ∃ i, i.isEvent = true ∧ exec i u = .next t) := by
  unfold step at h
  split_ifs at h with hadm
  obtain ⟨a, sched, hturn⟩ : ∃ a sched, takeTurn s = some (a, { s with sched := sched }) := by
    rcases ht : takeTurn s with _ | ⟨a, u⟩
    · simp [move, ht] at h
    · obtain ⟨sched, rfl⟩ := takeTurn_sched ht
      exact ⟨a, sched, rfl⟩
  simp only [move, hturn] at h
  refine ⟨hadm, ?_⟩
  cases a with
  | host =>
    obtain ⟨j, hrun, h⟩ | ⟨i, cmds, hi, h⟩ := hostMove_next h
    · exact ⟨_, ⟨s.cmds, s.events, sched, rfl⟩, .inl ⟨j, hrun, h⟩⟩
    · exact ⟨_, ⟨cmds, s.events, sched, rfl⟩, .inr (.inl ⟨i, hi, h⟩)⟩
  | env =>
    obtain ⟨i, events, hi, h⟩ := fetchEvent_next h
    exact ⟨_, ⟨s.cmds, events, sched, rfl⟩, .inr (.inr ⟨i, hi, h⟩)⟩

end Sys2Proof.Machine
end

section
/-! The turns of the two sides, and the running of what is fetched or placed (R22, R104, R106). -/

namespace Sys2Proof.Machine

section
variable {s : State}

theorem hostReady_idle (hidle : s.ctl = .idle) : hostReady s = !s.cmds.isEmpty := by
  simp only [hostReady, hidle]

theorem hostReady_run {j : Job} (hrun : s.ctl = .run j) (hj : j ≠ .loopGate) : hostReady s = true := by
  unfold hostReady
  rw [hrun]
  cases j <;> first | rfl | exact absurd rfl hj

/-- A stream that decodes is not empty. -/
theorem ne_nil_of_decode {n : Nat} {l rest : List Byte} {i : Instr} (h : decode n l = .ok (i, rest)) : l ≠ [] := by
  rintro rfl
  cases h

theorem envReady_iff : envReady s = true ↔ s.events ≠ [] := by
  simp [envReady]

/-- It is the host's turn: it can move, and no event is there or the choice is its own. -/
theorem takeTurn_host (hready : hostReady s = true)
    (hturn : s.events = [] ∨ s.sched = [] ∨ s.sched.head? = some .host) :
    takeTurn s = some (.host, { s with sched := if s.events = [] then s.sched else s.sched.tail }) := by
  by_cases hev : s.events = []
  · have henv : envReady s = false := by rw [← Bool.not_eq_true, envReady_iff, not_not]; exact hev
    simp only [takeTurn, hready, henv, if_pos hev]
  · have henv : envReady s = true := envReady_iff.mpr hev
    simp only [takeTurn, hready, henv, if_neg hev]
    split
    · next hs => rw [hs, List.tail_nil, ← hs]
    · next a rest hs =>
      obtain rfl : a = .host := by simpa [hev, hs] using hturn
      rw [hs, List.tail_cons]

/-- It is the environment's turn: it has an event, and the host cannot move or the choice is the environment's. -/
theorem takeTurn_env (hev : s.events ≠ []) (hturn : hostReady s = false ∨ s.sched.head? = some .env) :
    takeTurn s = some (.env, { s with sched := if hostReady s then s.sched.tail else s.sched }) := by
  have henv : envReady s = true := envReady_iff.mpr hev
  cases hready : hostReady s with
  | false => simp [takeTurn, hready, henv]
  | true =>
    obtain ⟨a, rest, hs⟩ := List.exists_cons_of_ne_nil (l := s.sched) (by rintro hs; simp [hs, hready] at hturn)
    obtain rfl : a = .env := by simpa [hready, hs] using hturn
    simp [takeTurn, hready, henv, hs]

theorem step_admitted (hadm : admitted s.cfg = true) : step s = move s := if_pos hadm

end

/-- Settles O5. -/
theorem stepRunsDecodedCommand : Obligations.StepRunsDecodedCommand := by
  intro s i rest hadm hidle hdec hi hturn
  have hready : hostReady s = true := by
    simpa [hostReady_idle hidle] using ne_nil_of_decode hdec
  rw [step_admitted hadm, move, takeTurn_host hready hturn]
  simp only [hostMove, hidle, fetchCommand, hdec, hi, Bool.false_eq_true, if_false]

/-- Settles O6. -/
theorem stepRunsDecodedEvent : Obligations.StepRunsDecodedEvent := by
  intro s i rest hadm hdec hi hturn
  rw [step_admitted hadm, move, takeTurn_env (ne_nil_of_decode hdec) hturn]
  simp only [fetchEvent, hdec, hi, if_true]

/-! ### Placing -/

/-- R104: the events are the operations whose opcode is 0x80 or above. -/
theorem encode_headD_lt_iff (i : Instr) : ((encode i).headD 0).toNat < 0x80 ↔ i.isEvent = false := by
  cases i <;> simp [encode, Instr.isEvent]

/-- Settles O7: a command is placed with the host's turn, an event with the environment's; both decode. -/
theorem placedOperationRunsNext : Obligations.PlacedOperationRunsNext := by
  intro s i hadm hwf
  cases hi : i.isEvent with
  | false =>
    have hplace : placeOperation (encode i) s = placeCommand (encode i) s := if_pos ((encode_headD_lt_iff i).mpr hi)
    rw [hplace, stepRunsDecodedCommand (placeCommand (encode i) s) i s.cmds hadm rfl (decodeEncode _ i _ hwf) hi]
    · by_cases hev : s.events = [] <;> simp [placeCommand, hev]
    · by_cases hev : s.events = [] <;> simp [placeCommand, hev]
  | true =>
    have hplace : placeOperation (encode i) s = placeEvent (encode i) s :=
      if_neg (fun h => by simp [(encode_headD_lt_iff i).mp h] at hi)
    have hready : hostReady (placeEvent (encode i) s) = hostReady s := rfl
    rw [hplace, stepRunsDecodedEvent (placeEvent (encode i) s) i s.events hadm (decodeEncode _ i _ hwf) hi]
    · rw [hready]
      cases hr : hostReady s <;> simp [placeEvent, hr]
    · rw [hready]
      cases hr : hostReady s <;> simp [placeEvent, hr]

end Sys2Proof.Machine
end

section
/-! What every step keeps (R8, R51, R363), what it adds to the histories (R36, R44), and the bus-error latch (R137). -/

namespace Sys2Proof.Machine

/-! ### What a step keeps -/

/-- The configuration and the Safe-Choice Index are the same, glyph codes in range stay so, and the output history is
only added to. -/
structure Keeps (s t : State) : Prop where
  cfg : t.cfg = s.cfg
  safeIdx : t.safeIdx = s.safeIdx
  glyphs : glyphsInRange s → glyphsInRange t
  out : ∃ o, t.outTrace = s.outTrace ++ o

section
variable {s t u : State}

theorem Keeps.trans (h : Keeps s t) (h' : Keeps t u) : Keeps s u := by
  obtain ⟨o, ho⟩ := h.out
  obtain ⟨o', ho'⟩ := h'.out
  exact ⟨h'.cfg.trans h.cfg, h'.safeIdx.trans h.safeIdx, h'.glyphs ∘ h.glyphs,
    o ++ o', by rw [ho', ho, List.append_assoc]⟩

/-- The glyph codes in range are a matter of the buffer and the configuration. -/
theorem glyphsInRange_congr (hbuf : t.dispBuf = s.dispBuf) (hcfg : t.cfg = s.cfg) :
    glyphsInRange s → glyphsInRange t := by
  unfold glyphsInRange
  rw [hbuf, hcfg]
  exact id

theorem keeps_of_eq (hcfg : t.cfg = s.cfg) (hidx : t.safeIdx = s.safeIdx) (hbuf : t.dispBuf = s.dispBuf)
    (hout : ∃ o, t.outTrace = s.outTrace ++ o) : Keeps s t :=
  ⟨hcfg, hidx, glyphsInRange_congr hbuf hcfg, hout⟩

theorem OnlyEngine.dispBuf (h : OnlyEngine s t) : t.dispBuf = s.dispBuf := congrArg OutputFields.dispBuf h.output

theorem OnlyEngine.keeps (h : OnlyEngine s t) : Keeps s t :=
  keeps_of_eq h.cfg (congrArg LifecycleFields.safeIdx h.lifecycle) h.dispBuf
    ⟨[], by rw [List.append_nil]; exact congrArg OutputFields.outTrace h.output⟩

theorem HandlerFrame.keeps (h : HandlerFrame s t) (hout : ∃ o, t.outTrace = s.outTrace ++ o) : Keeps s t :=
  keeps_of_eq h.1.cfg h.1.safeIdx h.1.dispBuf hout

/-- R231: what `SETDIGIT` stores in a numeric position is a glyph code of the table. -/
theorem putDigit_glyphs (i g : Byte) (h : glyphsInRange s) : glyphsInRange (putDigit i g s) := by
  intro k hk
  have hkeep := h k hk
  show (digitPut s.cfg i g s.dispBuf)[k].toNat < s.cfg.glyph.length
  unfold digitPut
  split
  · next hi =>
    split
    · next hsep =>
      rw [Fin.getElem_fin, Vector.getElem_set_ne _ _ (by rw [hsep]; exact Ne.symm hk)]
      exact hkeep
    · split
      · next hg =>
        rw [Fin.getElem_fin, Vector.getElem_set]
        split
        · exact hg
        · exact hkeep
      · exact hkeep
  · exact hkeep

theorem HostWrite.keeps (h : HostWrite s t) : Keeps s t := by
  cases h with
  | none => exact (OnlyEngine.refl s).keeps
  | digit i g => exact ⟨rfl, rfl, putDigit_glyphs i g, [], (List.append_nil _).symm⟩
  | enter b => exact keeps_of_eq (enter_cfg b s) (enter_safeIdx b s) (enter_dispBuf b s) ⟨[], by simp⟩
  | takeRollover => exact keeps_of_eq rfl rfl rfl ⟨[], (List.append_nil _).symm⟩
  | lowPower => exact keeps_of_eq rfl rfl rfl ⟨[], (List.append_nil _).symm⟩
  | led l => exact keeps_of_eq rfl rfl rfl ⟨[.led l], rfl⟩

/-- What a `HostMove` on the bus leaves alone. -/
theorem HostMove.keeps (h : HostMove s t) : Keeps s t := by
  cases h with
  | write hw hh => exact hw.keeps.trans hh.onlyEngine.keeps
  | wait c b w hu => exact ((hu.only.trans (issue_only _ _)).trans (beginWait_only _ _ _)).keeps
  | failFast w => exact ((clearPriorFlags_only s).trans (resume_only _ _ _)).keeps
  | notOwner w => exact (resume_only _ _ _).keeps
  | stop hh => exact ((stopPrim_only s).trans hh.onlyEngine).keeps
  | recovered a hh => exact ((recoveryAct_only a s).trans hh.onlyEngine).keeps
  | recovering a todo k => exact ((recoveryAct_only a s).trans (runJob_only _ _)).keeps

theorem feedAudio_outTrace (s : State) : ∃ o, (feedAudio s).outTrace = s.outTrace ++ o := by
  unfold feedAudio
  split
  · exact ⟨_, rfl⟩
  · unfold feedOneShot
    split
    · exact ⟨_, rfl⟩
    · exact ⟨[], (List.append_nil _).symm⟩
  · exact ⟨[], (List.append_nil _).symm⟩

theorem debounceActive_outTrace (s : State) : (debounceActive s).outTrace = s.outTrace := by
  simp only [debounceActive]
  split <;> rfl

theorem debounceInactive_outTrace (s : State) : (debounceInactive s).outTrace = s.outTrace := by
  simp only [debounceInactive]
  split <;> rfl

theorem timerDuties_outTrace (pir : Bool) (s : State) : ∃ o, (timerDuties pir s).outTrace = s.outTrace ++ o := by
  unfold timerDuties
  split
  · exact ⟨_, rfl⟩
  · cases pir
    · exact ⟨[], by simp [debounceInactive_outTrace]⟩
    · exact ⟨[], by simp [debounceActive_outTrace]⟩
  all_goals exact ⟨[], (List.append_nil _).symm⟩

theorem sensorWake_outTrace (s : State) : (sensorWake s).outTrace = s.outTrace := by
  unfold sensorWake
  split
  · exact enter_outTrace _ _
  · rfl

/-- What an event leaves: an event of the bus touches the engine only, a handler and the inputs none of it. -/
theorem exec_event_cases {i : Instr} (hi : i.isEvent = true) (h : exec i s = .next t) :
    (i = .tickTo ∧ t = settle (countTick s)) ∨
    (∃ f d, i = .peerComplete f d ∧ s.pending ≠ .none ∧ t = settle (takeCompletion f d s)) ∨
    (i = .busFault ∧ t = { s with flagBerr := true }) ∨
    (∃ mask, i = .inputs mask ∧ maskFits s.cfg.nInputs mask = true ∧ t = { s with inputs := mask }) ∨
    (∃ pir, i = .tickCd pir ∧ s.cdtIe = true ∧ s.boardState ≠ .done ∧ t = timerDuties pir (interruptEntry s)) ∨
    (i = .pwmUnderflow ∧ s.afEnable = true ∧ s.boardState ≠ .done ∧ t = feedAudio (interruptEntry s)) ∨
    (i = .sensorEdge ∧ s.wakeIe = true ∧ t = sensorWake (interruptEntry s)) ∨
    t = s := by
  cases i with
  | tickTo => cases h; exact .inl ⟨rfl, rfl⟩
  | peerComplete f d =>
    simp only [exec, execPeerComplete] at h
    split_ifs at h with hp <;> cases h
    · simp
    · exact .inr (.inl ⟨f, d, rfl, hp, rfl⟩)
  | busFault => cases h; simp
  | inputs mask =>
    simp only [exec, execInputs] at h
    split_ifs at h with hm
    cases h
    simp [hm]
  | tickCd pir =>
    simp only [exec, execTickCd] at h
    split_ifs at h with hen <;> cases h
    · simp [hen, interruptReturn]
    · simp
  | pwmUnderflow =>
    simp only [exec, execPwmUnderflow] at h
    split_ifs at h with hen <;> cases h
    · simp [hen, interruptReturn]
    · simp
  | sensorEdge =>
    simp only [exec, execSensorEdge] at h
    split_ifs at h with hen <;> cases h
    · simp [hen, interruptReturn]
    · simp
  | _ => cases hi

theorem exec_event_keeps {i : Instr} (hi : i.isEvent = true) (h : exec i s = .next t) : Keeps s t := by
  have hentry : Keeps s (interruptEntry s) := keeps_of_eq rfl rfl rfl ⟨[], (List.append_nil _).symm⟩
  obtain ⟨-, rfl⟩ | ⟨f, d, -, -, rfl⟩ | ⟨-, rfl⟩ | ⟨m, -, -, rfl⟩ | ⟨pir, -, -, -, rfl⟩ | ⟨-, -, -, rfl⟩ |
    ⟨-, -, rfl⟩ | rfl := exec_event_cases hi h
  · exact ((countTick_only s).trans (settle_only _)).keeps
  · exact ((takeCompletion_only f d s).trans (settle_only _)).keeps
  · exact keeps_of_eq rfl rfl rfl ⟨[], (List.append_nil _).symm⟩
  · exact keeps_of_eq rfl rfl rfl ⟨[], (List.append_nil _).symm⟩
  · exact hentry.trans ((timerDuties_frame pir _).keeps (timerDuties_outTrace pir _))
  · exact hentry.trans ((feedAudio_frame _).keeps (feedAudio_outTrace _))
  · exact hentry.trans ((sensorWake_frame _).keeps ⟨[], by rw [sensorWake_outTrace, List.append_nil]⟩)
  · exact (OnlyEngine.refl t).keeps

/-- The gate writes nothing but what the host is doing. -/
theorem hostMove_keeps (h : t = runJob .loopGate s ∨ HostMove s t) : Keeps s t := by
  obtain rfl | h := h
  · exact (runJob_only _ _).keeps
  · exact h.keeps

theorem step_keeps (h : step s = .next t) : Keeps s t := by
  obtain ⟨-, u, ⟨cmds, events, sched, hu⟩, h⟩ := step_next h
  have hstreams : Keeps s u := hu ▸ keeps_of_eq rfl rfl rfl ⟨[], (List.append_nil _).symm⟩
  refine hstreams.trans ?_
  obtain ⟨j, -, h⟩ | ⟨i, hi, h⟩ | ⟨i, hi, h⟩ := h
  · exact hostMove_keeps (hostStep_cases h)
  · exact hostMove_keeps (exec_command_cases hi h)
  · exact exec_event_keeps hi h

/-! ### What a step adds to the bus trace -/

/-- `es` is added to the bus trace, and a latched bus error stays unless `es` is an initialisation of the master. -/
structure BusAdds (es : List BusEvent) (s t : State) : Prop where
  trace : t.busTrace = s.busTrace ++ es
  latch : s.flagBerr = true → t.flagBerr = true ∨ es = [.init]

/-- Nothing is added. -/
theorem busAdds_nil (htrace : t.busTrace = s.busTrace) (hberr : s.flagBerr = true → t.flagBerr = true) :
    BusAdds [] s t :=
  ⟨by rw [htrace, List.append_nil], .inl ∘ hberr⟩

theorem busAdds_of_engine (h : engineOf t = engineOf s) : BusAdds [] s t :=
  busAdds_nil (congrArg EngineFields.busTrace h) ((congrArg EngineFields.flagBerr h).trans)

theorem BusAdds.then_nil {es : List BusEvent} (h : BusAdds es s t) (h' : BusAdds [] t u) : BusAdds es s u where
  trace := by rw [h'.trace, h.trace, List.append_nil]
  latch hb := (h.latch hb).imp_left fun ht => (h'.latch ht).resolve_right nofun

theorem BusAdds.nil_then {es : List BusEvent} (h : BusAdds [] s t) (h' : BusAdds es t u) : BusAdds es s u where
  trace := by rw [h'.trace, h.trace, List.append_nil]
  latch hb := h'.latch ((h.latch hb).resolve_right nofun)

/-- The trace entry of one act of a recovery (R162). -/
def recoveryEntry : RecAct → BusEvent
  | .release => .recRelease
  | .pulse => .recPulse
  | .reinit => .init

theorem recoveryAct_adds (a : RecAct) (s : State) : BusAdds [recoveryEntry a] s (recoveryAct a s) := by
  cases a with
  | release => exact ⟨rfl, .inl⟩
  | pulse => exact ⟨rfl, .inl⟩
  | reinit => exact ⟨rfl, fun _ => .inr rfl⟩

/-- Handing on the outcome of a wait touches no element of the engine. -/
theorem resume_engine (w : Waiter) (r : Code) (s : State) : engineOf (resume w r s) = engineOf s := by
  obtain ⟨v, h⟩ | ⟨pos, k, h⟩ := resume_cases w r s <;> rw [h] <;> rfl

theorem endWait_adds (b : Counter) (w : Waiter) (s : State) : BusAdds [] s (endWait b w s) :=
  (busAdds_nil (s := s) (t := closeWait (outcome b s) s) rfl id).then_nil (busAdds_of_engine (resume_engine _ _ _))

theorem settle_adds (s : State) : BusAdds [] s (settle s) := by
  unfold settle
  split
  · split
    · exact endWait_adds _ _ _
    · exact busAdds_nil rfl id
  · exact busAdds_nil rfl id
  · exact busAdds_nil rfl id

theorem issue_beginWait_adds (c : BusCmd) (b : Counter) (w : Waiter) (s : State) :
    BusAdds [busCmdEvent c] s (beginWait b w (issue c s)) :=
  BusAdds.then_nil (t := openWait b w (issue c s)) ⟨rfl, .inl⟩ (settle_adds _)

theorem HostWrite.engineOf (h : HostWrite s t) : engineOf t = engineOf s := by
  cases h with
  | enter b => cases b <;> rfl
  | _ => rfl

theorem HostMove.adds (h : HostMove s t) : ∃ es, BusAdds es s t := by
  cases h with
  | write hw hh => exact ⟨[], (busAdds_of_engine hw.engineOf).then_nil (busAdds_of_engine hh.engineOf)⟩
  | wait c b w hu =>
    exact ⟨_, (busAdds_nil hu.trace (hu.berr.trans)).nil_then (issue_beginWait_adds c b w _)⟩
  | failFast w =>
    exact ⟨[], (busAdds_nil (s := s) (t := clearPriorFlags s) rfl id).then_nil
      (busAdds_of_engine (resume_engine _ _ _))⟩
  | notOwner w => exact ⟨[], busAdds_of_engine (resume_engine _ _ _)⟩
  | stop hh =>
    have hstop : ∃ es, BusAdds es s (stopPrim s).2 := by
      rw [stopPrim_snd]
      split
      · exact ⟨[.stop], rfl, .inl⟩
      · exact ⟨[], busAdds_nil rfl id⟩
    exact hstop.imp fun _ h => h.then_nil (busAdds_of_engine hh.engineOf)
  | recovered a hh => exact ⟨_, (recoveryAct_adds a s).then_nil (busAdds_of_engine hh.engineOf)⟩
  | recovering a todo k => exact ⟨_, (recoveryAct_adds a s).then_nil (busAdds_of_engine rfl)⟩

theorem HandlerFrame.engineOf (h : HandlerFrame s t) : engineOf t = engineOf s := by
  rw [h.1.engine, h.2]
  rfl

theorem exec_event_adds {i : Instr} (hi : i.isEvent = true) (h : exec i s = .next t) : ∃ es, BusAdds es s t := by
  obtain ⟨-, rfl⟩ | ⟨f, d, -, -, rfl⟩ | ⟨-, rfl⟩ | ⟨m, -, -, rfl⟩ | ⟨pir, -, -, -, rfl⟩ | ⟨-, -, -, rfl⟩ |
    ⟨-, -, rfl⟩ | rfl := exec_event_cases hi h
  · exact ⟨[], (busAdds_nil (s := s) (t := countTick s) rfl id).then_nil (settle_adds _)⟩
  · exact ⟨[.complete f d], BusAdds.then_nil (t := takeCompletion f d s)
      ⟨rfl, fun hb => .inl (by rw [takeCompletion_flagBerr, hb, Bool.true_or])⟩ (settle_adds _)⟩
  · exact ⟨[], busAdds_nil rfl fun _ => rfl⟩
  · exact ⟨[], busAdds_of_engine rfl⟩
  · exact ⟨[], busAdds_of_engine ((interruptEntry_frame s).trans (timerDuties_frame _ _)).engineOf⟩
  · exact ⟨[], busAdds_of_engine ((interruptEntry_frame s).trans (feedAudio_frame _)).engineOf⟩
  · exact ⟨[], busAdds_of_engine ((interruptEntry_frame s).trans (sensorWake_frame _)).engineOf⟩
  · exact ⟨[], busAdds_of_engine rfl⟩

theorem hostMove_adds (h : t = runJob .loopGate s ∨ HostMove s t) : ∃ es, BusAdds es s t := by
  obtain rfl | h := h
  · exact ⟨[], busAdds_of_engine rfl⟩
  · exact h.adds

theorem step_adds (h : step s = .next t) : ∃ es, BusAdds es s t := by
  obtain ⟨-, u, ⟨cmds, events, sched, hu⟩, h⟩ := step_next h
  have hstreams : BusAdds [] s u := hu ▸ busAdds_of_engine rfl
  have hmove : ∃ es, BusAdds es u t := by
    obtain ⟨j, -, h⟩ | ⟨i, hi, h⟩ | ⟨i, hi, h⟩ := h
    · exact hostMove_adds (hostStep_cases h)
    · exact hostMove_adds (exec_command_cases hi h)
    · exact exec_event_adds hi h
  exact hmove.imp fun _ h => hstreams.nil_then h

end

/-- Settles O14. -/
theorem configAndSafeIndexFixed : Obligations.ConfigAndSafeIndexFixed :=
  fun _ _ h => ⟨(step_keeps h).cfg, (step_keeps h).safeIdx⟩

/-- Settles O15. -/
theorem glyphsStayInRange : Obligations.GlyphsStayInRange :=
  fun _ _ hglyphs h => (step_keeps h).glyphs hglyphs

/-- Settles O16. -/
theorem historiesOnlyGrow : Obligations.HistoriesOnlyGrow :=
  fun _ _ h => ⟨(step_adds h).imp fun _ h => h.trace, (step_keeps h).out⟩

/-- Settles O30: a step that clears the latch adds an initialisation to the trace. -/
theorem busFaultLatches : Obligations.BusFaultLatches := by
  refine ⟨fun _ => rfl, fun s t hberr h => ?_⟩
  obtain ⟨es, hadds⟩ := step_adds h
  refine (hadds.latch hberr).imp_right ?_
  rintro rfl
  exact hadds.trace

end Sys2Proof.Machine
end

section
/-! The run of a command as steps of the machine, what is refused before any effect (R380), and the frame of the bus. -/

namespace Sys2Proof.Machine

section
variable {s t : State}

/-- No step of the host touches the events still to come. -/
theorem HostWrite.events (h : HostWrite s t) : t.events = s.events := by
  cases h with
  | enter b => exact enter_events b s
  | _ => rfl

theorem HostMove.events (h : HostMove s t) : t.events = s.events := by
  cases h with
  | write hw hh => exact hh.onlyEngine.events.trans hw.events
  | wait c b w hu => exact ((hu.only.trans (issue_only _ _)).trans (beginWait_only _ _ _)).events
  | failFast w => exact ((clearPriorFlags_only s).trans (resume_only _ _ _)).events
  | notOwner w => exact (resume_only _ _ _).events
  | stop hh => exact ((stopPrim_only s).trans hh.onlyEngine).events
  | recovered a hh => exact ((recoveryAct_only a s).trans hh.onlyEngine).events
  | recovering a todo k => exact ((recoveryAct_only a s).trans (runJob_only _ _)).events

theorem resume_not_gate (w : Waiter) (r : Code) (s : State) : (resume w r s).ctl ≠ .run .loopGate := by
  obtain ⟨v, h⟩ | ⟨pos, k, h⟩ := resume_cases w r s <;> rw [h] <;> nofun

theorem beginWait_not_gate (b : Counter) (w : Waiter) (s : State) : (beginWait b w s).ctl ≠ .run .loopGate := by
  have hctl : (openWait b w s).ctl = .wait b w := rfl
  unfold beginWait
  cases hw : wake b (openWait b w s) with
  | false => rw [settle_open hctl hw]; nofun
  | true => rw [settle_over hctl hw]; exact resume_not_gate _ _ _

/-- Only the beginning of an iteration in the low-power wait leads to its gate. -/
theorem HostMove.not_gate (h : HostMove s t) : t.ctl ≠ .run .loopGate := by
  cases h with
  | write hw hh => exact hh.not_gate
  | wait c b w hu => exact beginWait_not_gate _ _ _
  | failFast w => exact resume_not_gate _ _ _
  | notOwner w => exact resume_not_gate _ _ _
  | stop hh => exact hh.not_gate
  | recovered a hh => exact hh.not_gate
  | recovering a todo k => nofun

/-- With no event to come, the machine's step in the middle of a command is the host's. -/
theorem step_run {j : Job} (hadm : admitted s.cfg = true) (hev : s.events = []) (hrun : s.ctl = .run j)
    (hj : j ≠ .loopGate) : step s = hostStep j s := by
  have hturn := takeTurn_host (hostReady_run hrun hj) (.inl hev)
  rw [if_pos hev] at hturn
  have hmove : move s = hostMove s := by
    rw [move, hturn]
  rw [step_admitted hadm, hmove, hostMove, hrun]

theorem core_run_succ {u : State} (n : Nat) (h : step s = .next u) :
    Sys2Proof.core.run (n + 1) s = Sys2Proof.core.run n u := by
  have hstep : Sys2Proof.core.step s = .next u := h
  simp only [Host.Core.run, hstep]

end

/-- Settles O8: by induction on the number of steps, each of which leaves the configuration, the absence of events, and
a job that is not the gate. -/
theorem commandStepsAreSteps : Obligations.CommandStepsAreSteps := by
  intro n
  induction n with
  | zero => exact fun s t _ _ _ h => h
  | succ n ih =>
    intro s t hadm hev hgate h
    simp only [hostSteps] at h
    split at h
    · next j hrun =>
      have hj : j ≠ .loopGate := by rintro rfl; exact hgate hrun
      split at h
      · next u hu =>
        have hmove := hostStep_move hj hu
        exact (core_run_succ n ((step_run hadm hev hrun hj).trans hu)).trans
          (ih u t (by rwa [hmove.keeps.cfg]) (hmove.events.trans hev) hmove.not_gate h)
      · cases h
      · cases h
    · cases h
    · cases h

/-! ### What is refused -/

section
variable {s : State}

theorem asCommand_busy (hbusy : s.ctl ≠ .idle) (f : State → Out) : asCommand s f = .refused .hostBusy := by
  unfold asCommand
  split
  · exact absurd ‹_› hbusy
  · rfl
  · rfl

/-! The commands that reach the bus, on an idle host. -/

section
variable (hidle : s.ctl = .idle)
include hidle

theorem exec_start_idle (ab : Byte) : exec (.start ab) s = startPrim ab .host s := exec_idle (n := 0) hidle rfl rfl

theorem exec_rstart_idle (ab : Byte) : exec (.rstart ab) s = restartPrim ab .host s :=
  exec_idle (n := 0) hidle rfl rfl

theorem exec_wbyte_idle (b : Byte) : exec (.wbyte b) s = writePrim b .host s := exec_idle (n := 0) hidle rfl rfl

theorem exec_rbyte_idle (p : AckPolicy) : exec (.rbyte p) s = readPrim p .hostRead s :=
  exec_idle (n := 0) hidle rfl rfl

theorem exec_stop_idle :
    exec .stop s = whenEnabled s fun s => .next (giveResult (.code (stopPrim s).1) (stopPrim s).2) :=
  exec_idle (n := 0) hidle rfl rfl

theorem exec_rdblk_idle {a7 : BitVec 7} {reg c : Byte} (hc : c ≠ 0) :
    exec (.rdblk a7 reg c) s = readBlock a7 reg c.toNat .hostRead s :=
  exec_idle (n := 0) hidle rfl (bne_iff_ne.mpr hc)

theorem exec_wrblk_idle {a7 : BitVec 7} {reg : Byte} {bytes : List Byte} (hlen : bytes.length ≤ countMax) :
    exec (.wrblk a7 reg bytes) s = writeBlock a7 reg bytes .hostWrite s :=
  exec_idle (n := 0) hidle rfl (decide_eq_true hlen)

theorem exec_writeall_idle : exec .writeall s = digitStep 0 .ok .host s := exec_idle (n := 0) hidle rfl rfl

theorem exec_setblink_idle (r : Byte) : exec (.setblink r) s = blinkRate r .host s := exec_idle (n := 0) hidle rfl rfl

theorem exec_setosc_idle {o : Byte} (ho : o.toNat ≤ 1) :
    exec (.setosc o) s = configWrite (oscCommand s.cfg o) .host s :=
  (exec_idle (n := 0) hidle rfl rfl).trans (if_pos ho)

theorem exec_setdisp_idle {o : Byte} (ho : o.toNat ≤ 1) :
    exec (.setdisp o) s = configWrite (dispCommand s.cfg 0 o) .host s :=
  (exec_idle (n := 0) hidle rfl rfl).trans (if_pos ho)

theorem exec_setdim_idle {l : Byte} (hl : l.toNat ≤ 15) :
    exec (.setdim l) s = configWrite (dimCommand s.cfg l) .host s :=
  (exec_idle (n := 0) hidle rfl rfl).trans (if_pos hl)

end

theorem blinkRate_inRange {r : Byte} (hr : r.toNat ≤ 3) (up : Upper) (s : State) :
    blinkRate r up s = configWrite (dispCommand s.cfg r 1) up s := if_pos hr

theorem digitStep_some {i : Fin 5} {v : Byte} (hv : digitSegments s.cfg s.dispBuf i = some v) (res : Code)
    (up : Upper) :
    digitStep i res up s = writeBlock s.cfg.dispAddr (digitRegister s.cfg i) [v] (.writeAll i res up) s := by
  simp only [digitStep, hv]

theorem digitStep_none {i : Fin 5} (hv : digitSegments s.cfg s.dispBuf i = none) (res : Code) (up : Upper) :
    digitStep i res up s = .refused .glyphOutOfRange := by
  simp only [digitStep, hv]

section
variable (hoff : s.enabled = false)
include hoff

/-! R362: the primitives that check the engine. -/

theorem startPrim_disabled (ab : Byte) (w : Waiter) : startPrim ab w s = .refused .engineDisabled :=
  whenEnabled_off hoff _

theorem restartPrim_disabled (ab : Byte) (w : Waiter) : restartPrim ab w s = .refused .engineDisabled :=
  whenEnabled_off hoff _

theorem writePrim_disabled (b : Byte) (w : Waiter) : writePrim b w s = .refused .engineDisabled :=
  whenEnabled_off hoff _

theorem readPrim_disabled (p : AckPolicy) (w : Waiter) : readPrim p w s = .refused .engineDisabled :=
  whenEnabled_off hoff _

end

end

/-- Settles O9: the checks come before every effect, in the order of R138. -/
theorem refusedByTheModel : Obligations.RefusedByTheModel := by
  refine ⟨fun s hadm => if_neg (ne_true_of_eq_false hadm), fun s i hidle hoff hi => ?_, fun s hidle _ hnone => ?_,
    fun s hidle hoff hlow => ⟨fun hboard => ?_, fun hboard hin => ⟨?_, ?_⟩⟩, fun s i n hbusy hi hwf => ?_⟩
  · obtain ⟨ab, rfl⟩ | ⟨ab, rfl⟩ | ⟨b, rfl⟩ | ⟨p, rfl⟩ | rfl | ⟨a7, reg, c, hc, rfl⟩ | ⟨a7, reg, bytes, hlen, rfl⟩ |
      ⟨r, hr, rfl⟩ | ⟨o, ho, rfl | rfl⟩ | ⟨l, hl, rfl⟩ | ⟨rfl, hsome⟩ := hi
    · exact (exec_start_idle hidle _).trans (startPrim_disabled hoff _ _)
    · exact (exec_rstart_idle hidle _).trans (restartPrim_disabled hoff _ _)
    · exact (exec_wbyte_idle hidle _).trans (writePrim_disabled hoff _ _)
    · exact (exec_rbyte_idle hidle _).trans (readPrim_disabled hoff _ _)
    · exact (exec_stop_idle hidle).trans (whenEnabled_off hoff _)
    · exact (exec_rdblk_idle hidle hc).trans (startPrim_disabled hoff _ _)
    · exact (exec_wrblk_idle hidle hlen).trans (startPrim_disabled hoff _ _)
    · exact (exec_setblink_idle hidle r).trans ((blinkRate_inRange hr _ _).trans (startPrim_disabled hoff _ _))
    · exact (exec_setosc_idle hidle ho).trans (startPrim_disabled hoff _ _)
    · exact (exec_setdisp_idle hidle ho).trans (startPrim_disabled hoff _ _)
    · exact (exec_setdim_idle hidle hl).trans (startPrim_disabled hoff _ _)
    · obtain ⟨v, hv⟩ := Option.isSome_iff_exists.mp hsome
      exact (exec_writeall_idle hidle).trans ((digitStep_some hv _ _).trans (startPrim_disabled hoff _ _))
  · exact (exec_writeall_idle hidle).trans (digitStep_none hnone _ _)
  · rw [exec_mainloop_idle hidle]
    simp [startLoop, hlow, hboard, hoff]
  · rw [exec_mainloop_idle hidle]
    simp [startLoop, hlow, hboard, loopOn, runJob]
  · have hoff' : ({ s with ctl := .run (.loop [.testSleeping]) } : State).enabled = false := hoff
    simp only [hostSteps, hostStep, loopStep, if_neg hin, whenEnabled_off hoff']
  · exact (exec_command hi hwf s).trans (asCommand_busy hbusy _)

/-- A configuration command whose operand may be out of range (R236 to R238). -/
theorem configCommand_only {p : Prop} [Decidable p] {c : Byte} {s t : State}
    (h : (if p then configWrite c .host s else .next (giveResult (.code .ok) s)) = .next t) : OnlyEngine s t := by
  split_ifs at h
  · exact configWrite_only h
  · cases h
    exact giveResult_only _ _

/-- Settles O18: each is a step whose frame the shared operations' laws give. -/
theorem busOperationsFrame : Obligations.BusOperationsFrame := by
  refine ⟨fun s t i hi h => ?_, fun s t j hj h => ?_⟩
  · obtain rfl | ⟨ab, rfl⟩ | ⟨ab, rfl⟩ | ⟨b, rfl⟩ | ⟨p, rfl⟩ | rfl | rfl | ⟨a7, reg, c, rfl⟩ | ⟨a7, reg, bytes, rfl⟩ |
      rfl | ⟨r, rfl⟩ | ⟨o, rfl⟩ | ⟨o, rfl⟩ | ⟨l, rfl⟩ | rfl | ⟨f, d, rfl⟩ | rfl := hi
    · obtain ⟨-, h⟩ := exec_command_next rfl h
      cases h
      exact (initEngine_only s).trans (giveResult_only _ _)
    · exact startPrim_only (exec_command_next rfl h).2
    · exact restartPrim_only (exec_command_next rfl h).2
    · exact writePrim_only (exec_command_next rfl h).2
    · exact readPrim_only (exec_command_next rfl h).2
    · obtain ⟨-, h⟩ := exec_command_next rfl h
      simp only [commandBody] at h
      obtain ⟨-, h⟩ := whenEnabled_next h
      cases h
      exact (stopPrim_only s).trans (giveResult_only _ _)
    · obtain ⟨-, h⟩ := exec_command_next rfl h
      cases h
      exact recoverStep_only _ _
    · exact readBlock_only (exec_command_next rfl h).2
    · exact writeBlock_only (exec_command_next rfl h).2
    · exact digitStep_only (exec_command_next rfl h).2
    · exact blinkRate_only (exec_command_next rfl h).2
    · exact configCommand_only (exec_command_next rfl h).2
    · exact configCommand_only (exec_command_next rfl h).2
    · exact configCommand_only (exec_command_next rfl h).2
    · cases h
      exact (countTick_only s).trans (settle_only _)
    · simp only [exec, execPeerComplete] at h
      split_ifs at h <;> cases h
      · exact .refl _
      · exact (takeCompletion_only _ _ s).trans (settle_only _)
    · cases h
      exact ⟨rfl, rfl, rfl, rfl, rfl⟩
  · obtain ⟨pos, k, rfl⟩ | ⟨i, res, up, rfl⟩ | ⟨todo, rfl⟩ | ⟨rest, rfl⟩ | ⟨r, rest, rfl⟩ := hj
    · exact blockStep_only h
    · exact digitStep_only h
    · cases h
      exact recoverStep_only _ _
    · exact digitStep_only (s := s) h
    · exact blinkRate_only (s := s) h

end Sys2Proof.Machine
end

section
/-! The invariant (R31, R35, R40, R45, R47, R51, R52, R133, R271): the part about the feeder, the timer and the inputs,
then the engine's part. Each is kept by the shared operations, hence by the cases of a step. -/

namespace Sys2Proof.Machine

/-! ### Admitted configurations -/

/-- What the constraints of R8 give the proofs about every step. -/
structure ConfigFacts (c : Config) : Prop where
  start_pos : c.cdStart ≠ 0
  active_pos : c.thActive ≠ 0
  inactive_pos : c.thInactive ≠ 0
  siren_pos : 0 < c.siren.length
  siren_lt : c.siren.length < 2 ^ 16
  win_lt : c.win.length < 2 ^ 16
  lose_lt : c.lose.length < 2 ^ 16
  base_le : c.dispBase.toNat ≤ 240
  stride_le : 4 * c.dispStride.toNat + 1 ≤ 16
  glyphs_ten : 10 ≤ c.glyph.length
  dash_lt : c.glyphDash.toNat < c.glyph.length
  reload_pos : ∀ r ∈ c.blinkReload, r ≠ 0

theorem configFacts {c : Config} (h : admitted c = true) : ConfigFacts c := by
  simp only [admitted, admissionChecks, tableFits, List.all_cons, List.all_nil, id_eq, Bool.and_true, Bool.and_eq_true,
    decide_eq_true_eq, bne_iff_ne, ne_eq, beq_iff_eq, List.all_eq_true] at h
  obtain ⟨-, -, hstart, hact, hinact, ⟨hs, hs'⟩, ⟨-, hw⟩, ⟨-, hl⟩, hbase, hstride, hten, hdash, -, -, -, -, -, -, -,
    -, -, hreload⟩ := h
  exact ⟨hstart, hact, hinact, hs, hs', hw, hl, hbase, hstride, hten, hdash, hreload⟩

/-- R207: a reload is never 0, whatever the index. -/
theorem blinkReloadOf_ne_zero {c : Config} (hc : ConfigFacts c) (i : Nat) : blinkReloadOf c i ≠ 0 := by
  unfold blinkReloadOf
  rcases Nat.lt_or_ge i c.blinkReload.length with hi | hi
  · rw [List.getD_eq_getElem _ _ hi]
    exact hc.reload_pos _ (List.getElem_mem hi)
  · rw [List.getD_eq_default _ _ hi]
    decide

/-! ### The feeder, the timer and the inputs -/

/-- The invariant but for the engine. -/
structure LifeInv (s : State) : Prop where
  timer : TimerInRange s
  enables : EnablesFollow s
  index : IndexInTable s
  inputs : InputsExist s

theorem Inv.life {s : State} (h : Inv s) : LifeInv s := ⟨h.timer, h.enables, h.index, h.inputs⟩

theorem LifeInv.inv {s : State} (h : LifeInv s) (he : EngineConsistent s) : Inv s :=
  ⟨h.timer, h.enables, h.index, h.inputs, he⟩

/-- The elements `TimerInRange`, `EnablesFollow`, `IndexInTable` and `InputsExist` speak of. -/
structure SameLife (s t : State) : Prop where
  cfg : t.cfg = s.cfg
  cdCounter : t.cdCounter = s.cdCounter
  blinkPhase : t.blinkPhase = s.blinkPhase
  pirHigh : t.pirHigh = s.pirHigh
  pirLow : t.pirLow = s.pirLow
  cdtIe : t.cdtIe = s.cdtIe
  wakeIe : t.wakeIe = s.wakeIe
  afEnable : t.afEnable = s.afEnable
  afIndex : t.afIndex = s.afIndex
  boardState : t.boardState = s.boardState
  safeIdx : t.safeIdx = s.safeIdx
  inputs : t.inputs = s.inputs

section
variable {s t u : State}

theorem SameLife.lifeInv (h : SameLife s t) (hi : LifeInv s) : LifeInv t := by
  obtain ⟨⟨t1, t2, t3, t4, t5, t6⟩, ⟨e1, e2, e3, e4, e5⟩, ⟨i1, i2, i3⟩, ⟨n1, n2⟩⟩ := hi
  obtain ⟨h1, h2, h3, h4, h5, h6, h7, h8, h9, h10, h11, h12⟩ := h
  constructor <;> constructor <;> simp only [h1, h2, h3, h4, h5, h6, h7, h8, h9, h10, h11, h12] <;> assumption

theorem OnlyEngine.sameLife (h : OnlyEngine s t) : SameLife s t := by
  have h := h.lifecycle
  simp only [lifecycleOf, LifecycleFields.mk.injEq] at h
  obtain ⟨h1, h2, h3, h4, h5, h6, h7, h8, h9, h10, h11, h12, h13, h14⟩ := h
  exact ⟨h14, h4, h6, h7, h8, h9, h10, h3, h1, h11, h12, h13⟩

theorem OnlyEngine.lifeInv (h : OnlyEngine s t) : LifeInv s → LifeInv t := h.sameLife.lifeInv

/-- R271: entering a Board State sets its enables. -/
theorem enter_enables (b : BoardState) (s : State) : EnablesFollow (enter b s) := by
  cases b <;> constructor <;> simp [enter, audioStart, audioStop]

/-- R185, R271: a Board State that plays a table is entered with the index 0. -/
theorem enter_index (hpos : 0 < s.cfg.siren.length) (b : BoardState) : IndexInTable (enter b s) := by
  cases b <;> constructor <;> simp [enter, audioStart, audioStop, hpos]

/-- R45, R271: only the entry to `SLEEPING` writes the counter, with its start value. -/
theorem enter_timer (hc : ConfigFacts s.cfg) (b : BoardState) (h : TimerInRange s) : TimerInRange (enter b s) := by
  have hact : (0 : Counter) < s.cfg.thActive := by have := hc.active_pos; bv_omega
  have hinact : (0 : Counter) < s.cfg.thInactive := by have := hc.inactive_pos; bv_omega
  obtain ⟨hcnt, hle, hphase, hhigh, hlow, hone⟩ := h
  cases b with
  | sleeping => exact ⟨hc.start_pos, BitVec.le_refl _, hphase, hact, hinact, .inl rfl⟩
  | waitingArmed => exact ⟨hcnt, hle, hphase, hact, hinact, .inl rfl⟩
  | _ => exact ⟨hcnt, hle, hphase, hhigh, hlow, hone⟩

theorem enter_lifeInv (hc : ConfigFacts s.cfg) (b : BoardState) (h : LifeInv s) : LifeInv (enter b s) where
  timer := enter_timer hc b h.timer
  enables := enter_enables b s
  index := enter_index hc.siren_pos b
  inputs := ⟨by simpa using h.inputs.safe_lt, by simpa using h.inputs.mask_fits⟩

theorem HostWrite.lifeInv (hc : ConfigFacts s.cfg) (h : HostWrite s t) (hi : LifeInv s) : LifeInv t := by
  cases h with
  | none => exact hi
  | enter b => exact enter_lifeInv hc b hi
  | _ => exact SameLife.lifeInv (s := s) ⟨rfl, rfl, rfl, rfl, rfl, rfl, rfl, rfl, rfl, rfl, rfl, rfl⟩ hi

theorem HostMove.lifeInv (hc : ConfigFacts s.cfg) (h : HostMove s t) (hi : LifeInv s) : LifeInv t := by
  cases h with
  | write hw hh => exact hh.onlyEngine.lifeInv (hw.lifeInv hc hi)
  | wait c b w hu => exact ((hu.only.trans (issue_only _ _)).trans (beginWait_only _ _ _)).lifeInv hi
  | failFast w => exact ((clearPriorFlags_only s).trans (resume_only _ _ _)).lifeInv hi
  | notOwner w => exact (resume_only _ _ _).lifeInv hi
  | stop hh => exact ((stopPrim_only s).trans hh.onlyEngine).lifeInv hi
  | recovered a hh => exact ((recoveryAct_only a s).trans hh.onlyEngine).lifeInv hi
  | recovering a todo k => exact ((recoveryAct_only a s).trans (runJob_only _ _)).lifeInv hi

/-! The handlers. -/

/-- R202: the counter goes down by one, and from 1 to its start value. -/
theorem countDown_timer (hc : ConfigFacts s.cfg) (h : TimerInRange s) : TimerInRange (countDown s) := by
  obtain ⟨hcnt, hle, hphase, hhigh, hlow, hone⟩ := h
  have hnext : (countDown s).cdCounter ≠ 0 ∧ (countDown s).cdCounter ≤ s.cfg.cdStart := by
    by_cases hz : s.cdCounter - 1 = 0
    · simp only [countDown, if_pos hz]
      exact ⟨hc.start_pos, BitVec.le_refl _⟩
    · simp only [countDown, if_neg hz]
      exact ⟨hz, by bv_omega⟩
  exact ⟨hnext.1, hnext.2, hphase, hhigh, hlow, hone⟩

/-- R207: the phase goes down by one, and from 1 to its reload. -/
theorem blinkPhaseTick_timer (hc : ConfigFacts s.cfg) (h : TimerInRange s) : TimerInRange (blinkPhaseTick s) := by
  obtain ⟨hcnt, hle, hphase, hhigh, hlow, hone⟩ := h
  have hnext : (blinkPhaseTick s).blinkPhase ≠ 0 := by
    by_cases hz : s.blinkPhase - 1 = 0
    · simp only [blinkPhaseTick, setLed, if_pos hz]
      exact blinkReloadOf_ne_zero hc _
    · simpa only [blinkPhaseTick, setLed, if_neg hz] using hz
  exact ⟨hcnt, hle, hnext, hhigh, hlow, hone⟩

/-- R202, R207: the counting-down duties write the counter, the flag, the phase and the indicator. -/
theorem countDuties_lifeInv (hc : ConfigFacts s.cfg) (h : LifeInv s) : LifeInv (blinkPhaseTick (countDown s)) := by
  obtain ⟨htimer, ⟨e1, e2, e3, e4, e5⟩, ⟨i1, i2, i3⟩, n1, n2⟩ := h
  exact ⟨blinkPhaseTick_timer hc (countDown_timer hc htimer), ⟨e1, e2, e3, e4, e5⟩, ⟨i1, i2, i3⟩, ⟨n1, n2⟩⟩

/-- The debounce counters may take any values in range, one of them 0. -/
theorem LifeInv.withPir (h : LifeInv s) {high low : Counter} (hhigh : high < s.cfg.thActive)
    (hlow : low < s.cfg.thInactive) (hone : high = 0 ∨ low = 0) :
    LifeInv { s with pirHigh := high, pirLow := low } := by
  obtain ⟨⟨t1, t2, t3, -, -, -⟩, ⟨e1, e2, e3, e4, e5⟩, ⟨i1, i2, i3⟩, n1, n2⟩ := h
  exact ⟨⟨t1, t2, t3, hhigh, hlow, hone⟩, ⟨e1, e2, e3, e4, e5⟩, ⟨i1, i2, i3⟩, ⟨n1, n2⟩⟩

theorem debounceActive_lifeInv (hc : ConfigFacts s.cfg) (h : LifeInv s) : LifeInv (debounceActive s) := by
  have hact : (0 : Counter) < s.cfg.thActive := by have := hc.active_pos; bv_omega
  have hinact : (0 : Counter) < s.cfg.thInactive := by have := hc.inactive_pos; bv_omega
  by_cases hth : s.cfg.thActive ≤ s.pirHigh + 1
  · rw [debounceActive_reached hth]
    exact enter_lifeInv (s := { s with pirLow := 0, pirHigh := 0 }) hc _ (h.withPir hact hinact (.inl rfl))
  · simp only [debounceActive, if_neg hth]
    exact h.withPir (BitVec.not_le.mp hth) hinact (.inr rfl)

theorem debounceInactive_lifeInv (hc : ConfigFacts s.cfg) (h : LifeInv s) : LifeInv (debounceInactive s) := by
  have hact : (0 : Counter) < s.cfg.thActive := by have := hc.active_pos; bv_omega
  have hinact : (0 : Counter) < s.cfg.thInactive := by have := hc.inactive_pos; bv_omega
  by_cases hth : s.cfg.thInactive ≤ s.pirLow + 1
  · rw [debounceInactive_reached hth]
    exact enter_lifeInv (s := { s with pirHigh := 0, pirLow := 0 }) hc _ (h.withPir hact hinact (.inl rfl))
  · simp only [debounceInactive, if_neg hth]
    exact h.withPir hact (BitVec.not_le.mp hth) (.inl rfl)

theorem timerDuties_lifeInv (hc : ConfigFacts s.cfg) (pir : Bool) (h : LifeInv s) : LifeInv (timerDuties pir s) := by
  unfold timerDuties
  split
  · exact countDuties_lifeInv hc h
  · cases pir
    · exact debounceInactive_lifeInv hc h
    · exact debounceActive_lifeInv hc h
  all_goals exact h

/-- The audio index may take any value inside the table the Board State selects. -/
theorem LifeInv.withIndex (h : LifeInv s) {i : Counter} {x : Byte} {o : List OutEvent}
    (hi : IndexInTable { s with afIndex := i }) :
    LifeInv { s with afIndex := i, pwmCompare := x, outTrace := o } := by
  obtain ⟨⟨t1, t2, t3, t4, t5, t6⟩, ⟨e1, e2, e3, e4, e5⟩, -, n1, n2⟩ := h
  obtain ⟨i1, i2, i3⟩ := hi
  exact ⟨⟨t1, t2, t3, t4, t5, t6⟩, ⟨e1, e2, e3, e4, e5⟩, ⟨i1, i2, i3⟩, ⟨n1, n2⟩⟩

/-- R182: after a sample of the siren the index is inside it. -/
theorem feedRepeating_lifeInv (hc : ConfigFacts s.cfg) (hboard : s.boardState = .countingDown) (h : LifeInv s) :
    LifeInv (feedRepeating s.cfg.siren s) := by
  have hin := h.index.siren_lt hboard
  have hi : s.afIndex = if s.cfg.siren.length ≤ s.afIndex.toNat then 0 else s.afIndex :=
    (if_neg (Nat.not_le.mpr hin)).symm
  rw [feedRepeating_eq hc.siren_lt hi (List.getElem?_eq_getElem hin)]
  refine h.withIndex ⟨fun _ => ?_, by simp [hboard], by simp [hboard]⟩
  have hlt := hc.siren_lt
  show (if s.afIndex.toNat + 1 = s.cfg.siren.length then 0 else s.afIndex + 1 : Counter).toNat < s.cfg.siren.length
  split
  · exact hc.siren_pos
  · bv_omega

/-- R183: after a sample of a one-shot table the index is inside it or at its end. -/
theorem feedOneShot_lifeInv {table : List Byte} (hlen : table.length < 2 ^ 16)
    (hindex : ∀ i : Counter, i.toNat ≤ table.length → IndexInTable { s with afIndex := i }) (h : LifeInv s) :
    LifeInv (feedOneShot table s) := by
  rcases Nat.lt_or_ge s.afIndex.toNat table.length with hin | hend
  · rw [feedOneShot_inside (List.getElem?_eq_getElem hin)]
    exact h.withIndex (hindex _ (by bv_omega))
  · rwa [feedOneShot_exhausted hend]

theorem feedAudio_lifeInv (hc : ConfigFacts s.cfg) (h : LifeInv s) : LifeInv (feedAudio s) := by
  cases hboard : s.boardState with
  | countingDown =>
    rw [feedAudio_repeating (table := s.cfg.siren) (by rw [hboard]; rfl)]
    exact feedRepeating_lifeInv hc hboard h
  | success =>
    rw [feedAudio_oneShot (table := s.cfg.win) (by rw [hboard]; rfl)]
    exact feedOneShot_lifeInv hc.win_lt (fun i hi => ⟨by simp [hboard], fun _ => hi, by simp [hboard]⟩) h
  | failure =>
    rw [feedAudio_oneShot (table := s.cfg.lose) (by rw [hboard]; rfl)]
    exact feedOneShot_lifeInv hc.lose_lt (fun i hi => ⟨by simp [hboard], by simp [hboard], fun _ => hi⟩) h
  | _ => simpa [feedAudio, selectedTable, hboard] using h

theorem sensorWake_lifeInv (hc : ConfigFacts s.cfg) (h : LifeInv s) : LifeInv (sensorWake s) := by
  unfold sensorWake
  split
  · exact enter_lifeInv hc _ h
  · exact h

theorem interruptEntry_lifeInv (h : LifeInv s) : LifeInv (interruptEntry s) :=
  SameLife.lifeInv (s := s) ⟨rfl, rfl, rfl, rfl, rfl, rfl, rfl, rfl, rfl, rfl, rfl, rfl⟩ h

theorem exec_event_lifeInv {i : Instr} (hc : ConfigFacts s.cfg) (hi : i.isEvent = true) (h : exec i s = .next t)
    (hinv : LifeInv s) : LifeInv t := by
  obtain ⟨-, rfl⟩ | ⟨f, d, -, -, rfl⟩ | ⟨-, rfl⟩ | ⟨m, -, hm, rfl⟩ | ⟨pir, -, -, -, rfl⟩ | ⟨-, -, -, rfl⟩ |
    ⟨-, -, rfl⟩ | rfl := exec_event_cases hi h
  · exact ((countTick_only s).trans (settle_only _)).lifeInv hinv
  · exact ((takeCompletion_only f d s).trans (settle_only _)).lifeInv hinv
  · exact SameLife.lifeInv (s := s) ⟨rfl, rfl, rfl, rfl, rfl, rfl, rfl, rfl, rfl, rfl, rfl, rfl⟩ hinv
  · obtain ⟨⟨t1, t2, t3, t4, t5, t6⟩, ⟨e1, e2, e3, e4, e5⟩, ⟨i1, i2, i3⟩, n1, -⟩ := hinv
    exact ⟨⟨t1, t2, t3, t4, t5, t6⟩, ⟨e1, e2, e3, e4, e5⟩, ⟨i1, i2, i3⟩, ⟨n1, hm⟩⟩
  · exact timerDuties_lifeInv (s := interruptEntry s) hc pir (interruptEntry_lifeInv hinv)
  · exact feedAudio_lifeInv (s := interruptEntry s) hc (interruptEntry_lifeInv hinv)
  · exact sensorWake_lifeInv (s := interruptEntry s) hc (interruptEntry_lifeInv hinv)
  · exact hinv

/-! ### The engine -/

theorem wake_eq_false_iff {b : Counter} : wake b s = false ↔ s.flagTc = false ∧ s.toCount < b := by
  rw [← Bool.not_eq_true, wake_iff, not_or, Bool.not_eq_true, BitVec.not_le]

/-- Nothing pending, and the bus owned by an enabled engine only: the engine of a host that is not in a wait. -/
structure EngineFree (s : State) : Prop where
  pending : s.pending = .none
  owner_enabled : s.owner = true → s.enabled = true

theorem EngineFree.congr (h : engineOf t = engineOf s) (hf : EngineFree s) : EngineFree t := by
  have hp : t.pending = s.pending := congrArg EngineFields.pending h
  have ho : t.owner = s.owner := congrArg EngineFields.owner h
  have he : t.enabled = s.enabled := congrArg EngineFields.enabled h
  exact ⟨hp.trans hf.pending, by rw [ho, he]; exact hf.owner_enabled⟩

/-- Outside a wait nothing is pending. -/
theorem EngineConsistent.free (h : EngineConsistent s) (hwait : ∀ b w, s.ctl ≠ .wait b w) : EngineFree s where
  pending := by
    by_contra hp
    obtain ⟨b, w, hw⟩ := h.pending_iff.mp hp
    exact hwait b w hw
  owner_enabled := h.owner_enabled

/-- The engine's invariant for a host outside a wait. -/
theorem EngineFree.consistent (h : EngineFree s) (hwait : ∀ b w, s.ctl ≠ .wait b w)
    (hblock : ∀ pos k, s.ctl = .run (.block pos k) → holdsBus pos = true → s.owner = true) : EngineConsistent s where
  pending_iff := iff_of_false (not_not_intro h.pending) fun ⟨b, w, hw⟩ => hwait b w hw
  wait_open b w hw := absurd hw (hwait b w)
  owner_enabled := h.owner_enabled
  block_owns := hblock

theorem HandsOver.consistent (h : HandsOver s t) (hf : EngineFree s) : EngineConsistent t :=
  (hf.congr h.engineOf).consistent h.not_wait fun pos k hk => absurd hk (h.not_block pos k)

/-- A waiter goes on at a phase that holds the bus only after `OK` or a declined start, neither of which releases it. -/
theorem resume_consistent (w : Waiter) {r : Code} (hf : EngineFree s)
    (howner : r = .ok ∨ r = .nack → s.owner = true) : EngineConsistent (resume w r s) := by
  have hidle (v : Result) : EngineConsistent (giveResult v s) := (handsOver_giveResult v s).consistent hf
  have hblock (pos : BlkPos) (k : Cont) (h : holdsBus pos = true → s.owner = true) :
      EngineConsistent (runJob (.block pos k) s) :=
    EngineFree.consistent ⟨hf.pending, hf.owner_enabled⟩ nofun (by rintro _ _ ⟨⟩; exact h)
  cases w with
  | host => exact hidle _
  | hostRead => exact hidle _
  | blkStart next k =>
    simp only [resume]
    split_ifs with hok hnack
    · exact hblock _ _ fun _ => howner (.inl hok)
    · exact hblock _ _ fun _ => howner (.inr hnack)
    · exact hblock _ _ nofun
  | blkNext next k =>
    simp only [resume]
    split_ifs with hok
    · exact hblock _ _ fun _ => howner (.inl hok)
    · exact hblock _ _ nofun
  | blkRead left got k =>
    simp only [resume]
    split_ifs with hok
    · exact hblock _ _ fun _ => howner (.inl hok)
    · exact hblock _ _ fun _ => howner (.inl hok)
    · exact hblock _ _ nofun

/-- R133: only arbitration lost releases the bus at the end of a wait. -/
theorem endWait_consistent (b : Counter) (w : Waiter) (howner : s.owner = true) (hen : s.enabled = true) :
    EngineConsistent (endWait b w s) := by
  refine resume_consistent w ⟨rfl, fun _ => hen⟩ fun hr => ?_
  rw [closeWait_owner, if_neg (by rintro h; rw [h] at hr; simp at hr), howner]

theorem issue_beginWait_consistent (c : BusCmd) (b : Counter) (w : Waiter) (howner : s.owner = true)
    (hen : s.enabled = true) : EngineConsistent (beginWait b w (issue c s)) := by
  have hctl : (openWait b w (issue c s)).ctl = .wait b w := rfl
  cases hw : wake b (openWait b w (issue c s)) with
  | true =>
    rw [beginWait, settle_over hctl hw]
    exact endWait_consistent b w howner hen
  | false =>
    rw [beginWait, settle_open hctl hw]
    obtain ⟨-, hlt⟩ := wake_eq_false_iff.mp hw
    exact {
      pending_iff := iff_of_true (by cases c <;> nofun) ⟨b, w, rfl⟩
      wait_open := by rintro _ _ ⟨⟩; exact ⟨rfl, hlt, howner⟩
      owner_enabled := fun _ => hen
      block_owns := nofun }

theorem stopPrim_free (h : EngineFree s) : EngineFree (stopPrim s).2 := by
  rw [stopPrim_snd]
  split
  · exact ⟨rfl, nofun⟩
  · exact h

theorem recoveryAct_free (a : RecAct) (h : EngineFree s) : EngineFree (recoveryAct a s) := by
  cases a with
  | release => exact ⟨h.pending, h.owner_enabled⟩
  | pulse => exact ⟨h.pending, h.owner_enabled⟩
  | reinit => exact ⟨rfl, nofun⟩

theorem HostMove.consistent (h : HostMove s t) (hf : EngineFree s) : EngineConsistent t := by
  cases h with
  | write hw hh => exact hh.consistent (hf.congr hw.engineOf)
  | wait c b w hu hen howner => exact issue_beginWait_consistent c b w howner (hu.enabled.trans hen)
  | failFast w => exact resume_consistent (s := clearPriorFlags s) w ⟨hf.pending, hf.owner_enabled⟩ (by simp)
  | notOwner w => exact resume_consistent w hf (by simp)
  | stop hh => exact hh.consistent (stopPrim_free hf)
  | recovered a hh => exact hh.consistent (recoveryAct_free a hf)
  | recovering a todo k =>
    obtain ⟨hp, ho⟩ := recoveryAct_free a hf
    exact EngineFree.consistent ⟨hp, ho⟩ nofun (by rintro _ _ ⟨⟩; nofun)

/-- What the host is doing and the engine decide the engine's invariant. -/
theorem EngineConsistent.congr (he : engineOf t = engineOf s) (hctl : t.ctl = s.ctl) (h : EngineConsistent s) :
    EngineConsistent t := by
  simp only [engineOf, EngineFields.mk.injEq] at he
  obtain ⟨h1, h2, h3, -, -, -, -, -, h9, h10, -⟩ := he
  obtain ⟨c1, c2, c3, c4⟩ := h
  constructor <;> simp only [h1, h2, h3, h9, h10, hctl] <;> assumption

/-- A tick, in a wait and outside one. -/
theorem tick_consistent (h : EngineConsistent s) : EngineConsistent (settle (countTick s)) := by
  by_cases hwait : ∃ b w, s.ctl = .wait b w
  · obtain ⟨b, w, hctl⟩ := hwait
    obtain ⟨htc, hlt, howner⟩ := h.wait_open b w hctl
    cases hw : wake b (countTick s) with
    | true =>
      rw [settle_over (s := countTick s) hctl hw]
      exact endWait_consistent b w howner (h.owner_enabled howner)
    | false =>
      rw [settle_open (s := countTick s) hctl hw]
      obtain ⟨-, hcount⟩ := wake_eq_false_iff.mp hw
      obtain ⟨c1, c2, c3, c4⟩ := h
      exact ⟨c1, fun b' w' hc => by
        obtain ⟨rfl, rfl⟩ : b = b' ∧ w = w' := by simpa [hctl] using hc
        exact ⟨htc, hcount, howner⟩, c3, c4⟩
  · simp only [not_exists] at hwait
    rw [settle_free (s := countTick s) hwait]
    obtain ⟨hp, ho⟩ := h.free hwait
    exact EngineFree.consistent ⟨hp, ho⟩ hwait h.block_owns

/-- A completion is taken in a wait only. -/
theorem completion_consistent (f : PeerFlags) (d : Byte) (hp : s.pending ≠ .none) (h : EngineConsistent s) :
    EngineConsistent (settle (takeCompletion f d s)) := by
  obtain ⟨b, w, hctl⟩ := h.pending_iff.mp hp
  obtain ⟨-, -, howner⟩ := h.wait_open b w hctl
  rw [settle_over (s := takeCompletion f d s) hctl (wake_iff.mpr (.inl rfl))]
  exact endWait_consistent b w howner (h.owner_enabled howner)

theorem HandlerFrame.consistent (h : HandlerFrame s t) : EngineConsistent s → EngineConsistent t :=
  EngineConsistent.congr h.engineOf h.1.ctl

theorem exec_event_consistent {i : Instr} (hi : i.isEvent = true) (h : exec i s = .next t)
    (he : EngineConsistent s) : EngineConsistent t := by
  obtain ⟨-, rfl⟩ | ⟨f, d, -, hp, rfl⟩ | ⟨-, rfl⟩ | ⟨m, -, hm, rfl⟩ | ⟨pir, -, -, -, rfl⟩ | ⟨-, -, -, rfl⟩ |
    ⟨-, -, rfl⟩ | rfl := exec_event_cases hi h
  · exact tick_consistent he
  · exact completion_consistent f d hp he
  · obtain ⟨c1, c2, c3, c4⟩ := he
    exact ⟨c1, c2, c3, c4⟩
  · exact EngineConsistent.congr (s := s) rfl rfl he
  · exact ((interruptEntry_frame s).trans (timerDuties_frame _ _)).consistent he
  · exact ((interruptEntry_frame s).trans (feedAudio_frame _)).consistent he
  · exact ((interruptEntry_frame s).trans (sensorWake_frame _)).consistent he
  · exact he

/-! ### Every step -/

/-- The streams are no part of the invariant. -/
theorem withStreams_inv (cmds events : List Byte) (sched : List Agent) (h : Inv s) :
    Inv { s with cmds := cmds, events := events, sched := sched } :=
  LifeInv.inv (SameLife.lifeInv (s := s) ⟨rfl, rfl, rfl, rfl, rfl, rfl, rfl, rfl, rfl, rfl, rfl, rfl⟩ h.life)
    (EngineConsistent.congr (s := s) rfl rfl h.engine)

/-- A step of the host, which is not in a wait. -/
theorem hostMove_inv (hc : ConfigFacts s.cfg) (hwait : ∀ b w, s.ctl ≠ .wait b w)
    (h : t = runJob .loopGate s ∨ HostMove s t) (hinv : Inv s) : Inv t := by
  have hf := hinv.engine.free hwait
  obtain rfl | h := h
  · exact ((runJob_only .loopGate s).lifeInv hinv.life).inv
      (EngineFree.consistent ⟨hf.pending, hf.owner_enabled⟩ nofun nofun)
  · exact (h.lifeInv hc hinv.life).inv (h.consistent hf)

end

/-- Settles O13: the step is the host's, whose cases are those of `HostMove`, or an event. -/
theorem stepKeepsInv : Obligations.StepKeepsInv := by
  intro s t hinv h
  obtain ⟨hadm, u, ⟨cmds, events, sched, hu⟩, h⟩ := step_next h
  have hc : ConfigFacts u.cfg := by rw [hu]; exact configFacts hadm
  have hinv : Inv u := by rw [hu]; exact withStreams_inv cmds events sched hinv
  obtain ⟨j, hrun, h⟩ | ⟨i, hi, h⟩ | ⟨i, hi, h⟩ := h
  · exact hostMove_inv hc (by simp [hrun]) (hostStep_cases h) hinv
  · have hidle := (exec_command_next hi h).1
    exact hostMove_inv hc (by simp [hidle]) (exec_command_cases hi h) hinv
  · exact (exec_event_lifeInv hc hi h hinv.life).inv (exec_event_consistent hi h hinv.engine)

/-- Settles O11. -/
theorem resetValues : Obligations.ResetValues := by
  refine ⟨?_, rfl, by decide⟩
  rintro c d s rfl
  exact ⟨rfl, rfl, rfl, rfl, rfl, rfl, rfl, rfl, rfl, rfl, rfl, rfl, rfl, rfl, rfl, rfl, rfl, rfl, rfl, rfl, rfl, rfl,
    rfl, rfl, rfl, rfl, rfl, rfl, rfl⟩

theorem resetWith_inv {c : Config} {d : Draws} (hadm : admitted c = true) (hd : drawFits c d) :
    Inv (State.resetWith c d) := by
  have hc := configFacts hadm
  have hact : (0 : Counter) < c.thActive := by have := hc.active_pos; bv_omega
  have hinact : (0 : Counter) < c.thInactive := by have := hc.inactive_pos; bv_omega
  have hlife : LifeInv (State.resetWith c d) :=
    { timer := ⟨hc.start_pos, BitVec.le_refl _, blinkReloadOf_ne_zero hc _, hact, hinact, .inl rfl⟩
      enables := by constructor <;> simp [State.resetWith]
      index := by constructor <;> simp
      inputs := ⟨hd.1, hd.2⟩ }
  exact hlife.inv (EngineFree.consistent ⟨rfl, nofun⟩ nofun nofun)

/-- Settles O12: at reset the counters are at their start, the Board State is `SLEEPING`, and the engine is free. -/
theorem resetMeetsInv : Obligations.ResetMeetsInv :=
  ⟨fun _ _ => resetWith_inv, resetWith_inv (by decide) ⟨by decide, by decide⟩⟩

/-! ### The primitives, by the checks they pass -/

section
variable {s : State} (hen : s.enabled = true)
include hen

/-- R138. -/
theorem startPrim_owner (howner : s.owner = true) (ab : Byte) (w : Waiter) :
    startPrim ab w s = .refused .alreadyOwner :=
  (whenEnabled_on hen _).trans (if_pos howner)

/-- R141: the latched bus error. -/
theorem startPrim_latched (howner : s.owner = false) (hberr : s.flagBerr = true) (ab : Byte) (w : Waiter) :
    startPrim ab w s = .next (resume w .busError (clearPriorFlags s)) := by
  refine (whenEnabled_on hen _).trans ?_
  simp only [howner, hberr, Bool.false_eq_true, if_true, if_false]

/-- R141: the address byte goes out. -/
theorem startPrim_free (howner : s.owner = false) (hberr : s.flagBerr = false) (ab : Byte) (w : Waiter) :
    startPrim ab w s = .next (beginWait s.cfg.toAddr w
      (issue (.addr ab false) (takeBus (loadData ab (clearPriorFlags s))))) := by
  refine (whenEnabled_on hen _).trans ?_
  simp only [howner, hberr, Bool.false_eq_true, if_false]

theorem restartPrim_owner (howner : s.owner = true) (ab : Byte) (w : Waiter) :
    restartPrim ab w s = .next (beginWait s.cfg.toAddr w (issue (.addr ab true) (loadData ab s))) :=
  (whenEnabled_on hen _).trans (if_pos howner)

theorem restartPrim_notOwner (howner : s.owner = false) (ab : Byte) (w : Waiter) :
    restartPrim ab w s = .next (resume w .masterNotOwner s) :=
  (whenEnabled_on hen _).trans (if_neg (ne_true_of_eq_false howner))

theorem writePrim_owner (howner : s.owner = true) (b : Byte) (w : Waiter) :
    writePrim b w s = .next (beginWait s.cfg.toWrite w (issue (.write b) (loadData b s))) :=
  (whenEnabled_on hen _).trans (if_pos howner)

theorem writePrim_notOwner (howner : s.owner = false) (b : Byte) (w : Waiter) :
    writePrim b w s = .next (resume w .masterNotOwner s) :=
  (whenEnabled_on hen _).trans (if_neg (ne_true_of_eq_false howner))

theorem readPrim_owner (howner : s.owner = true) (p : AckPolicy) (w : Waiter) :
    readPrim p w s = .next (beginWait s.cfg.toRead w (issue (.read p) (latchPolicy p s))) :=
  (whenEnabled_on hen _).trans (if_pos howner)

theorem readPrim_notOwner (howner : s.owner = false) (p : AckPolicy) (w : Waiter) :
    readPrim p w s = .next (resume w .masterNotOwner s) :=
  (whenEnabled_on hen _).trans (if_neg (ne_true_of_eq_false howner))

end

theorem stopPrim_owner {s : State} (howner : s.owner = true) : stopPrim s = (.ok, stopEngine s) := if_pos howner

theorem stopPrim_notOwner {s : State} (howner : s.owner = false) : stopPrim s = (.masterNotOwner, s) :=
  if_neg (ne_true_of_eq_false howner)

/-! ### A block operation in progress -/

/-- The three phases that end a block operation with a `STOP`, with the bus owned (R146, R160, R166). -/
theorem stopDeliver_owner {s : State} (hen : s.enabled = true) (howner : s.owner = true) (k : Cont) (c : Code)
    (got : List Byte) :
    (whenEnabled s fun s => .next (deliverBlock k c got (stopPrim s).2)) =
      .next (deliverBlock k c got (stopEngine s)) := by
  rw [whenEnabled_on hen, stopPrim_owner howner]

section
variable {s : State} {pos : BlkPos} {k : Cont}

theorem deliverBlock_trace (k : Cont) (c : Code) (got : List Byte) (s : State) :
    (deliverBlock k c got s).busTrace = s.busTrace :=
  congrArg EngineFields.busTrace (handsOver_deliverBlock k c got s).engineOf

/-- R163: a primitive of an owning block operation issues its command. -/
theorem blockStep_owner (hen : s.enabled = true) (howner : s.owner = true) (hpos : holdsBus pos = true) :
    ∃ t, blockStep pos k s = .next t ∧ ∃ e, t.busTrace = s.busTrace ++ [e] := by
  have hissue (c : BusCmd) (b : Counter) (w : Waiter) (u : State) (hu : u.busTrace = s.busTrace) :
      ∃ e, (beginWait b w (issue c u)).busTrace = s.busTrace ++ [e] :=
    ⟨_, hu ▸ (issue_beginWait_adds c b w u).trace⟩
  have hstop (c : Code) (got : List Byte) : ∃ e, (deliverBlock k c got (stopEngine s)).busTrace = s.busTrace ++ [e] :=
    ⟨_, deliverBlock_trace ..⟩
  match pos, hpos with
  | .wReg reg bytes, _ => exact ⟨_, writePrim_owner hen howner _ _, hissue _ _ _ _ rfl⟩
  | .wData (b :: bytes), _ => exact ⟨_, writePrim_owner hen howner _ _, hissue _ _ _ _ rfl⟩
  | .rReg a7 reg count, _ => exact ⟨_, writePrim_owner hen howner _ _, hissue _ _ _ _ rfl⟩
  | .rRestart a7 count, _ => exact ⟨_, restartPrim_owner hen howner _ _, hissue _ _ _ _ rfl⟩
  | .rByte left got, _ => exact ⟨_, readPrim_owner hen howner _ _, hissue _ _ _ _ rfl⟩
  | .wData [], _ => exact ⟨_, stopDeliver_owner hen howner _ _ _, hstop _ _⟩
  | .stop got, _ => exact ⟨_, stopDeliver_owner hen howner _ _ _, hstop _ _⟩
  | .stopAbsent, _ => exact ⟨_, stopDeliver_owner hen howner _ _ _, hstop _ _⟩

/-- R163: each act of the recovery of a failed block operation is one entry. -/
theorem blockStep_recover (todo : List RecAct) :
    ∃ t, blockStep (.recover todo) k s = .next t ∧ (todo ≠ [] → ∃ e, t.busTrace = s.busTrace ++ [e]) := by
  match todo with
  | [] => exact ⟨_, rfl, nofun⟩
  | [a] => exact ⟨_, rfl, fun _ => ⟨_, (deliverBlock_trace ..).trans (recoveryAct_adds a s).trace⟩⟩
  | a :: a' :: todo => exact ⟨_, rfl, fun _ => ⟨_, (recoveryAct_adds a s).trace⟩⟩

end

/-- Settles O35: by the invariant an operation that holds the bus owns it, and the engine is then enabled. -/
theorem blockOperationNeverStuck : Obligations.BlockOperationNeverStuck := by
  intro s pos k hinv hrun
  cases hpos : holdsBus pos with
  | true =>
    have howner := hinv.engine.block_owns pos k hrun hpos
    obtain ⟨t, hstep, htrace⟩ := blockStep_owner (k := k) (hinv.engine.owner_enabled howner) howner hpos
    exact ⟨t, hstep, fun _ => htrace⟩
  | false =>
    obtain ⟨todo, rfl⟩ : ∃ todo, pos = .recover todo := by cases pos <;> first | exact ⟨_, rfl⟩ | cases hpos
    obtain ⟨t, hstep, htrace⟩ := blockStep_recover (s := s) (k := k) todo
    exact ⟨t, hstep, fun hne => htrace (by rintro rfl; exact hne rfl)⟩

end Sys2Proof.Machine
end

section
/-! The handlers (R201 to R208, R325): what each may write, then the ticks of the countdown and of the debounce
counted. -/

namespace Sys2Proof.Machine

/-! ### What the handlers may write -/

section
variable {s t : State}

theorem played_exec {i : Counter} {out : List OutEvent} (h : Played s i out t) :
    t = { s with
      lowpower := t.lowpower, afIndex := t.afIndex, pwmCompare := t.pwmCompare, outTrace := t.outTrace } := by
  rw [Played] at h
  rw [h]

/-- R181: an underflow does nothing, or is one step of the feeder. -/
theorem exec_pwmUnderflow_played (h : exec .pwmUnderflow s = .next t) : ∃ i out, Played s i out t := by
  simp only [exec, execPwmUnderflow] at h
  split_ifs at h <;> cases h
  · unfold interruptReturn feedAudio
    split
    · exact ⟨_, _, rfl⟩
    · unfold feedOneShot
      split
      · exact ⟨_, _, rfl⟩
      · exact ⟨s.afIndex, [], by rw [Played, List.append_nil]; rfl⟩
    · exact ⟨s.afIndex, [], by rw [Played, List.append_nil]; rfl⟩
  · exact ⟨_, _, .refl s⟩

theorem exec_sensorEdge_frame (h : exec .sensorEdge s = .next t) :
    t = { s with
      lowpower := t.lowpower, boardState := t.boardState, cdtIe := t.cdtIe, wakeIe := t.wakeIe,
      pirHigh := t.pirHigh, pirLow := t.pirLow } := by
  simp only [exec, execSensorEdge] at h
  split_ifs at h <;> cases h
  · unfold interruptReturn sensorWake
    split <;> rfl
  · rfl

theorem exec_tickCd_frame {pir : Bool} (h : exec (.tickCd pir) s = .next t) :
    t = { s with
      lowpower := t.lowpower, cdCounter := t.cdCounter, rollover := t.rollover, blinkPhase := t.blinkPhase,
      led := t.led, outTrace := t.outTrace, pirHigh := t.pirHigh, pirLow := t.pirLow, boardState := t.boardState,
      afEnable := t.afEnable, afIndex := t.afIndex, cdtIe := t.cdtIe, wakeIe := t.wakeIe } := by
  simp only [exec, execTickCd] at h
  split_ifs at h <;> cases h
  · unfold interruptReturn timerDuties
    split
    · rfl
    · cases pir
      · simp only [Bool.false_eq_true, if_false, debounceInactive]
        split <;> rfl
      · simp only [if_true, debounceActive]
        split <;> rfl
    all_goals rfl
  · rfl

end

/-- Settles O17: the handlers' own frames give the frame they share. -/
theorem handlersKeepToTheirElements : Obligations.HandlersKeepToTheirElements := by
  refine ⟨fun s t i hi h => ?_, fun s t h => ?_, fun s t h => exec_sensorEdge_frame h,
    fun s t pir h => exec_tickCd_frame h⟩
  · obtain ⟨pir, rfl⟩ | rfl | rfl := hi
    · have ht := exec_tickCd_frame h
      rw [ht]
      exact ⟨rfl, rfl, rfl, rfl, rfl, rfl⟩
    · obtain ⟨i, out, ht⟩ := exec_pwmUnderflow_played h
      rw [Played] at ht
      rw [ht]
      exact ⟨rfl, rfl, rfl, rfl, rfl, rfl⟩
    · have ht := exec_sensorEdge_frame h
      rw [ht]
      exact ⟨rfl, rfl, rfl, rfl, rfl, rfl⟩
  · obtain ⟨i, out, ht⟩ := exec_pwmUnderflow_played h
    exact played_exec ht

/-! ### The Board State under events -/

section
variable {s t : State}

theorem OnlyEngine.boardState (h : OnlyEngine s t) : t.boardState = s.boardState :=
  congrArg LifecycleFields.boardState h.lifecycle

theorem debounceActive_boardState (s : State) :
    (debounceActive s).boardState = s.boardState ∨ (debounceActive s).boardState = .countingDown := by
  simp only [debounceActive]
  split
  · exact .inr rfl
  · exact .inl rfl

theorem debounceInactive_boardState (s : State) :
    (debounceInactive s).boardState = s.boardState ∨ (debounceInactive s).boardState = .sleeping := by
  simp only [debounceInactive]
  split
  · exact .inr rfl
  · exact .inl rfl

/-- R203, R204: the tick leaves `WAITING_ARMED` only, for the state of its sensor level. -/
theorem timerDuties_boardState {pir : Bool} (hne : (timerDuties pir s).boardState ≠ s.boardState) :
    s.boardState = .waitingArmed ∧
      (timerDuties pir s).boardState = if pir then .countingDown else .sleeping := by
  cases hboard : s.boardState with
  | waitingArmed =>
    refine ⟨rfl, ?_⟩
    cases pir with
    | true =>
      have hduty : timerDuties true s = debounceActive s := by simp [timerDuties, hboard]
      rw [hduty] at hne ⊢
      exact (debounceActive_boardState s).resolve_left hne
    | false =>
      have hduty : timerDuties false s = debounceInactive s := by simp [timerDuties, hboard]
      rw [hduty] at hne ⊢
      exact (debounceInactive_boardState s).resolve_left hne
  | countingDown =>
    have hduty : timerDuties pir s = blinkPhaseTick (countDown s) := by simp [timerDuties, hboard]
    rw [hduty] at hne
    exact absurd rfl hne
  | _ =>
    have hduty : timerDuties pir s = s := by simp [timerDuties, hboard]
    rw [hduty] at hne
    exact absurd rfl hne

theorem feedAudio_boardState (s : State) : (feedAudio s).boardState = s.boardState := by
  unfold feedAudio
  split
  · rfl
  · unfold feedOneShot
    split <;> rfl
  · rfl

/-- R208: the sensor edge leaves `SLEEPING` only. -/
theorem sensorWake_boardState (hne : (sensorWake s).boardState ≠ s.boardState) :
    s.boardState = .sleeping ∧ (sensorWake s).boardState = .waitingArmed := by
  unfold sensorWake at hne ⊢
  split at hne
  · next hb => exact ⟨hb, by rw [if_pos hb, enter_boardState]⟩
  · exact absurd rfl hne

end

/-- Settles O19: the events other than the tick and the sensor edge do not touch the Board State. -/
theorem eventsChangeBoardState : Obligations.EventsChangeBoardState := by
  intro s t i hi h hne
  obtain ⟨-, rfl⟩ | ⟨f, d, -, -, rfl⟩ | ⟨-, rfl⟩ | ⟨m, -, -, rfl⟩ | ⟨pir, rfl, -, -, rfl⟩ | ⟨-, -, -, rfl⟩ |
    ⟨rfl, -, rfl⟩ | rfl := exec_event_cases hi h
  · exact absurd ((countTick_only s).trans (settle_only _)).boardState hne
  · exact absurd ((takeCompletion_only f d s).trans (settle_only _)).boardState hne
  · exact absurd rfl hne
  · exact absurd rfl hne
  · obtain ⟨harmed, ht⟩ := timerDuties_boardState (s := interruptEntry s) hne
    cases pir with
    | true => exact .inr (.inl ⟨rfl, harmed, ht⟩)
    | false => exact .inr (.inr ⟨rfl, harmed, ht⟩)
  · exact absurd (feedAudio_boardState _) hne
  · obtain ⟨hsleep, ht⟩ := sensorWake_boardState (s := interruptEntry s) hne
    exact .inl ⟨rfl, hsleep, ht⟩
  · exact absurd rfl hne

/-- Settles O20: in `DONE` the invariant has every interrupt off, and the gate does not open. -/
theorem doneIsTerminal : Obligations.DoneIsTerminal := by
  intro s t hinv hdone hlow hgate h
  obtain ⟨-, u, ⟨cmds, events, sched, hu⟩, h⟩ := step_next h
  have hwake : s.wakeIe ≠ true := fun hw => by
    have := hinv.enables.wake_iff.mp hw
    simp [hdone] at this
  have hfree : s.pending = .none := (hinv.engine.free (by simp [hgate])).pending
  subst hu
  obtain ⟨j, hrun, h⟩ | ⟨i, hi, h⟩ | ⟨i, hi, h⟩ := h
  · obtain rfl : .loopGate = j := by simpa [hgate] using hrun
    obtain ⟨-, rfl⟩ | ⟨hno, -⟩ := startLoop_next h
    · exact ⟨hdone, hlow, rfl, rfl⟩
    · simp [hlow] at hno
  · have hidle := (exec_command_next hi h).1
    simp [hgate] at hidle
  · obtain ⟨-, rfl⟩ | ⟨f, d, -, hp, rfl⟩ | ⟨-, rfl⟩ | ⟨m, -, -, rfl⟩ | ⟨pir, -, -, hno, rfl⟩ | ⟨-, -, hno, rfl⟩ |
      ⟨-, hw, rfl⟩ | rfl := exec_event_cases hi h
    · rw [settle_free (by simp [hgate])]
      exact ⟨hdone, hlow, hgate, rfl⟩
    · exact absurd hfree hp
    · exact ⟨hdone, hlow, hgate, rfl⟩
    · exact ⟨hdone, hlow, hgate, rfl⟩
    · exact absurd hdone hno
    · exact absurd hdone hno
    · exact absurd hw hwake
    · exact ⟨hdone, hlow, hgate, rfl⟩

/-! ### One interrupt -/

section
variable {s : State}

theorem exec_tickCd_enabled (hie : s.cdtIe = true) (hne : s.boardState ≠ .done) (pir : Bool) :
    exec (.tickCd pir) s = .next (timerDuties pir (interruptEntry s)) := if_pos ⟨hie, hne⟩

theorem exec_sensorEdge_enabled (hie : s.wakeIe = true) :
    exec .sensorEdge s = .next (sensorWake (interruptEntry s)) := if_pos hie

end

/-- Settles O46: the enables gate each handler, and a Board State without a duty leaves its body empty. -/
theorem interruptsWithoutDuty : Obligations.InterruptsWithoutDuty := by
  intro s pir
  refine ⟨fun hoff => if_neg ?_, fun hoff => if_neg ?_, fun hoff => if_neg (ne_true_of_eq_false hoff), fun hen hb => ?_,
    fun hen hb => ?_, fun hen hb => ?_⟩
  · rintro ⟨hon, hne⟩
    rcases hoff with hoff | hdone
    · simp [hoff] at hon
    · exact hne hdone
  · rintro ⟨hon, hne⟩
    rcases hoff with hoff | hdone
    · simp [hoff] at hon
    · exact hne hdone
  · have hnone : selectedTable s.cfg s.boardState = none := by rcases hb with hb | hb | hb <;> rw [hb] <;> rfl
    have hne : s.boardState ≠ .done := by rcases hb with hb | hb | hb <;> rw [hb] <;> nofun
    have hfeed : feedAudio (interruptEntry s) = interruptEntry s := by
      unfold feedAudio
      split
      · next hsel => cases hnone.symm.trans hsel
      · next hsel => cases hnone.symm.trans hsel
      · rfl
    exact (if_pos ⟨hen, hne⟩).trans (congrArg Host.Outcome.next hfeed)
  · have hne : s.boardState ≠ .done := by rcases hb with hb | hb | hb | hb <;> rw [hb] <;> nofun
    have hduty : timerDuties pir (interruptEntry s) = interruptEntry s := by
      rcases hb with hb | hb | hb | hb <;> simp [timerDuties, interruptEntry, hb]
    exact (exec_tickCd_enabled hen hne pir).trans (congrArg Host.Outcome.next hduty)
  · exact (exec_sensorEdge_enabled hen).trans (congrArg Host.Outcome.next (if_neg hb))

/-- Settles O47. -/
theorem readsHandBackTheElement : Obligations.ReadsHandBackTheElement := by
  intro s hidle
  have hres (r : Result) : Host.Outcome.next (giveResult r s) = (.next { s with result := r } : Out) :=
    congrArg _ (giveResult_of_idle hidle r)
  exact ⟨(exec_idle (n := 0) hidle rfl rfl).trans (hres _), (exec_idle (n := 0) hidle rfl rfl).trans (hres _)⟩

/-- Settles O52. -/
theorem sensorEdgeAndInputs : Obligations.SensorEdgeAndInputs := by
  refine ⟨fun s hie hsleep => ?_, fun s mask => ⟨fun hm => if_pos (decide_eq_true hm), fun hm => if_neg ?_⟩⟩
  · exact (exec_sensorEdge_enabled hie).trans (congrArg Host.Outcome.next (if_pos hsleep))
  · simpa [maskFits] using hm

/-- Settles O53: each Board State's entry is a definition of its own. -/
theorem setstateEnters : Obligations.SetstateEnters := by
  intro s hidle
  have henter (b : BoardState) : exec (.setstate b) s = .next { enter b s with result := .none } :=
    (exec_idle (n := 0) hidle rfl rfl).trans
      (congrArg Host.Outcome.next (giveResult_of_idle ((enter_ctl b s).trans hidle) _))
  exact ⟨henter _, henter _, henter _, henter _, henter _, henter _, henter _⟩

/-! ### The countdown -/

/-- R202: the counter at 1 is the one whose decrement is 0. -/
theorem counter_sub_one_eq_zero_iff (w : Counter) : w - 1 = 0 ↔ w = 1 := by
  constructor <;> intro h <;> bv_omega

theorem countDown_eq (s : State) : countDown s = { s with
    cdCounter := if s.cdCounter = 1 then s.cfg.cdStart else s.cdCounter - 1,
    rollover := if s.cdCounter = 1 then true else s.rollover } := by
  simp only [countDown, counter_sub_one_eq_zero_iff]

/-- Settles O49: the two duties of `COUNTING_DOWN`, one after the other. -/
theorem countdownTick : Obligations.CountdownTick := by
  intro s pir phase hie hboard hphase
  have hduty : timerDuties pir (interruptEntry s) = blinkPhaseTick (countDown (interruptEntry s)) := by
    simp [timerDuties, interruptEntry, hboard]
  rw [exec_tickCd_enabled hie (by simp [hboard]), hduty, countDown_eq, hphase]
  rfl

/-- What a tick of the countdown leaves alone, and that the low-power wait is over. -/
structure CountsOn (s t : State) : Prop where
  engine : engineOf t = engineOf s
  host : hostOf t = hostOf s
  dispBuf : t.dispBuf = s.dispBuf
  inputs : t.inputs = s.inputs
  safeIdx : t.safeIdx = s.safeIdx
  cfg : t.cfg = s.cfg
  boardState : t.boardState = s.boardState
  cdtIe : t.cdtIe = s.cdtIe
  lowpower : s.lowpower = false → t.lowpower = false

section
variable {s t u : State}

theorem CountsOn.refl (s : State) : CountsOn s s := ⟨rfl, rfl, rfl, rfl, rfl, rfl, rfl, rfl, id⟩

theorem CountsOn.trans (h : CountsOn s t) (h' : CountsOn t u) : CountsOn s u :=
  ⟨h'.engine.trans h.engine, h'.host.trans h.host, h'.dispBuf.trans h.dispBuf, h'.inputs.trans h.inputs,
    h'.safeIdx.trans h.safeIdx, h'.cfg.trans h.cfg, h'.boardState.trans h.boardState, h'.cdtIe.trans h.cdtIe,
    h'.lowpower ∘ h.lowpower⟩

/-- One tick of the countdown. -/
theorem exec_tickCd_countsOn (hie : s.cdtIe = true) (hboard : s.boardState = .countingDown) (pir : Bool) :
    ∃ t, exec (.tickCd pir) s = .next t ∧ CountsOn s t ∧
      t.cdCounter = (if s.cdCounter = 1 then s.cfg.cdStart else s.cdCounter - 1) ∧
      t.rollover = (if s.cdCounter = 1 then true else s.rollover) :=
  ⟨_, countdownTick s pir _ hie hboard rfl, ⟨rfl, rfl, rfl, rfl, rfl, rfl, rfl, rfl, fun _ => rfl⟩, rfl, rfl⟩

/-- Fewer ticks than the counter says only count. -/
theorem countdown_below (pirs : List Bool) (hie : s.cdtIe = true) (hboard : s.boardState = .countingDown)
    (hlt : pirs.length < s.cdCounter.toNat) :
    ∃ t, execSeq (pirs.map .tickCd) s = .next t ∧ CountsOn s t ∧ t.rollover = s.rollover ∧
      t.cdCounter.toNat + pirs.length = s.cdCounter.toNat := by
  induction pirs generalizing s with
  | nil => exact ⟨s, rfl, .refl s, rfl, rfl⟩
  | cons pir pirs ih =>
    rw [List.length_cons] at hlt
    obtain ⟨u, hexec, hu, hcount, hroll⟩ := exec_tickCd_countsOn hie hboard pir
    have hne : s.cdCounter ≠ 1 := by rintro h; simp [h] at hlt
    rw [if_neg hne] at hcount hroll
    have hsub : u.cdCounter.toNat = s.cdCounter.toNat - 1 := by rw [hcount]; bv_omega
    obtain ⟨t, hrun, ht, hroll', hcount'⟩ := ih (hu.cdtIe.trans hie) (hu.boardState.trans hboard) (by omega)
    refine ⟨t, ?_, hu.trans ht, hroll'.trans hroll, by rw [List.length_cons]; omega⟩
    simpa only [List.map_cons, execSeq, hexec] using hrun

/-- As many ticks as the counter says set the flag and reload it. -/
theorem countdown_reached (pirs : List Bool) (hie : s.cdtIe = true) (hboard : s.boardState = .countingDown)
    (hpos : s.cdCounter ≠ 0) (heq : pirs.length = s.cdCounter.toNat) :
    ∃ t, execSeq (pirs.map .tickCd) s = .next t ∧ CountsOn s t ∧ t.rollover = true ∧ t.cdCounter = s.cfg.cdStart := by
  have hne : pirs ≠ [] := by
    rintro rfl
    exact hpos (BitVec.eq_of_toNat_eq heq.symm)
  obtain ⟨first, last, rfl⟩ : ∃ first last, pirs = first ++ [last] :=
    ⟨_, _, (List.dropLast_append_getLast hne).symm⟩
  rw [List.length_append, List.length_singleton] at heq
  obtain ⟨u, hrun, hu, -, hcount⟩ := countdown_below first hie hboard (by omega)
  have hone : u.cdCounter = 1 := BitVec.eq_of_toNat_eq (by simp; omega)
  obtain ⟨t, hexec, ht, hcount', hroll⟩ := exec_tickCd_countsOn (hu.cdtIe.trans hie) (hu.boardState.trans hboard) last
  rw [if_pos hone] at hcount' hroll
  refine ⟨t, ?_, hu.trans ht, hroll, hcount'.trans (congrArg _ hu.cfg)⟩
  rw [List.map_append, execSeq_append hrun]
  exact (execSeq_single _ _).trans hexec

end

/-- Settles O50. -/
theorem rolloverAfterExactlyStartTicks : Obligations.RolloverAfterExactlyStartTicks := by
  intro s pirs hie hboard hpos hstart hroll
  rw [← hstart] at hpos ⊢
  refine ⟨fun hlt => ?_, fun heq => ?_⟩
  · obtain ⟨t, hrun, ht, hroll', hcount⟩ := countdown_below pirs hie hboard hlt
    exact ⟨t, hrun, hroll'.trans hroll, ht.boardState.trans hboard, hcount⟩
  · obtain ⟨t, hrun, ht, hroll', hcount⟩ := countdown_reached pirs hie hboard hpos heq
    exact ⟨t, hrun, hroll', ht.boardState.trans hboard, hcount.trans hstart.symm⟩

/-! ### The debounce -/

/-- Debounce counters and an enable that are as given already. -/
theorem withPir_of_eq {s : State} {ie : Bool} {high low : Counter} (hie : s.cdtIe = ie) (hhigh : s.pirHigh = high)
    (hlow : s.pirLow = low) : { s with cdtIe := ie, pirHigh := high, pirLow := low } = s := by
  subst hie hhigh hlow
  rfl

section
variable {s : State} (hie : s.cdtIe = true) (hboard : s.boardState = .waitingArmed)
include hie hboard

/-- R203, below the threshold. -/
theorem exec_tickCd_active_below (hth : s.pirHigh + 1 < s.cfg.thActive) :
    exec (.tickCd true) s = .next { s with lowpower := false, pirLow := 0, pirHigh := s.pirHigh + 1 } := by
  rw [exec_tickCd_waitingArmed hboard hie, if_pos rfl]
  exact congrArg Host.Outcome.next (if_neg (BitVec.not_le.mpr hth))

/-- R204, below the threshold. -/
theorem exec_tickCd_inactive_below (hth : s.pirLow + 1 < s.cfg.thInactive) :
    exec (.tickCd false) s = .next { s with lowpower := false, pirHigh := 0, pirLow := s.pirLow + 1 } := by
  rw [exec_tickCd_waitingArmed hboard hie, if_neg Bool.false_ne_true]
  exact congrArg Host.Outcome.next (if_neg (BitVec.not_le.mpr hth))

/-- R203, at the threshold. -/
theorem exec_tickCd_active_reached (hth : s.cfg.thActive ≤ s.pirHigh + 1) :
    exec (.tickCd true) s =
      .next (enter .countingDown { s with lowpower := false, pirLow := 0, pirHigh := 0 }) := by
  rw [exec_tickCd_waitingArmed hboard hie, if_pos rfl]
  exact congrArg Host.Outcome.next (debounceActive_reached (s := interruptEntry s) hth)

/-- R204, at the threshold. -/
theorem exec_tickCd_inactive_reached (hth : s.cfg.thInactive ≤ s.pirLow + 1) :
    exec (.tickCd false) s =
      .next (enter .sleeping { s with lowpower := false, pirHigh := 0, pirLow := 0 }) := by
  rw [exec_tickCd_waitingArmed hboard hie, if_neg Bool.false_ne_true]
  exact congrArg Host.Outcome.next (debounceInactive_reached (s := interruptEntry s) hth)

/-- `k` active ticks below the threshold, from cleared counters: only the first can still find the low-power wait. -/
theorem execSeq_active_below (hhigh : s.pirHigh = 0) (hlow : s.pirLow = 0) {k : Nat} (hk : k < s.cfg.thActive.toNat) :
    ∃ l, execSeq (List.replicate k (.tickCd true)) s =
      .next { s with lowpower := l, pirHigh := BitVec.ofNat 16 k, pirLow := 0 } ∧ (k ≠ 0 → l = false) := by
  induction k with
  | zero =>
    refine ⟨s.lowpower, ?_, nofun⟩
    exact congrArg Host.Outcome.next (withPir_of_eq rfl hhigh hlow).symm
  | succ k ih =>
    obtain ⟨l, hrun, -⟩ := ih (by omega)
    refine ⟨false, ?_, fun _ => rfl⟩
    rw [execSeq_replicate_succ hrun, exec_tickCd_active_below]
    · simp only [counter_ofNat_succ]
    · exact hie
    · exact hboard
    · show BitVec.ofNat 16 k + 1 < s.cfg.thActive
      have hlt := s.cfg.thActive.isLt
      rw [counter_ofNat_succ, BitVec.lt_def, counter_toNat_ofNat (by omega)]
      exact hk

theorem execSeq_inactive_below (hhigh : s.pirHigh = 0) (hlow : s.pirLow = 0) {k : Nat}
    (hk : k < s.cfg.thInactive.toNat) :
    ∃ l, execSeq (List.replicate k (.tickCd false)) s =
      .next { s with lowpower := l, pirHigh := 0, pirLow := BitVec.ofNat 16 k } ∧ (k ≠ 0 → l = false) := by
  induction k with
  | zero =>
    refine ⟨s.lowpower, ?_, nofun⟩
    exact congrArg Host.Outcome.next (withPir_of_eq rfl hhigh hlow).symm
  | succ k ih =>
    obtain ⟨l, hrun, -⟩ := ih (by omega)
    refine ⟨false, ?_, fun _ => rfl⟩
    rw [execSeq_replicate_succ hrun, exec_tickCd_inactive_below]
    · simp only [counter_ofNat_succ]
    · exact hie
    · exact hboard
    · show BitVec.ofNat 16 k + 1 < s.cfg.thInactive
      have hlt := s.cfg.thInactive.isLt
      rw [counter_ofNat_succ, BitVec.lt_def, counter_toNat_ofNat (by omega)]
      exact hk

end

/-- The threshold's last tick is the one after all but the last. -/
theorem replicate_threshold {th : Counter} (hth : th ≠ 0) (i : Instr) :
    List.replicate th.toNat i = List.replicate (th.toNat - 1) i ++ [i] := by
  have hpos : th.toNat ≠ 0 := fun h => hth (BitVec.eq_of_toNat_eq h)
  rw [← List.replicate_succ', Nat.sub_add_cancel (Nat.pos_of_ne_zero hpos)]

theorem threshold_reached {th : Counter} (hth : th ≠ 0) : th ≤ BitVec.ofNat 16 (th.toNat - 1) + 1 := by
  have hpos : th.toNat ≠ 0 := fun h => hth (BitVec.eq_of_toNat_eq h)
  rw [counter_ofNat_succ, Nat.sub_add_cancel (Nat.pos_of_ne_zero hpos), BitVec.ofNat_toNat, BitVec.setWidth_eq]
  exact BitVec.le_refl _

/-- Settles O51: below the threshold a tick counts, the tick that reaches it enters the state of its level. -/
theorem debounceCommitsAtTheThreshold : Obligations.DebounceCommitsAtTheThreshold := by
  intro s hie hboard hhigh hlow hact hinact
  have hs : { s with cdtIe := true, pirHigh := 0, pirLow := 0 } = s := withPir_of_eq hie hhigh hlow
  have hpred {th : Counter} (hth : th ≠ 0) : th.toNat - 1 < th.toNat := by
    have : th.toNat ≠ 0 := fun h => hth (BitVec.eq_of_toNat_eq h)
    omega
  refine ⟨fun k hk hne => ?_, ?_, fun k hk hne => ?_, ?_, fun hone => ?_⟩
  · obtain ⟨l, hrun, hl⟩ := execSeq_active_below hie hboard hhigh hlow hk
    rw [hrun, hl hne, ← hlow]
  · obtain ⟨l, hrun, -⟩ := execSeq_active_below hie hboard hhigh hlow (hpred hact)
    rw [replicate_threshold hact, execSeq_append hrun, execSeq_single]
    refine Eq.trans (exec_tickCd_active_reached (by exact hie) (by exact hboard) (by exact threshold_reached hact)) ?_
    exact congrArg (fun u : State => Host.Outcome.next { u with
      lowpower := false, boardState := .countingDown, afEnable := true, afIndex := 0, wakeIe := false }) hs
  · obtain ⟨l, hrun, hl⟩ := execSeq_inactive_below hie hboard hhigh hlow hk
    rw [hrun, hl hne, ← hhigh]
  · obtain ⟨l, hrun, -⟩ := execSeq_inactive_below hie hboard hhigh hlow (hpred hinact)
    rw [replicate_threshold hinact, execSeq_append hrun, execSeq_single]
    refine Eq.trans (exec_tickCd_inactive_reached (by exact hie) (by exact hboard)
      (by exact threshold_reached hinact)) ?_
    exact congrArg (fun u : State => Host.Outcome.next { u with
      lowpower := false, boardState := .sleeping, afEnable := false, cdtIe := false, wakeIe := true,
      cdCounter := s.cfg.cdStart }) hs
  · obtain ⟨l, hrun, -⟩ := execSeq_active_below hie hboard hhigh hlow (hpred hact)
    rw [execSeq_append hrun, execSeq_single, exec_tickCd_inactive_below]
    · rfl
    · exact hie
    · exact hboard
    · exact hone

end Sys2Proof.Machine
end

section
/-! The bus engine's primitives on an idle host (R133 to R146): the whole state each leaves. -/

namespace Sys2Proof.Machine

section
variable {s : State}

/-- The host's own wait, begun with a budget that is not 0 (R133). -/
theorem beginWait_issue_open {b : Counter} (hb : b ≠ 0) (c : BusCmd) (w : Waiter) (s : State) :
    beginWait b w (issue c s) = openWait b w (issue c s) := beginWait_open hb rfl

/-- R133: with a budget of 0 the wait of a command just issued ends with `TIMEOUT`. -/
theorem beginWait_issue_zero {b : Counter} (hb : b = 0) (c : BusCmd) (w : Waiter) (s : State) :
    beginWait b w (issue c s) =
      resume w .timeout { issue c s with toCount := 0, pending := .none, ctl := .wait b w } := by
  subst hb
  exact beginWait_zero w _

/-- R133: the host's wait with a budget of 0 leaves the command's own writes and the code `TIMEOUT`. -/
theorem beginWait_issue_zero_host {b : Counter} (hb : b = 0) (hidle : s.ctl = .idle) (c : BusCmd) :
    beginWait b .host (issue c s) =
      { issue c s with toCount := 0, pending := .none, result := .code .timeout } :=
  (beginWait_issue_zero hb c .host s).trans
    (giveResult_of_idle (s := { issue c s with toCount := 0, pending := .none }) hidle _)

/-- The same for the wait of a read, which hands over no byte. -/
theorem beginWait_issue_zero_hostRead {b : Counter} (hb : b = 0) (hidle : s.ctl = .idle) (c : BusCmd) :
    beginWait b .hostRead (issue c s) =
      { issue c s with toCount := 0, pending := .none, result := .byte .timeout none } :=
  (beginWait_issue_zero hb c .hostRead s).trans
    (giveResult_of_idle (s := { issue c s with toCount := 0, pending := .none }) hidle _)

end

/-- Settles O21: a second initialisation finds everything as it leaves it. -/
theorem initRearms : Obligations.InitRearms := by
  intro s hidle
  have hinit {u : State} (hu : u.ctl = .idle) : exec .init u = .next { initEngine u with result := .none } :=
    (exec_idle (n := 0) hu rfl rfl).trans (congrArg Host.Outcome.next (giveResult_of_idle (s := initEngine u) hu _))
  exact ⟨_, hinit hidle, rfl, hinit hidle⟩

/-- Settles O22. -/
theorem startIssuesAndWaits : Obligations.StartIssuesAndWaits := by
  intro s ab hidle hen howner hberr
  rw [exec_start_idle hidle, startPrim_free hen howner hberr]
  refine ⟨fun hb => ?_, fun hb => ?_⟩
  · rw [beginWait_issue_open hb]
    rfl
  · exact congrArg Host.Outcome.next (beginWait_issue_zero_host hb (by exact hidle) _)

/-- Settles O23. -/
theorem startWithoutIssue : Obligations.StartWithoutIssue := by
  intro s ab hidle hen
  rw [exec_start_idle hidle]
  refine ⟨fun howner hberr => ?_, fun howner => startPrim_owner hen howner ab .host⟩
  rw [startPrim_latched hen howner hberr]
  exact congrArg Host.Outcome.next (giveResult_of_idle (s := clearPriorFlags s) hidle _)

/-- Settles O24. -/
theorem ownedTransfersIssue : Obligations.OwnedTransfersIssue := by
  intro s hidle hen howner
  refine ⟨fun ab => ?_, fun b => ?_, fun p => ?_⟩
  · rw [exec_rstart_idle hidle, restartPrim_owner hen howner]
    refine ⟨fun hb => ?_, fun hb => ?_⟩
    · rw [beginWait_issue_open hb]
      rfl
    · exact congrArg Host.Outcome.next (beginWait_issue_zero_host hb (by exact hidle) _)
  · rw [exec_wbyte_idle hidle, writePrim_owner hen howner]
    refine ⟨fun hb => ?_, fun hb => ?_⟩
    · rw [beginWait_issue_open hb]
      rfl
    · exact congrArg Host.Outcome.next (beginWait_issue_zero_host hb (by exact hidle) _)
  · rw [exec_rbyte_idle hidle, readPrim_owner hen howner]
    refine ⟨fun hb => ?_, fun hb => ?_⟩
    · rw [beginWait_issue_open hb]
      rfl
    · exact congrArg Host.Outcome.next (beginWait_issue_zero_hostRead hb (by exact hidle) _)

/-- Settles O25. -/
theorem notOwnerChangesNothing : Obligations.NotOwnerChangesNothing := by
  intro s hidle hen howner
  have hres (r : Result) : Host.Outcome.next (giveResult r s) = (.next { s with result := r } : Out) :=
    congrArg _ (giveResult_of_idle hidle r)
  refine ⟨fun ab => ?_, fun b => ?_, fun p => ?_, ?_⟩
  · rw [exec_rstart_idle hidle, restartPrim_notOwner hen howner]
    exact hres _
  · rw [exec_wbyte_idle hidle, writePrim_notOwner hen howner]
    exact hres _
  · rw [exec_rbyte_idle hidle, readPrim_notOwner hen howner]
    exact hres _
  · rw [exec_stop_idle hidle, whenEnabled_on hen, stopPrim_notOwner howner]
    exact hres _

/-- Settles O26. -/
theorem stopReleasesTheBus : Obligations.StopReleasesTheBus := by
  intro s hidle hen howner
  rw [exec_stop_idle hidle, whenEnabled_on hen, stopPrim_owner howner]
  exact congrArg Host.Outcome.next (giveResult_of_idle (s := stopEngine s) hidle _)

/-! ### Timeout ticks -/

section
variable {s : State} {b : Counter} {w : Waiter}

/-- R135: outside a wait a tick counts. -/
theorem exec_tickTo_free (hwait : ∀ b w, s.ctl ≠ .wait b w) : exec .tickTo s = .next (countTick s) :=
  congrArg Host.Outcome.next (settle_free (s := countTick s) hwait)

/-- R133, R135: `k` ticks that leave the counter below the budget only count. -/
theorem execSeq_tickTo_below (hctl : s.ctl = .wait b w) (htc : s.flagTc = false) {k : Nat}
    (hlt : s.toCount.toNat + k < b.toNat) :
    execSeq (List.replicate k .tickTo) s = .next { s with toCount := s.toCount + BitVec.ofNat 16 k } := by
  induction k with
  | zero => exact congrArg Host.Outcome.next (by rw [BitVec.add_zero])
  | succ k ih =>
    have hb := b.isLt
    have hnext : s.toCount + BitVec.ofNat 16 k + 1 = s.toCount + BitVec.ofNat 16 (k + 1) := by
      rw [BitVec.add_assoc, counter_ofNat_succ]
    have hopen : s.toCount + BitVec.ofNat 16 k + 1 < b := by
      rw [hnext, BitVec.lt_def, BitVec.toNat_add, counter_toNat_ofNat (by omega), Nat.mod_eq_of_lt (by omega)]
      exact hlt
    rw [execSeq_replicate_succ (ih (by omega)), ← hnext]
    exact tickTo_open (s := { s with toCount := s.toCount + BitVec.ofNat 16 k }) hctl htc hopen

end

/-- R133: the wait that a tick brings to its budget ends with `TIMEOUT`, whatever the flags. -/
theorem endWait_expired {b : Counter} {s : State} (w : Waiter) (hexp : b ≤ s.toCount) :
    endWait b w s = resume w .timeout { s with pending := .none } := by
  rw [endWait, outcome_eq_timeout hexp]
  rfl

/-- Settles O28: all ticks but the last only count, the last one reaches the budget. -/
theorem timeoutAtExactlyTheBudget : Obligations.TimeoutAtExactlyTheBudget := by
  refine ⟨fun s hwait => exec_tickTo_free hwait, fun s b w k hctl htc hlt => execSeq_tickTo_below hctl htc hlt,
    fun s b w r hb hctl htc hzero hw => ?_⟩
  have hpos : b.toNat ≠ 0 := fun h => hb (BitVec.eq_of_toNat_eq h)
  have hbelow := execSeq_tickTo_below hctl htc (k := b.toNat - 1) (by rw [hzero]; simp; omega)
  have hlast : s.toCount + BitVec.ofNat 16 (b.toNat - 1) + 1 = b := by
    rw [hzero, BitVec.add_assoc, counter_ofNat_succ, Nat.sub_add_cancel (Nat.pos_of_ne_zero hpos), BitVec.ofNat_toNat,
      BitVec.setWidth_eq]
    exact BitVec.zero_add b
  have hexp : b ≤ s.toCount + BitVec.ofNat 16 (b.toNat - 1) + 1 := BitVec.le_of_eq hlast.symm
  have hcount : countTick { s with toCount := s.toCount + BitVec.ofNat 16 (b.toNat - 1) } = { s with toCount := b } :=
    congrArg (fun c => { s with toCount := c }) hlast
  rw [replicate_threshold hb, execSeq_append hbelow, execSeq_single,
    tickTo_over (s := { s with toCount := s.toCount + BitVec.ofNat 16 (b.toNat - 1) }) hctl hexp,
    hcount, endWait_expired w (BitVec.le_refl b)]
  obtain ⟨rfl, rfl⟩ | ⟨rfl, rfl⟩ := hw <;> rfl

/-! ### Completions -/

/-- The outcome a completion within the budget leaves (R134). -/
theorem outcome_completion {b : Counter} {s : State} (f : PeerFlags) (d : Byte) (hlt : s.toCount < b) :
    outcome b (takeCompletion f d s) =
      if s.flagBerr || f.berr then .busError else if f.arb then .arbLost
      else if f.nack && (s.pending == .addr || s.pending == .write) then .nack else .ok :=
  if_neg (BitVec.not_le.mpr hlt)

/-- Settles O29: a pending command's completion ends the wait in its step, with the outcome of the flags it leaves. -/
theorem completionEndsTheWait : Obligations.CompletionEndsTheWait := by
  refine ⟨fun s b f d c hctl hlt hp hc => ?_, fun s b f d c hctl hlt hp hc => ?_, fun s f d hp => if_pos hp⟩
  · have hkind : (s.pending == .addr || s.pending == .write) = true := by rcases hp with hp | hp <;> rw [hp] <;> rfl
    have hread : s.pending ≠ .read := by rcases hp with hp | hp <;> rw [hp] <;> nofun
    have hout : outcome b (takeCompletion f d s) = c := by
      rw [outcome_completion f d hlt, hkind, Bool.and_true, hc]
    rw [peerComplete_over f d hctl (by rcases hp with hp | hp <;> rw [hp] <;> nofun), endWait, hout]
    simp only [takeCompletion, completionFlags, if_neg hread, hkind, Bool.and_true]
    rfl
  · have hkind : (s.pending == .addr || s.pending == .write) = false := by rw [hp]; rfl
    have hout : outcome b (takeCompletion f d s) = c := by
      rw [outcome_completion f d hlt, hkind, Bool.and_false, hc]
      rfl
    rw [peerComplete_over f d hctl (by rw [hp]; nofun), endWait, hout]
    simp only [takeCompletion, completionFlags, if_pos hp, hkind, Bool.and_false]
    rfl

end Sys2Proof.Machine
end

section
/-! Recovery, the beginnings of block operations, and their failure path (R160 to R166). -/

namespace Sys2Proof.Machine

/-! ### The steps of a recovery -/

section
variable {s t u v : State} {k : Cont}

theorem hostSteps_one {j : Job} (hrun : s.ctl = .run j) : hostSteps 1 s = hostStep j s := by
  simp only [hostSteps, hrun]
  cases hostStep j s <;> rfl

/-- `s` as a recovery leaves it: the engine as after an initialisation, `es` in the trace, the host at `c`. -/
def rearmed (es : List BusEvent) (c : Ctl) (s : State) : State :=
  { s with
    enabled := true, owner := false, pending := .none, flagTc := false, flagBerr := false, flagArb := false,
    flagNack := false, ackPolicy := .nack, busTrace := s.busTrace ++ es, ctl := c }

theorem runJob_recoveryAct_runJob (j j' : Job) (a : RecAct) (s : State) :
    runJob j (recoveryAct a (runJob j' s)) = runJob j (recoveryAct a s) := by
  cases a <;> rfl

/-- The steps of a recovery but the last, in a job that takes them one after the other. -/
theorem hostSteps_recovery {job : List RecAct → Job}
    (hjob : ∀ a a' todo s, hostStep (job (a :: a' :: todo)) s = .next (runJob (job (a' :: todo)) (recoveryAct a s)))
    (todo : List RecAct) (last : RecAct) (s : State) :
    hostSteps todo.length (runJob (job (todo ++ [last])) s) =
      .next (runJob (job [last]) (todo.foldl (fun s a => recoveryAct a s) s)) := by
  induction todo generalizing s with
  | nil => rfl
  | cons a todo ih =>
    obtain ⟨a', rest, hrest⟩ : ∃ a' rest, todo ++ [last] = a' :: rest := by
      cases todo <;> exact ⟨_, _, rfl⟩
    have hstep := hjob a a' rest (runJob (job (a :: a' :: rest)) s)
    rw [runJob_recoveryAct_runJob, ← hrest] at hstep
    rw [List.cons_append, List.length_cons, hostSteps_run rfl hstep, ih]
    rfl

/-- All steps of a recovery but the last leave the engine as after its first initialisation. -/
theorem recoveryActs_eq (j : Job) (s : State) :
    runJob j (recoveryPlan.dropLast.foldl (fun s a => recoveryAct a s) s) =
      rearmed recoveryTrace.dropLast (.run j) s := by
  simp [recoveryPlan, recoveryTrace, recPulses, recReinits, List.replicate, recoveryAct, initEngine, rearmed, runJob,
    List.append_assoc]

/-- R162: the first eleven steps of a recovery. -/
theorem hostSteps_recoveryPlan {job : List RecAct → Job}
    (hjob : ∀ a a' todo s, hostStep (job (a :: a' :: todo)) s = .next (runJob (job (a' :: todo)) (recoveryAct a s)))
    (s : State) :
    hostSteps 11 (runJob (job recoveryPlan) s) = .next (rearmed recoveryTrace.dropLast (.run (job [.reinit])) s) :=
  (hostSteps_recovery hjob recoveryPlan.dropLast .reinit s).trans (congrArg _ (recoveryActs_eq _ s))

/-- The second initialisation changes nothing but the trace. -/
theorem initEngine_rearmed (c : Ctl) (s : State) :
    initEngine (rearmed recoveryTrace.dropLast c s) = rearmed recoveryTrace c s := by
  simp [initEngine, rearmed, recoveryTrace, recPulses, recReinits, List.replicate, List.append_assoc]

/-- The job of the host's own recovery. -/
theorem hostStep_recover_cons (a a' : RecAct) (todo : List RecAct) (s : State) :
    hostStep (.recover (a :: a' :: todo)) s = .next (runJob (.recover (a' :: todo)) (recoveryAct a s)) := rfl

/-- The job of a block operation's failure path. -/
theorem hostStep_blockRecover_cons (k : Cont) (a a' : RecAct) (todo : List RecAct) (s : State) :
    hostStep (.block (.recover (a :: a' :: todo)) k) s =
      .next (runJob (.block (.recover (a' :: todo)) k) (recoveryAct a s)) := rfl

theorem hostStep_blockRecover_last (k : Cont) (s : State) :
    hostStep (.block (.recover [.reinit]) k) s = .next (deliverBlock k .fail [] (initEngine s)) := rfl

end

/-- Settles O31: the first step of the twelve is the command's own. -/
theorem recoverRunsInFull : Obligations.RecoverRunsInFull := by
  intro s hidle
  have hall : hostSteps 12 (runJob (.recover recoveryPlan) s) =
      .next (giveResult .none (rearmed recoveryTrace (.run (.recover [.reinit])) s)) := by
    rw [hostSteps_add (hostSteps_recoveryPlan hostStep_recover_cons s) 1, hostSteps_one rfl, ← initEngine_rearmed]
    rfl
  refine ⟨recoverStep recoveryPlan s, exec_idle (n := 0) hidle rfl rfl, ?_⟩
  have hfirst : hostSteps 1 (runJob (.recover recoveryPlan) s) = .next (recoverStep recoveryPlan s) := rfl
  rw [← hostSteps_add hfirst 11, hall]
  exact congrArg Host.Outcome.next (giveResult_of_idle (s := rearmed recoveryTrace s.ctl s) hidle .none)

/-! ### Into the failure path -/

section
variable {s u v : State} {k : Cont}

/-- R163: the failure path from a state that `u` agrees with on everything the recovery does not set. -/
theorem recoversAndFails (h : ∀ es c, rearmed es c v = rearmed es c u) :
    RecoversAndFails k (runJob (.block (.recover recoveryPlan) k) v) u where
  last := (hostSteps_recoveryPlan (job := fun todo => .block (.recover todo) k)
    (hostStep_blockRecover_cons k) v).trans (congrArg _ (h _ _))
  host r hr := by
    have hlast := hostSteps_recoveryPlan (job := fun todo => .block (.recover todo) k) (hostStep_blockRecover_cons k) v
    rw [hostSteps_add (m := 11) hlast 1, hostSteps_one rfl, hostStep_blockRecover_last, initEngine_rearmed, h]
    obtain ⟨rfl, rfl⟩ | ⟨rfl, rfl⟩ := hr <;> rfl

/-- R163: any outcome but `OK`, and but the declined initial address, sends a block operation into the failure path. -/
theorem resume_failed {w : Waiter} {next : BlkPos} {left : Nat} {got : List Byte} {c : Code}
    (hw : w = .blkStart next k ∨ w = .blkNext next k ∨ w = .blkRead left got k)
    (hok : c ≠ .ok) (hnack : w = .blkStart next k → c ≠ .nack) (s : State) :
    resume w c s = runJob (.block (.recover recoveryPlan) k) s := by
  obtain rfl | rfl | rfl := hw
  · exact (if_neg hok).trans (if_neg (hnack rfl))
  · exact if_neg hok
  · exact if_neg hok

/-- R100: the address above the direction bit. -/
theorem addressByte_eq (a7 : BitVec 7) (read : Bool) : addressByte a7 read = a7 ++ BitVec.ofBool read := by
  cases read
  · revert a7; decide
  · revert a7; decide

theorem isTransfer_of_ne {p : Pending} (hnone : p ≠ .none) (hread : p ≠ .read) :
    (p == .addr || p == .write) = true := by
  cases p with
  | none => exact absurd rfl hnone
  | addr => rfl
  | write => rfl
  | read => exact absurd rfl hread

/-- R134: a bus error or lost arbitration goes before a declined byte. -/
theorem outcome_errorOrArb {b : Counter} {f : PeerFlags} (d : Byte) (hlt : s.toCount < b)
    (hfail : s.flagBerr = true ∨ f.berr = true ∨ f.arb = true) :
    outcome b (takeCompletion f d s) = .busError ∨ outcome b (takeCompletion f d s) = .arbLost := by
  rw [outcome_completion f d hlt]
  by_cases hberr : (s.flagBerr || f.berr) = true
  · exact .inl (if_pos hberr)
  · have harb : f.arb = true := by
      rcases hfail with h | h | h
      · exact absurd (by rw [h, Bool.true_or]) hberr
      · exact absurd (by rw [h, Bool.or_true]) hberr
      · exact h
    exact .inr ((if_neg hberr).trans (if_pos harb))

theorem outcome_declined {b : Counter} {f : PeerFlags} (d : Byte) (hlt : s.toCount < b) (hnack : f.nack = true)
    (hkind : (s.pending == .addr || s.pending == .write) = true) : outcome b (takeCompletion f d s) ≠ .ok := by
  rw [outcome_completion f d hlt, hnack, hkind]
  split_ifs <;> simp_all

section
variable {b : Counter} {w : Waiter} {next : BlkPos} {left : Nat} {got : List Byte}
  (hctl : s.ctl = .wait b w) (hw : w = .blkStart next k ∨ w = .blkNext next k ∨ w = .blkRead left got k)
include hctl hw

/-- R136, R163: a completion with a failure, in a wait of a block operation. -/
theorem peerComplete_recovers {f : PeerFlags} (d : Byte) (hlt : s.toCount < b) (hpend : s.pending ≠ .none)
    (hfail : s.flagBerr = true ∨ f.berr = true ∨ f.arb = true ∨
      (f.nack = true ∧ s.pending ≠ .read ∧ w ≠ .blkStart next k)) :
    ∃ t, exec (.peerComplete f d) s = .next t ∧ RecoversAndFails k t { s with
      data := if s.pending = .read then d else s.data, busTrace := s.busTrace ++ [.complete f d] } := by
  have hfailed : outcome b (takeCompletion f d s) ≠ .ok ∧
      (w = .blkStart next k → outcome b (takeCompletion f d s) ≠ .nack) := by
    by_cases herr : s.flagBerr = true ∨ f.berr = true ∨ f.arb = true
    · obtain h | h := outcome_errorOrArb d hlt herr <;> rw [h] <;> exact ⟨nofun, nofun⟩
    · obtain ⟨hnack, hread, hstart⟩ := ((hfail.resolve_left fun h => herr (.inl h)).resolve_left
        fun h => herr (.inr (.inl h))).resolve_left fun h => herr (.inr (.inr h))
      exact ⟨outcome_declined d hlt hnack (isTransfer_of_ne hpend hread), fun h => absurd h hstart⟩
  exact ⟨_, (peerComplete_over f d hctl hpend).trans (congrArg _ (resume_failed hw hfailed.1 hfailed.2 _)),
    recoversAndFails fun _ _ => rfl⟩

/-- R133, R163: the last tick of the budget, in a wait of a block operation. -/
theorem tickTo_recovers (hlast : s.toCount + 1 = b) :
    ∃ t, exec .tickTo s = .next t ∧ RecoversAndFails k t { s with toCount := b } := by
  have hexp : b ≤ s.toCount + 1 := BitVec.le_of_eq hlast.symm
  have hend : endWait b w (countTick s) =
      runJob (.block (.recover recoveryPlan) k) { countTick s with pending := .none } := by
    rw [endWait_expired w (s := countTick s) hexp]
    exact resume_failed (c := .timeout) hw nofun (fun _ => nofun) _
  refine ⟨_, (tickTo_over hctl hexp).trans (congrArg _ hend), recoversAndFails fun _ _ => ?_⟩
  subst hlast
  rfl

end

section
variable {ab : Byte} {next : BlkPos} {o : Out} (hen : s.enabled = true) (howner : s.owner = false)
  (ho : o = startPrim ab (.blkStart next k) s)
include hen howner ho

/-- R141, R163: a block operation that finds the bus error latched. -/
theorem latched_recovers (hberr : s.flagBerr = true) : ∃ t, o = .next t ∧ RecoversAndFails k t s :=
  ⟨_, ho.trans (startPrim_latched hen howner hberr _ _), recoversAndFails (v := clearPriorFlags s) fun _ _ => rfl⟩

/-- R133, R163: a block operation whose address budget is 0. -/
theorem zeroAddress_recovers (hberr : s.flagBerr = false) (hzero : s.cfg.toAddr = 0) :
    ∃ t, o = .next t ∧ RecoversAndFails k t { s with
      data := ab, toCount := 0, busTrace := s.busTrace ++ [.addr ab false] } :=
  ⟨_, ho.trans ((startPrim_free hen howner hberr _ _).trans (congrArg _ (beginWait_issue_zero hzero _ _ _))),
    recoversAndFails fun _ _ => rfl⟩

end

/-- R133, R163: a primitive inside a block operation whose budget is 0. -/
theorem zeroBudget_recovers {b : Counter} (hb : b = 0) (c : BusCmd) {w : Waiter}
    (hw : ∀ s, resume w .timeout s = runJob (.block (.recover recoveryPlan) k) s)
    (h : ∀ es c', rearmed es c' { issue c v with toCount := 0 } = rearmed es c' u) :
    RecoversAndFails k (beginWait b w (issue c v)) u := by
  rw [beginWait_issue_zero hb, hw]
  exact recoversAndFails h

end

/-! ### The operations that begin with a block operation -/

section
variable {s : State} {a7 : BitVec 7} {k : Cont} {o : Out}

/-- `o` is the beginning of a block operation on device `a7`, for `k` (R160, R161). -/
def BeginsBlock (a7 : BitVec 7) (k : Cont) (o : Out) (s : State) : Prop :=
  ∃ next, o = startPrim (addressByte a7 false) (.blkStart next k) s

theorem beginsBlock_configWrite (c : Byte) (up : Upper) (s : State) :
    BeginsBlock s.cfg.dispAddr (.config up) (configWrite c up s) s := ⟨_, rfl⟩

theorem beginsBlock_digitStep {i : Fin 5} (hseg : (digitSegments s.cfg s.dispBuf i).isSome) (res : Code) (up : Upper) :
    BeginsBlock s.cfg.dispAddr (.writeAll i res up) (digitStep i res up s) s := by
  obtain ⟨v, hv⟩ := Option.isSome_iff_exists.mp hseg
  exact ⟨_, digitStep_some hv res up⟩

/-- The four configuration commands, with an operand in range (R235 to R238). -/
theorem exec_config_idle {i : Instr} (hidle : s.ctl = .idle)
    (hi : (∃ r : Byte, r.toNat ≤ 3 ∧ i = .setblink r) ∨
      (∃ on : Byte, on.toNat ≤ 1 ∧ (i = .setosc on ∨ i = .setdisp on)) ∨ ∃ l : Byte, l.toNat ≤ 15 ∧ i = .setdim l) :
    ∃ c, exec i s = configWrite c .host s := by
  obtain ⟨r, hr, rfl⟩ | ⟨on, hon, rfl | rfl⟩ | ⟨l, hl, rfl⟩ := hi
  · exact ⟨_, (exec_setblink_idle hidle r).trans (blinkRate_inRange hr _ _)⟩
  · exact ⟨_, exec_setosc_idle hidle hon⟩
  · exact ⟨_, exec_setdisp_idle hidle hon⟩
  · exact ⟨_, exec_setdim_idle hidle hl⟩

end

/-- Settles O33: by the ways into the failure path. -/
theorem blockFailureRecovers : Obligations.BlockFailureRecovers := by
  refine ⟨fun s b w next left got k hctl hw => ⟨fun f d hlt hpend hfail =>
    peerComplete_recovers hctl hw d hlt hpend hfail, tickTo_recovers hctl hw⟩, fun s a7 k o hen howner hbegin => ?_,
    fun s pos k e d hctl hen howner hzero => ?_⟩
  · have ⟨next, ho⟩ : BeginsBlock a7 k o s := by
      obtain ⟨reg, c, hc, hidle, rfl, rfl⟩ | ⟨reg, bytes, hlen, hidle, rfl, rfl⟩ | ⟨i, hi, hidle, rfl, rfl, rfl⟩ |
        ⟨hidle, rfl, rfl, rfl, hseg⟩ | ⟨rest, hrun, rfl, rfl, rfl, hseg⟩ | ⟨rest, r, hr, hrun, rfl, rfl, rfl⟩ |
        ⟨i, res, up, hrun, rfl, rfl, rfl, hseg⟩ := hbegin
      · exact ⟨_, exec_rdblk_idle hidle hc⟩
      · exact ⟨_, exec_wrblk_idle hidle hlen⟩
      · obtain ⟨c, hexec⟩ := exec_config_idle hidle hi
        exact hexec ▸ beginsBlock_configWrite c .host s
      · exact exec_writeall_idle hidle ▸ beginsBlock_digitStep hseg .ok .host
      · exact hostSteps_one hrun ▸ beginsBlock_digitStep hseg .ok (.loop rest)
      · exact ⟨_, (hostSteps_one hrun).trans (blinkRate_inRange hr (.loop rest) s)⟩
      · exact hostSteps_one hrun ▸ beginsBlock_digitStep hseg res up
    rw [addressByte_eq] at ho
    exact ⟨latched_recovers hen howner ho, zeroAddress_recovers hen howner ho⟩
  · rw [hostSteps_one hctl]
    obtain ⟨hb, rfl, ⟨bytes, rfl⟩ | ⟨bytes, rfl⟩ | ⟨a7, n, rfl⟩⟩ | ⟨hb, rfl, a7, n, rfl, rfl⟩ |
      ⟨hb, rfl, left, got, rfl, rfl⟩ := hzero
    · exact ⟨_, writePrim_owner hen howner _ _, zeroBudget_recovers hb _ (fun _ => rfl) fun _ _ => rfl⟩
    · exact ⟨_, writePrim_owner hen howner _ _, zeroBudget_recovers hb _ (fun _ => rfl) fun _ _ => rfl⟩
    · exact ⟨_, writePrim_owner hen howner _ _, zeroBudget_recovers hb _ (fun _ => rfl) fun _ _ => rfl⟩
    · exact ⟨_, restartPrim_owner hen howner _ _, zeroBudget_recovers hb _ (fun _ => rfl) fun _ _ => by
        rw [addressByte_eq]; rfl⟩
    · exact ⟨_, readPrim_owner hen howner _ _, zeroBudget_recovers hb _ (fun _ => rfl) fun _ _ => rfl⟩

/-- The first wait of a block operation, begun with the bus free and a budget that is not 0. -/
theorem startPrim_waits {s : State} (hen : s.enabled = true) (howner : s.owner = false) (hberr : s.flagBerr = false)
    (hb : s.cfg.toAddr ≠ 0) (ab : Byte) (w : Waiter) :
    startPrim ab w s = .next (openWait s.cfg.toAddr w
      (issue (.addr ab false) (takeBus (loadData ab (clearPriorFlags s))))) := by
  rw [startPrim_free hen howner hberr, beginWait_issue_open hb]

/-- Settles O32: both commands begin with the `START` of the address byte. -/
theorem blockOperationsBegin : Obligations.BlockOperationsBegin := by
  intro s a7 reg count bytes hidle hen
  refine ⟨fun hc => if_pos hc, fun hlen => if_pos hlen, fun hc hlen => ?_⟩
  rw [exec_rdblk_idle hidle hc, exec_wrblk_idle hidle hlen, readBlock, writeBlock, addressByte_eq]
  refine ⟨fun howner => ⟨startPrim_owner hen howner _ _, startPrim_owner hen howner _ _⟩,
    fun howner hberr => ⟨startPrim_latched hen howner hberr _ _, startPrim_latched hen howner hberr _ _⟩,
    fun howner hberr hb => ?_, fun howner hberr hb => ?_⟩
  · rw [startPrim_free hen howner hberr, startPrim_free hen howner hberr, beginWait_issue_zero hb,
      beginWait_issue_zero hb]
    exact ⟨rfl, rfl⟩
  · exact ⟨startPrim_waits hen howner hberr hb _ _, startPrim_waits hen howner hberr hb _ _⟩

/-- Settles O34. -/
theorem absentPeerIsSparedRecovery : Obligations.AbsentPeerIsSparedRecovery := by
  intro s b next k d hctl hlt hpend howner hberr
  have hout : outcome b (takeCompletion { berr := false, arb := false, nack := true } d s) = .nack := by
    rw [outcome_completion _ d hlt, hberr, hpend]
    rfl
  refine ⟨_, (peerComplete_over _ d hctl (by rw [hpend]; nofun)).trans ?_, rfl, fun hen r hr => ?_⟩
  · rw [endWait, hout]
    simp only [takeCompletion, completionFlags, hpend, hberr]
    rfl
  · rw [hostSteps_one rfl]
    refine (stopDeliver_owner (by exact hen) (by exact howner) k .peerAbsent []).trans ?_
    obtain ⟨rfl, rfl⟩ | ⟨rfl, rfl⟩ := hr <;> simp [deliverBlock, giveResult, stopEngine]

end Sys2Proof.Machine
end

section
/-! The display operations step by step, and the blink primitive (R230 to R246). -/

namespace Sys2Proof.Machine

/-! ### SETDIGIT -/

section
variable {s : State}

theorem exec_setdigit_idle (hidle : s.ctl = .idle) (index glyph : Byte) :
    exec (.setdigit index glyph) s = .next { putDigit index glyph s with result := .none } :=
  (exec_idle (n := 0) hidle rfl rfl).trans (congrArg _ (giveResult_of_idle (s := putDigit index glyph s) hidle .none))

end

section
variable {c : Config} {index glyph : Byte} {buf : Vector Byte 5}

/-- R232: a glyph code of the table in a numeric position. -/
theorem digitPut_numeric (i : Fin 5) (hi : index.toNat = i.val) (hsep : i.val ≠ 2) (hg : glyph.toNat < c.glyph.length) :
    digitPut c index glyph buf = buf.set i.val glyph := by
  have hlt : index.toNat < 5 := hi ▸ i.isLt
  have hne : index.toNat ≠ sepIndex := hi ▸ hsep
  rw [digitPut, dif_pos hlt, if_neg hne, if_pos hg]
  simp only [hi]

/-- R232: the separator is on or off. -/
theorem digitPut_separator : digitPut c 2 glyph buf = buf.set 2 (if glyph = 0 then 0 else 1) := rfl

/-- R231: anything else is dropped. -/
theorem digitPut_dropped (h : 4 < index.toNat ∨ (index ≠ 2 ∧ c.glyph.length ≤ glyph.toNat)) :
    digitPut c index glyph buf = buf := by
  unfold digitPut
  split
  · next hlt =>
    obtain ⟨hne, hg⟩ := h.resolve_left (by omega)
    have hsep : index.toNat ≠ sepIndex := fun h => hne (BitVec.eq_of_toNat_eq h)
    rw [if_neg hsep, if_neg (Nat.not_lt.mpr hg)]
  · rfl

end

/-- Settles O38. -/
theorem setdigitStoresOrDrops : Obligations.SetdigitStoresOrDrops := by
  intro s index glyph hidle
  rw [exec_setdigit_idle hidle, putDigit]
  refine ⟨fun i hi hsep hg => ?_, fun h2 => ?_, fun h => ?_⟩
  · rw [digitPut_numeric i hi hsep hg]
  · rw [h2, digitPut_separator]
  · rw [digitPut_dropped h]

/-! ### WRITEALL -/

section
variable {s : State} {i : Fin 5} {res : Code} {up : Upper}

/-- R233: a position whose segment byte is `v` begins with the start of its block write. -/
theorem digitStep_waits (h : BusReady { s with ctl := .idle }) {v : Byte}
    (hv : digitSegments s.cfg s.dispBuf i = some v) :
    digitStep i res up s = .next (openWait s.cfg.toAddr
      (.blkStart (.wReg (digitRegister s.cfg i) [v]) (.writeAll i res up))
      (issue (.addr (s.cfg.dispAddr ++ 0#1) false)
        (takeBus (loadData (s.cfg.dispAddr ++ 0#1) (clearPriorFlags s))))) := by
  obtain ⟨-, hen, howner, hberr, hb, -, -⟩ := h
  rw [digitStep_some hv, writeBlock, addressByte_eq]
  exact startPrim_waits hen howner hberr hb _ _

end

theorem BusReady.withIdle {s : State} (h : BusReady s) : BusReady { s with ctl := .idle } :=
  ⟨rfl, h.enabled, h.not_owner, h.no_error, h.addr_pos, h.read_pos, h.write_pos⟩

theorem digitRegister_zero (c : Config) : digitRegister c 0 = c.dispBase := by
  simp [digitRegister]

/-- R233, R275: what follows the end of a position's block write. -/
theorem deliverBlock_writeAll (i : Fin 5) (res code : Code) (got : List Byte) (up : Upper) (s : State) :
    (∀ j : Fin 5, j.val = i.val + 1 →
      (deliverBlock (.writeAll i res up) code got s).ctl = .run (.digit j (firstBad res code) up)) ∧
    (i.val = 4 → deliverBlock (.writeAll i res up) code got s = returnAggregate up (firstBad res code) s) := by
  refine ⟨fun j hj => ?_, fun hi => dif_neg (by omega)⟩
  have hlt : i.val + 1 < 5 := hj ▸ j.isLt
  obtain rfl : j = ⟨i.val + 1, hlt⟩ := Fin.ext hj
  rw [deliverBlock, dif_pos hlt]
  rfl

/-- The three ways a block write ends, each one step of the host (R161, R163, R166). -/
theorem hostStep_block_ends {s : State} {pos : BlkPos} {code : Code} (k : Cont)
    (hend : (pos = .stopAbsent ∧ code = .peerAbsent ∧ s.enabled = true ∧ s.owner = true) ∨
      (pos = .recover [.reinit] ∧ code = .fail) ∨
      (pos = .stop [] ∧ code = .ok ∧ s.enabled = true ∧ s.owner = true)) :
    ∃ u, hostStep (.block pos k) s = .next (deliverBlock k code [] u) ∧ OnlyEngine s u ∧
      u.enabled = true ∧ u.owner = false := by
  obtain ⟨rfl, rfl, hen, howner⟩ | ⟨rfl, rfl⟩ | ⟨rfl, rfl, hen, howner⟩ := hend
  · exact ⟨_, stopDeliver_owner hen howner k _ _, ⟨rfl, rfl, rfl, rfl, rfl⟩, hen, rfl⟩
  · exact ⟨_, hostStep_blockRecover_last k s, initEngine_only s, rfl, rfl⟩
  · exact ⟨_, stopDeliver_owner hen howner k _ _, ⟨rfl, rfl, rfl, rfl, rfl⟩, hen, rfl⟩

/-- Settles O40. -/
theorem writeallBeginsAndGoesOn : Obligations.WriteallBeginsAndGoesOn := by
  refine ⟨fun s h => ⟨fun v hv => ?_, fun hlen => ?_⟩, fun s i res up h hctl => ?_,
    fun s pos i res code first up hctl hend hfirst => ?_⟩
  · rw [exec_writeall_idle h.idle, digitStep_waits (i := 0) h.withIdle (v := v) (by exact hv), digitRegister_zero]
    rfl
  · rw [exec_writeall_idle h.idle]
    exact digitStep_none (i := 0) (by exact List.getElem?_eq_none hlen) _ _
  · have hstep : hostSteps 1 s = digitStep i res up s := by
      obtain hrun | ⟨rest, hrun, rfl, rfl, rfl⟩ := hctl <;> exact hostSteps_one hrun
    rw [hstep]
    exact ⟨fun v hv => digitStep_waits h hv, fun hv => digitStep_none hv _ _⟩
  · obtain ⟨u, hstep, honly, hen, howner⟩ := hostStep_block_ends (.writeAll i res up) hend
    have hover := handsOver_deliverBlock (.writeAll i res up) code [] u
    obtain ⟨hnext, hlast⟩ := deliverBlock_writeAll i res code [] up u
    subst hfirst
    refine ⟨_, (hostSteps_one hctl).trans hstep, (honly.trans hover.onlyEngine).dispBuf,
      (congrArg EngineFields.owner hover.engineOf).trans howner,
      (congrArg EngineFields.enabled hover.engineOf).trans hen,
      hnext, fun hi => ?_⟩
    rw [hlast hi]
    refine ⟨?_, ?_, ?_⟩
    · rintro rfl
      exact ⟨rfl, rfl⟩
    · rintro rfl
      exact ⟨rfl, rfl⟩
    · rintro a rest rfl
      rfl

/-! ### The blink primitive -/

section
variable {s : State} {k : BlinkCont}

/-- The output trace of `n` blinks (R246). -/
def blinks (n : Nat) : List OutEvent :=
  (List.replicate n [OutEvent.led true, OutEvent.led false]).flatten

/-! What follows the end of an operation does not depend on what the host was doing. -/

theorem loopOn_runJob (l : List LoopAct) (j : Job) (s : State) : loopOn l (runJob j s) = loopOn l s := by
  cases l <;> rfl

theorem returnAggregate_runJob (up : Upper) (c : Code) (j : Job) (s : State) :
    returnAggregate up c (runJob j s) = returnAggregate up c s := by
  cases up with
  | host => rfl
  | loop rest => exact loopOn_runJob rest j s

theorem finishBlink_runJob (k : BlinkCont) (j : Job) (s : State) : finishBlink k (runJob j s) = finishBlink k s := by
  cases k with
  | host => rfl
  | diag c up => exact returnAggregate_runJob up c j s

/-- R246: a blink is two steps. -/
theorem hostSteps_blinkOnce (k : BlinkCont) (n : Nat) (s : State) :
    hostSteps 2 (runJob (.blink (n + 1) false k) s) =
      .next (blinkOn n k (runJob (.blink (n + 1) true k) (setLed false (setLed true s)))) := rfl

/-- R246: two steps for each blink still to go. -/
theorem hostSteps_blink (k : BlinkCont) (n : Nat) (s : State) :
    hostSteps (2 * (n + 1)) (runJob (.blink (n + 1) false k) s) =
      .next (finishBlink k { s with led := false, outTrace := s.outTrace ++ blinks (n + 1) }) := by
  induction n generalizing s with
  | zero =>
    rw [hostSteps_blinkOnce, blinkOn, if_pos rfl, finishBlink_runJob]
    simp [setLed, blinks]
  | succ n ih =>
    have hnext : blinkOn (n + 1) k (runJob (.blink (n + 2) true k) (setLed false (setLed true s))) =
        runJob (.blink (n + 1) false k) (setLed false (setLed true s)) := rfl
    rw [Nat.mul_succ, Nat.add_comm, hostSteps_add (hostSteps_blinkOnce k (n + 1) s), hnext, ih]
    simp [blinks, setLed, List.replicate_succ]

end

/-- Settles O43: the command's own step is the first of the `2 * n`. -/
theorem blinknBlinksExactly : Obligations.BlinknBlinksExactly := by
  intro s n hidle
  have hexec : exec (.blinkn n) s =
      if n = 0 then .next (giveResult .none s) else .next (blinkStep n.toNat false .host s) :=
    exec_idle (n := 0) hidle rfl rfl
  refine ⟨fun hn => ?_, fun hn => ⟨_, hexec.trans (if_neg hn), ?_⟩⟩
  · rw [hexec, if_pos hn, giveResult_of_idle hidle]
  · have hfirst : hostSteps 1 (runJob (.blink n.toNat false .host) s) = .next (blinkStep n.toNat false .host s) := rfl
    obtain ⟨m, hm⟩ := Nat.exists_eq_succ_of_ne_zero (fun h => hn (BitVec.eq_of_toNat_eq h) : n.toNat ≠ 0)
    have hall := hostSteps_blink .host m s
    rw [← Nat.succ_eq_add_one, ← hm] at hall
    have hsteps : 2 * n.toNat = 1 + (2 * n.toNat - 1) := by omega
    rw [hsteps, hostSteps_add hfirst] at hall
    exact hall.trans (congrArg Host.Outcome.next (giveResult_of_idle
      (s := { s with led := false, outTrace := s.outTrace ++ blinks n.toNat }) hidle .none))

/-- R239, R241: the diagnostic blink of a failed configuration write, and what follows it. -/
theorem hostSteps_diagnosticBlink {s : State} {up : Upper} {code : Code} {c : Ctl} {r : Result} (hn : s.cfg.nDiag ≠ 0)
    (hcode : code ≠ .ok)
    (hup : (up = .host ∧ c = .idle ∧ r = .code code) ∨ (up = .loop [] ∧ c = .idle ∧ r = .none) ∨
      (∃ a rest, up = .loop (a :: rest) ∧ c = .run (.loop (a :: rest)) ∧ r = s.result)) :
    hostSteps (2 * s.cfg.nDiag) (deliverBlock (.config up) code [] s) = .next { s with
      led := false, outTrace := s.outTrace ++ blinks s.cfg.nDiag, ctl := c, result := r } := by
  obtain ⟨m, hm⟩ := Nat.exists_eq_succ_of_ne_zero hn
  have hblink : deliverBlock (.config up) code [] s = runJob (.blink (m + 1) false (.diag code up)) s := by
    rw [deliverBlock, if_neg hcode, blinkOn, if_neg hn, hm]
  rw [hblink, hm, hostSteps_blink]
  obtain ⟨rfl, rfl, rfl⟩ | ⟨rfl, rfl, rfl⟩ | ⟨a, rest, rfl, rfl, rfl⟩ := hup <;> rfl

/-- Settles O42. -/
theorem failedConfigurationBlinks : Obligations.FailedConfigurationBlinks := by
  intro s pos code up c r hn hctl hup
  refine ⟨?_, ?_⟩
  · rintro rfl rfl hen howner
    rw [hostSteps_add ((hostSteps_one hctl).trans (stopDeliver_owner hen howner _ _ _))]
    exact hostSteps_diagnosticBlink (s := stopEngine s) hn nofun hup
  · rintro rfl rfl
    rw [hostSteps_add ((hostSteps_one hctl).trans (hostStep_blockRecover_last _ s))]
    exact hostSteps_diagnosticBlink (s := initEngine s) hn nofun hup

end Sys2Proof.Machine
end

section
/-! The main-loop iteration: the iterations that reach no display, and the steps before the bus (R261 to R275). -/

namespace Sys2Proof.Machine

/-! ### The first step of an iteration -/

section
variable {s : State}

/-- R261: in the low-power wait an iteration does not begin. -/
theorem startLoop_lowPower (hlow : s.lowpower = true) : startLoop s = .next (runJob .loopGate s) := if_pos hlow

/-- R264. -/
theorem startLoop_sleeping (hlow : s.lowpower = false) (hboard : s.boardState = .sleeping) :
    startLoop s = .next (loopOn [.testSleeping] s) := by
  simp [startLoop, hlow, hboard]

/-- R265. -/
theorem startLoop_wireSetup (hlow : s.lowpower = false) (hboard : s.boardState = .wireSetup) :
    startLoop s = .next (loopOn [.testSetup] s) := by
  simp [startLoop, hlow, hboard]

/-- R270. -/
theorem startLoop_done (hlow : s.lowpower = false) (hboard : s.boardState = .done) :
    startLoop s = .next (loopOn [.lowPower] s) := by
  simp [startLoop, hlow, hboard]

end

/-! ### Further steps of an iteration -/

section
variable {n : Nat} {s : State} {rest : List LoopAct}

/-- R264, no input activated. -/
theorem hostSteps_testSleeping_none (hnone : s.inputs = 0) :
    hostSteps (n + 1) (loopOn (.testSleeping :: rest) s) = hostSteps n (loopOn (.lowPower :: rest) s) :=
  hostSteps_loopOn (if_pos hnone)

/-- R264, an input activated, with the engine enabled. -/
theorem hostSteps_testSleeping_some (hsome : s.inputs ≠ 0) (hen : s.enabled = true) :
    hostSteps (n + 1) (loopOn (.testSleeping :: rest) s) = hostSteps n (loopOn (setupActs s.cfg ++ rest) s) :=
  hostSteps_loopOn ((if_neg hsome).trans (whenEnabled_on (by exact hen) _))

/-- R265, all inputs deactivated. -/
theorem hostSteps_testSetup_none (hnone : s.inputs = 0) :
    hostSteps (n + 1) (loopOn (.testSetup :: rest) s) = hostSteps n (loopOn (.enter .waitingArmed :: rest) s) :=
  hostSteps_loopOn (if_pos hnone)

/-- R265, an input still activated. -/
theorem hostSteps_testSetup_some (hsome : s.inputs ≠ 0) :
    hostSteps (n + 1) (loopOn (.testSetup :: rest) s) = hostSteps n (loopOn rest s) :=
  hostSteps_loopOn ((if_neg hsome).trans (congrArg Host.Outcome.next (loopOn_loopOn_cons ..)))

theorem hostSteps_setDigit {i g : Byte} :
    hostSteps (n + 1) (loopOn (.setDigit i g :: rest) s) = hostSteps n (loopOn rest (putDigit i g s)) :=
  hostSteps_loopOn (congrArg Host.Outcome.next (by cases rest <;> rfl))

theorem hostSteps_lowPower :
    hostSteps (n + 1) (loopOn (.lowPower :: rest) s) = hostSteps n (loopOn rest { s with lowpower := true }) :=
  hostSteps_loopOn (congrArg Host.Outcome.next (by cases rest <;> rfl))

end

/-- Settles O54. -/
theorem mainloopWithoutDisplay : Obligations.MainloopWithoutDisplay := by
  intro s hidle
  rw [exec_mainloop_idle hidle]
  refine ⟨fun hlow hboard hnone => ⟨_, startLoop_sleeping hlow hboard, ?_⟩,
    fun hlow hboard => ⟨_, startLoop_wireSetup hlow hboard, fun hnone => ?_, fun hsome => ?_⟩,
    fun hlow hboard => ⟨_, startLoop_done hlow hboard, ?_⟩,
    fun hlow => ⟨startLoop_lowPower hlow, ?_, fun hie => ⟨_, exec_sensorEdge_enabled (by exact hie), ?_⟩⟩⟩
  · rw [hostSteps_testSleeping_none hnone, hostSteps_lowPower]
    exact congrArg Host.Outcome.next (giveResult_of_idle (s := { s with lowpower := true }) hidle _)
  · rw [hostSteps_testSetup_none hnone, hostSteps_enter]
    exact congrArg Host.Outcome.next (giveResult_of_idle (s := enter .waitingArmed s) hidle _)
  · rw [hostSteps_testSetup_some hsome]
    exact congrArg Host.Outcome.next (giveResult_of_idle hidle _)
  · rw [hostSteps_lowPower]
    exact congrArg Host.Outcome.next (giveResult_of_idle (s := { s with lowpower := true }) hidle _)
  · exact congrArg not hlow
  · unfold sensorWake
    split <;> rfl

/-! ### What an iteration shows -/

/-- The Display Buffer with its four numeric positions overwritten (R264, R267). -/
def showDigits (a b c d : Byte) (buf : Vector Byte 5) : Vector Byte 5 :=
  #v[a, b, buf[2], c, d]

theorem digitPut_four {cfg : Config} {a b c d : Byte} (ha : a.toNat < cfg.glyph.length)
    (hb : b.toNat < cfg.glyph.length) (hc : c.toNat < cfg.glyph.length) (hd : d.toNat < cfg.glyph.length)
    (buf : Vector Byte 5) :
    digitPut cfg 4 d (digitPut cfg 3 c (digitPut cfg 1 b (digitPut cfg 0 a buf))) = showDigits a b c d buf := by
  rw [digitPut_numeric (index := 0) 0 rfl nofun ha, digitPut_numeric (index := 1) 1 rfl nofun hb,
    digitPut_numeric (index := 3) 3 rfl nofun hc, digitPut_numeric (index := 4) 4 rfl nofun hd]
  ext i hi
  unfold showDigits
  interval_cases i <;> simp

section
variable {n : Nat} {s : State} {rest : List LoopAct}

theorem putDigit_four {a b c d : Byte} (ha : a.toNat < s.cfg.glyph.length) (hb : b.toNat < s.cfg.glyph.length)
    (hc : c.toNat < s.cfg.glyph.length) (hd : d.toNat < s.cfg.glyph.length) :
    putDigit 4 d (putDigit 3 c (putDigit 1 b (putDigit 0 a s))) =
      { s with dispBuf := showDigits a b c d s.dispBuf } := by
  simp only [putDigit, digitPut_four ha hb hc hd]

/-- R231: four glyph codes of the table, in the four numeric positions. -/
theorem hostSteps_fourDigits {a b c d : Byte} (ha : a.toNat < s.cfg.glyph.length) (hb : b.toNat < s.cfg.glyph.length)
    (hc : c.toNat < s.cfg.glyph.length) (hd : d.toNat < s.cfg.glyph.length) :
    hostSteps (n + 4) (loopOn (.setDigit 0 a :: .setDigit 1 b :: .setDigit 3 c :: .setDigit 4 d :: rest) s) =
      hostSteps n (loopOn rest { s with dispBuf := showDigits a b c d s.dispBuf }) := by
  rw [hostSteps_setDigit, hostSteps_setDigit, hostSteps_setDigit, hostSteps_setDigit, putDigit_four ha hb hc hd]

theorem decimalDigit_lt (w : Counter) (k : Nat) : (decimalDigit w k).toNat < 10 := by
  rw [decimalDigit, BitVec.toNat_ofNat, Nat.mod_eq_of_lt] <;> omega

end

/-- R267: the four digits shown are those of the counter. -/
theorem showDigits_decimal (w : Counter) (buf : Vector Byte 5) :
    showDigits (decimalDigit w 3) (decimalDigit w 2) (decimalDigit w 1) (decimalDigit w 0) buf =
      #v[BitVec.ofNat 8 (w.toNat / 1000 % 10), BitVec.ofNat 8 (w.toNat / 100 % 10), buf[2],
        BitVec.ofNat 8 (w.toNat / 10 % 10), BitVec.ofNat 8 (w.toNat % 10)] := by
  simp [showDigits, decimalDigit]

/-- Settles O57. -/
theorem mainloopActionsBeforeTheBus : Obligations.MainloopActionsBeforeTheBus := by
  intro s hinv hadm hidle hlow hen
  have hcfg := configFacts hadm
  have hzero : (0 : Byte).toNat < s.cfg.glyph.length := Nat.lt_of_lt_of_le (by decide) hcfg.glyphs_ten
  have hdigit (k : Nat) : (decimalDigit s.cdCounter k).toNat < s.cfg.glyph.length :=
    (decimalDigit_lt _ k).trans_le hcfg.glyphs_ten
  have hsafeIdx : s.safeIdx < 8 := hinv.inputs.safe_lt.trans_le (nInputs_le_of_admitted hadm)
  rw [exec_mainloop_idle hidle]
  refine ⟨fun hboard hsome => ⟨_, startLoop_sleeping hlow hboard, ?_⟩,
    fun hboard => ⟨_, startLoop_countingDown hlow hboard hen, fun hroll => ?_, fun hroll hsafe => ?_,
      fun hroll hsafe hsome => ?_, fun hroll hnone => ?_⟩⟩
  · rw [hostSteps_testSleeping_some hsome hen, setupActs, List.append_nil, hostSteps_enter]
    refine (hostSteps_fourDigits (s := enter .wireSetup s) hcfg.dash_lt hcfg.dash_lt hcfg.dash_lt hcfg.dash_lt).trans ?_
    exact (hostSteps_setDigit (n := 0)).trans rfl
  · rw [hostSteps_add (countdown_rollover hroll) 4]
    exact hostSteps_fourDigits (n := 0) (s := enter .failure { s with rollover := false }) hzero hzero hzero hzero
  · exact countdown_success hroll hsafe
  · exact countdown_wrongInput hroll hsafe hsome
  · have hsafe : s.inputs ≠ safeMask s.safeIdx := fun h => by
      have hbit := (eq_safeMask_iff hsafeIdx _).mp h s.safeIdx hsafeIdx
      simp [hnone] at hbit
    rw [hostSteps_add (countdown_noInput hroll hsafe hnone) 4]
    rw [← showDigits_decimal]
    exact hostSteps_fourDigits (n := 0) (hdigit 3) (hdigit 2) (hdigit 1) (hdigit 0)

/-- Settles O58: the step that enters wire-setup was decided by the read before the edge. -/
theorem staleBoardStateIsOverwritten : Obligations.StaleBoardStateIsOverwritten := by
  intro s hidle hlow hboard hsome hen hie
  have hedge (l : List LoopAct) : sensorWake (interruptEntry (loopOn (.enter .wireSetup :: l) s)) =
      loopOn (.enter .wireSetup :: l) (enter .waitingArmed (interruptEntry s)) :=
    (if_pos hboard).trans (enter_loopOn _ (.enter .wireSetup :: l) (interruptEntry s))
  refine ⟨_, _, _, _, (exec_mainloop_idle hidle).trans (startLoop_sleeping hlow hboard),
    hostSteps_testSleeping_some hsome hen,
    (exec_sensorEdge_enabled (by exact hie)).trans (congrArg Host.Outcome.next (hedge _)),
    loopOn_boardState .., hostSteps_enter, ?_⟩
  exact ⟨loopOn_boardState .., rfl, rfl⟩

end Sys2Proof.Machine
end

section
/-! Runs with the healthy peer, whatever falls around its answers: the state a run reaches follows the state that the
same run reaches with nothing around it (R78, R133). -/

namespace Sys2Proof.Machine

/-! ### Following a state -/

/-- `t` is `u` but for what the events of the script `S` can change. -/
structure Follows (S : List (List Beside)) (u t : State) : Prop where
  frame : BesideFrame u t
  ticks : onlyTicks S → lifecycleOf t = lifecycleOf u ∧ outputOf t = outputOf u
  quiet : quiet S → t.toCount = u.toCount

section
variable {S : List (List Beside)} {es : List Beside} {s t u v : State} {f g : State → State}

theorem Follows.refl (S : List (List Beside)) (s : State) : Follows S s s :=
  ⟨.refl s, fun _ => ⟨rfl, rfl⟩, fun _ => rfl⟩

theorem Follows.trans (h : Follows S u t) (h' : Follows S t v) : Follows S u v where
  frame := h.frame.trans h'.frame
  ticks hS := ⟨(h'.ticks hS).1.trans (h.ticks hS).1, (h'.ticks hS).2.trans (h.ticks hS).2⟩
  quiet hS := (h'.quiet hS).trans (h.quiet hS)

/-- A timeout tick of a script changes the timeout counter at most. -/
theorem beside_tick_only (s : State) :
    lifecycleOf (beside .tick s) = lifecycleOf s ∧ outputOf (beside .tick s) = outputOf s := by
  cases hlate : tooLate .tick s
  · rw [beside_tick hlate]
    exact ⟨rfl, rfl⟩
  · rw [beside_late hlate]
    exact ⟨rfl, rfl⟩

theorem besides_ticks (h : ∀ e ∈ es, e = .tick) (s : State) :
    lifecycleOf (besides es s) = lifecycleOf s ∧ outputOf (besides es s) = outputOf s := by
  induction es generalizing s with
  | nil => exact ⟨rfl, rfl⟩
  | cons e es ih =>
    obtain ⟨rfl, hes⟩ := List.forall_mem_cons.mp h
    obtain ⟨hlife, hout⟩ := ih hes (beside .tick s)
    exact ⟨hlife.trans (beside_tick_only s).1, hout.trans (beside_tick_only s).2⟩

/-- The events of one entry of the script. -/
theorem follows_besides (hes : es ∈ S) (s : State) : Follows S s (besides es s) where
  frame := besides_frame es s
  ticks hS := besides_ticks (hS es hes) s
  quiet hS := by rw [hS es hes]; rfl

/-! ### What respects following -/

/-- `x` with everything that no event of a script changes taken from `u`. -/
def graft (x u : State) : State :=
  { x with
    enabled := u.enabled, owner := u.owner, flagTc := u.flagTc, flagBerr := u.flagBerr, flagArb := u.flagArb,
    flagNack := u.flagNack, ackPolicy := u.ackPolicy, data := u.data, pending := u.pending, busTrace := u.busTrace,
    ctl := u.ctl, result := u.result, cmds := u.cmds, events := u.events, sched := u.sched, dispBuf := u.dispBuf,
    cfg := u.cfg, safeIdx := u.safeIdx }

theorem BesideFrame.eq_graft (h : BesideFrame u t) : t = graft t u := by
  obtain ⟨hengine, hhost, hbuf, hcfg, hidx⟩ := h
  simp only [engineOf, EngineFields.mk.injEq] at hengine
  simp only [hostOf, HostFields.mk.injEq] at hhost
  obtain ⟨hen, howner, htc, hberr, harb, hnack, hack, hdata, -, hpend, htrace⟩ := hengine
  obtain ⟨hctl, hres, hcmds, hev, hsched⟩ := hhost
  rw [graft, ← hen, ← howner, ← htc, ← hberr, ← harb, ← hnack, ← hack, ← hdata, ← hpend, ← htrace, ← hctl, ← hres,
    ← hcmds, ← hev, ← hsched, ← hbuf, ← hcfg, ← hidx]

/-- A step of the engine or of the host that treats alike states of which one follows the other. -/
structure Respects (f : State → State) : Prop where
  frame : ∀ x u, BesideFrame (f u) (f (graft x u))
  only : ∀ s, OnlyEngine s (f s)
  count : ∀ {u t}, t.toCount = u.toCount → (f t).toCount = (f u).toCount

theorem Follows.map (h : Follows S u t) (hf : Respects f) : Follows S (f u) (f t) where
  frame := by
    rw [h.frame.eq_graft]
    exact hf.frame t u
  ticks hS := ⟨(hf.only t).lifecycle.trans ((h.ticks hS).1.trans (hf.only u).lifecycle.symm),
    (hf.only t).output.trans ((h.ticks hS).2.trans (hf.only u).output.symm)⟩
  quiet hS := hf.count (h.quiet hS)

theorem Respects.comp (hf : Respects f) (hg : Respects g) : Respects fun s => f (g s) where
  frame x u := by
    rw [(hg.frame x u).eq_graft]
    exact hf.frame _ _
  only s := (hg.only s).trans (hf.only _)
  count h := hf.count (hg.count h)

theorem respects_giveResult (r : Result) : Respects (giveResult r) :=
  ⟨fun _ _ => ⟨rfl, rfl, rfl, rfl, rfl⟩, giveResult_only r, id⟩

theorem respects_runJob (j : Job) : Respects (runJob j) := ⟨fun _ _ => ⟨rfl, rfl, rfl, rfl, rfl⟩, runJob_only j, id⟩

theorem respects_clearPriorFlags : Respects clearPriorFlags :=
  ⟨fun _ _ => ⟨rfl, rfl, rfl, rfl, rfl⟩, clearPriorFlags_only, id⟩

theorem respects_loadData (b : Byte) : Respects (loadData b) :=
  ⟨fun _ _ => ⟨rfl, rfl, rfl, rfl, rfl⟩, loadData_only b, id⟩

theorem respects_takeBus : Respects takeBus := ⟨fun _ _ => ⟨rfl, rfl, rfl, rfl, rfl⟩, takeBus_only, id⟩

theorem respects_latchPolicy (p : AckPolicy) : Respects (latchPolicy p) :=
  ⟨fun _ _ => ⟨rfl, rfl, rfl, rfl, rfl⟩, latchPolicy_only p, id⟩

theorem respects_issue (c : BusCmd) : Respects (issue c) := ⟨fun _ _ => ⟨rfl, rfl, rfl, rfl, rfl⟩, issue_only c, id⟩

theorem respects_openWait (b : Counter) (w : Waiter) : Respects (openWait b w) :=
  ⟨fun _ _ => ⟨rfl, rfl, rfl, rfl, rfl⟩, openWait_only b w, fun _ => rfl⟩

theorem respects_takeCompletion (f : PeerFlags) (d : Byte) : Respects (takeCompletion f d) :=
  ⟨fun _ _ => ⟨rfl, rfl, rfl, rfl, rfl⟩, takeCompletion_only f d, id⟩

theorem respects_closeWait (r : Code) : Respects (closeWait r) :=
  ⟨fun _ _ => ⟨rfl, rfl, rfl, rfl, rfl⟩, closeWait_only r, id⟩

theorem respects_stopEngine : Respects stopEngine :=
  ⟨fun _ _ => ⟨rfl, rfl, rfl, rfl, rfl⟩, fun _ => ⟨rfl, rfl, rfl, rfl, rfl⟩, id⟩

theorem respects_recoveryAct (a : RecAct) : Respects (recoveryAct a) := by
  cases a <;> exact ⟨fun _ _ => ⟨rfl, rfl, rfl, rfl, rfl⟩, fun _ => ⟨rfl, rfl, rfl, rfl, rfl⟩, id⟩

theorem respects_loopOn (l : List LoopAct) : Respects (loopOn l) := by
  cases l with
  | nil => exact respects_giveResult .none
  | cons a l => exact respects_runJob (.loop (a :: l))

theorem respects_returnAggregate (up : Upper) (c : Code) : Respects (returnAggregate up c) := by
  cases up with
  | host => exact respects_giveResult (.code c)
  | loop rest => exact respects_loopOn rest

/-- What follows a block operation that ended with `OK`. -/
theorem respects_deliverBlock (k : Cont) (got : List Byte) : Respects (deliverBlock k .ok got) := by
  cases k with
  | hostRead => exact respects_giveResult _
  | hostWrite => exact respects_giveResult _
  | config up => exact respects_returnAggregate up .ok
  | writeAll i res up =>
    by_cases hlast : i.val + 1 < 5
    · have heq : deliverBlock (.writeAll i res up) .ok got = runJob (.digit ⟨i.val + 1, hlast⟩ (firstBad res .ok) up) :=
        funext fun _ => dif_pos hlast
      exact heq ▸ respects_runJob _
    · have heq : deliverBlock (.writeAll i res up) .ok got = returnAggregate up (firstBad res .ok) :=
        funext fun _ => dif_neg hlast
      exact heq ▸ respects_returnAggregate up _

/-- What the waiter does with `OK`. -/
theorem respects_resume_ok (w : Waiter) : Respects (resume w .ok) where
  frame x u := by
    cases w with
    | blkRead left got k =>
      simp only [resume, if_true]
      split <;> exact ⟨rfl, rfl, rfl, rfl, rfl⟩
    | _ => exact ⟨rfl, rfl, rfl, rfl, rfl⟩
  only := resume_only w .ok
  count {u t} h := by
    have hcount (s : State) : (resume w .ok s).toCount = s.toCount :=
      congrArg EngineFields.toCount (resume_engine w .ok s)
    rw [hcount, hcount, h]

end

/-! ### One exchange on the bus -/

/-- `s` after the healthy peer's answer to the command `c`, `d` being the byte of the completion (R136). -/
def completed (c : BusCmd) (d : Byte) (s : State) : State :=
  { s with
    flagTc := true, flagArb := false, flagNack := false, data := if busCmdKind c = .read then d else s.data,
    pending := .none, toCount := 0, busTrace := s.busTrace ++ [busCmdEvent c, .complete noFlags d] }

theorem resume_ok_withCtl (w : Waiter) (c : Ctl) (s : State) : resume w .ok { s with ctl := c } = resume w .ok s := by
  cases w with
  | blkRead left got k =>
    simp only [resume, if_true]
    split <;> rfl
  | _ => rfl

theorem closeWait_takeCompletion (b : Counter) (w : Waiter) (c : BusCmd) (d : Byte) (s : State) :
    closeWait .ok (takeCompletion noFlags d (openWait b w (issue c s))) =
      { completed c d s with ctl := .wait b w } := by
  simp [closeWait, takeCompletion, completionFlags, openWait, issue, noFlags, completed] <;> rfl

section
variable (any : Nat → Byte) {S script : List (List Beside)} {es es' : List Beside} {s t u v : State} {p q : Peer}
  {j : Job} {w : Waiter} {b : Counter} {c : BusCmd} {d : Byte}

/-- The healthy peer's answer to the command `c`, whose wait has just begun: the waiter goes on with `OK`. -/
theorem serve_reply (hes : es ∈ S) (h : Follows S u v) (hb : b ≠ 0) (hberr : u.flagBerr = false)
    (hans : peerAnswer (any (u.busTrace.length + 1)) (busCmdEvent c) p = some (q, d)) :
    ∃ t, serve any (es :: script) (openWait b w (issue c v), p) = serve any script (t, q) ∧
      Follows S (resume w .ok (completed c d u)) t := by
  have hwaits : Follows S (openWait b w (issue c u)) (besides es (openWait b w (issue c v))) :=
    (h.map ((respects_openWait b w).comp (respects_issue c))).trans (follows_besides hes _)
  have hpos : (0 : Counter) < b := by bv_omega
  have hopen : wake b (besides es (openWait b w (issue c v))) = false :=
    besides_open rfl (wake_false rfl hpos)
  have hlt : (besides es (openWait b w (issue c v))).toCount < b :=
    BitVec.not_le.mp fun hle => by simp [wake_iff.mpr (.inr hle)] at hopen
  have hout : outcome b (takeCompletion noFlags d (besides es (openWait b w (issue c v)))) = .ok := by
    have hflag : (besides es (openWait b w (issue c v))).flagBerr = false :=
      (congrArg EngineFields.flagBerr hwaits.frame.engine).trans hberr
    rw [outcome_completion _ _ hlt, hflag]
    rfl
  have hpend : (openWait b w (issue c v)).pending ≠ .none := by cases c <;> nofun
  have hlen : (openWait b w (issue c v)).busTrace.length = u.busTrace.length + 1 := by
    simp [openWait, issue, h.frame.busTrace]
  refine ⟨_, serve_answer any script rfl hpend List.getLast?_concat (by rw [hlen]; exact hans), ?_⟩
  have hfollow := hwaits.map (((respects_resume_ok w).comp (respects_closeWait .ok)).comp
    (respects_takeCompletion noFlags d))
  rw [endWait, hout]
  rwa [closeWait_takeCompletion, resume_ok_withCtl] at hfollow

/-- A step of the host that is not the beginning of a wait. -/
theorem serve_step (hes : es ∈ S) (h : Follows S u t) (hrun : u.ctl = .run j) (hj : j ≠ .loopGate)
    {f : State → State} (hf : Respects f) (hstep : ∀ v, BesideFrame u v → hostStep j v = .next (f v)) :
    ∃ t', serve any (es :: script) (t, p) = serve any script (t', p) ∧ Follows S (f u) t' := by
  have hv := h.trans (follows_besides hes t)
  exact ⟨_, serve_run any script p (h.frame.ctl.trans hrun) hj (hstep _ hv.frame), hv.map hf⟩

/-- A step of the host that sends the command `c`, and the healthy peer's answer to it. -/
theorem serve_exchange (hes : es ∈ S) (hes' : es' ∈ S) (h : Follows S u t) (hrun : u.ctl = .run j) (hj : j ≠ .loopGate)
    {load : State → State} (hload : Respects load)
    (hstep : ∀ v, BesideFrame u v → hostStep j v = .next (openWait b w (issue c (load v)))) (hb : b ≠ 0)
    (hberr : (load u).flagBerr = false)
    (hans : peerAnswer (any ((load u).busTrace.length + 1)) (busCmdEvent c) p = some (q, d)) :
    ∃ t', serve any (es :: es' :: script) (t, p) = serve any script (t', q) ∧
      Follows S (resume w .ok (completed c d (load u))) t' := by
  have hv := h.trans (follows_besides hes t)
  obtain ⟨t', hserve, hfollow⟩ := serve_reply any hes' (hv.map hload) hb hberr hans
  exact ⟨t', (serve_run any _ p (h.frame.ctl.trans hrun) hj (hstep _ hv.frame)).trans hserve, hfollow⟩

end

end Sys2Proof.Machine
end

section
/-! Block operations with the healthy peer (R78, R160, R161), and the recovery before them (R162, R167). -/

namespace Sys2Proof.Machine

/-! ### The peer's memory -/

/-- Bytes written to the registers of device `a7` from `reg` on (R72). -/
def storeBytes (a7 : BitVec 7) (reg : Byte) (bytes : List Byte) (mem : List Host.Cell) : List Host.Cell :=
  match bytes with
  | [] => mem
  | b :: bytes => storeBytes a7 (reg + 1) bytes (peerWrite mem (peerCell a7 reg) b)

theorem peerCell_inj {a7 : BitVec 7} {r r' : Byte} (h : peerCell a7 r = peerCell a7 r') : r = r' := by
  unfold peerCell at h
  exact BitVec.eq_of_toNat_eq (by omega)

section
variable {mem : List Host.Cell} {a7 : BitVec 7} {reg : Byte} {bytes : List Byte}

theorem register_succ (reg : Byte) (i : Nat) : reg + 1 + BitVec.ofNat 8 i = reg + BitVec.ofNat 8 (i + 1) := by
  rw [BitVec.add_assoc, Nat.add_comm i 1, BitVec.ofNat_add]
  rfl

/-- Other cells keep their bytes. -/
theorem peerRead_storeBytes_other (hmem : peerMemWf mem = true) {a : Nat}
    (ha : ∀ i < bytes.length, a ≠ peerCell a7 (reg + BitVec.ofNat 8 i)) :
    peerRead (storeBytes a7 reg bytes mem) a = peerRead mem a := by
  induction bytes generalizing reg mem with
  | nil => rfl
  | cons b bytes ih =>
    have hfirst : a ≠ peerCell a7 reg := by
      have := ha 0 (by simp)
      rwa [BitVec.add_zero] at this
    refine (ih (peerWrite_wf hmem _ _) fun i hi => ?_).trans (peerRead_write_other hmem b hfirst)
    rw [register_succ]
    exact ha (i + 1) (by simpa using hi)

/-- The cells written hold their bytes, the registers wrapping from 255 to 0. -/
theorem peerRead_storeBytes (hmem : peerMemWf mem = true) (hlen : bytes.length ≤ 256) {i : Nat}
    (hi : i < bytes.length) :
    peerRead (storeBytes a7 reg bytes mem) (peerCell a7 (reg + BitVec.ofNat 8 i)) = bytes[i] := by
  induction bytes generalizing reg mem i with
  | nil => simp at hi
  | cons b bytes ih =>
    rw [List.length_cons] at hlen hi
    cases i with
    | zero =>
      rw [BitVec.add_zero]
      refine (peerRead_storeBytes_other (peerWrite_wf hmem _ _) fun i hi heq => ?_).trans
        (peerRead_write_same hmem _ b)
      have := peerCell_inj heq
      rw [register_succ] at this
      have hwrap : (BitVec.ofNat 8 (i + 1) : Byte) = 0 := by bv_omega
      have := congrArg BitVec.toNat hwrap
      rw [BitVec.toNat_ofNat, Nat.mod_eq_of_lt (by omega)] at this
      simp at this
    | succ i =>
      rw [← register_succ]
      exact ih (peerWrite_wf hmem _ _) (by omega) (by omega)

end

/-! ### What the healthy peer does on each command -/

/-- The peer after it took the byte `x` (R78). -/
def peerTake (x : Byte) (p : Peer) : Peer :=
  if p.first then { p with ptr := x, first := false }
  else { p with mem := peerWrite p.mem (peerCell p.dev p.ptr) x, ptr := p.ptr + 1 }

theorem peerAnswer_write (any x : Byte) (p : Peer) : peerAnswer any (.write x) p = some (peerTake x p, any) := rfl

theorem peerAnswer_address (any : Byte) (a7 : BitVec 7) (repeated read : Bool) (p : Peer) :
    peerAnswer any (.addr (addressByte a7 read) repeated) p =
      some ({ p with dev := a7, first := if read then p.first else true }, any) := by
  have hdev : (addressByte a7 read >>> 1).setWidth 7 = a7 := by
    cases read
    · revert a7; decide
    · revert a7; decide
  have hbit : (addressByte a7 read).getLsbD 0 = read := by
    cases read
    · revert a7; decide
    · revert a7; decide
  rw [peerAnswer, hdev, hbit]

/-- The peer after the bytes of a block write (R161). -/
def peerStored (a7 : BitVec 7) (reg : Byte) (bytes : List Byte) (p : Peer) : Peer where
  mem := storeBytes a7 reg bytes p.mem
  ptr := reg + BitVec.ofNat 8 bytes.length
  dev := a7
  first := false

/-! ### A block write -/

/-- `s` between two bytes of a block operation: the bus owned, the last byte answered, `tr` in the trace. -/
def exchanged (tr : List BusEvent) (d : Byte) (s : State) : State :=
  { s with
    flagTc := true, flagArb := false, flagNack := false, data := d, owner := true, pending := .none, toCount := 0,
    busTrace := s.busTrace ++ tr }

/-- `s` after the commands `es` of a block operation, each answered by the healthy peer. -/
def sent (any : Nat → Byte) (es : List BusEvent) (d : Byte) (s : State) : State :=
  exchanged (answered any s.busTrace.length es) d s

/-- `s` after a block write that the healthy peer took (R161). -/
def blockWritten (any : Nat → Byte) (a7 : BitVec 7) (reg : Byte) (bytes : List Byte) (s : State) : State :=
  { s with
    flagTc := true, flagArb := false, flagNack := false, data := bytes.getLastD reg, owner := false, pending := .none,
    toCount := 0, busTrace := s.busTrace ++ writeTransaction any s.busTrace.length a7 (reg :: bytes) }

/-- The first command of a block operation, with its wait. -/
def addressed (a7 : BitVec 7) (w : Waiter) (s : State) : State :=
  openWait s.cfg.toAddr w
    (issue (.addr (addressByte a7 false) false) (takeBus (loadData (addressByte a7 false) (clearPriorFlags s))))

theorem answered_append (any : Nat → Byte) (n : Nat) (es es' : List BusEvent) :
    answered any n (es ++ es') = answered any n es ++ answered any (n + 2 * es.length) es' := by
  induction es generalizing n with
  | nil => rfl
  | cons e es ih =>
    have hn : n + 2 + 2 * es.length = n + 2 * (es.length + 1) := by omega
    simp only [answered, List.cons_append, ih, List.length_cons, hn]

theorem answered_length (any : Nat → Byte) (n : Nat) (es : List BusEvent) :
    (answered any n es).length = 2 * es.length := by
  induction es generalizing n with
  | nil => rfl
  | cons e es ih => simp only [answered, List.length_cons, ih]; omega

theorem deliverBlock_ok_runJob (k : Cont) (got : List Byte) (j : Job) (s : State) :
    deliverBlock k .ok got (runJob j s) = deliverBlock k .ok got s := by
  cases k with
  | hostRead => rfl
  | hostWrite => rfl
  | config up => exact returnAggregate_runJob up .ok j s
  | writeAll i res up =>
    by_cases hlast : i.val + 1 < 5
    · simp only [deliverBlock, dif_pos hlast]
      rfl
    · simp only [deliverBlock, dif_neg hlast]
      exact returnAggregate_runJob up _ j s

section
variable (any : Nat → Byte) {S script : List (List Beside)} {es es' : List Beside} {s t u v : State} {p q : Peer}
  {k : Cont} {cs : List BusEvent} {d : Byte} {a7 : BitVec 7}

/-- One byte of a block operation to the healthy peer, with its answer. -/
theorem serve_byte (hes : es ∈ S) (hes' : es' ∈ S) {pos next : BlkPos} {x : Byte} (hen : u.enabled = true)
    (hberr : u.flagBerr = false) (hb : u.cfg.toWrite ≠ 0)
    (h : Follows S (runJob (.block pos k) (sent any cs d u)) t)
    (hpos : ∀ v, blockStep pos k v = writePrim x (.blkNext next k) v) :
    ∃ t', serve any (es :: es' :: script) (t, p) = serve any script (t', peerTake x p) ∧
      Follows S (runJob (.block next k) (sent any (cs ++ [.write x]) x u)) t' := by
  have hstep (v : State) (hv : BesideFrame (runJob (.block pos k) (sent any cs d u)) v) :
      hostStep (.block pos k) v =
        .next (openWait u.cfg.toWrite (.blkNext next k) (issue (.write x) (loadData x v))) := by
    have hen' : v.enabled = true := (congrArg EngineFields.enabled hv.engine).trans hen
    have howner : v.owner = true := congrArg EngineFields.owner hv.engine
    have hcfg : v.cfg = u.cfg := hv.cfg
    refine (hpos v).trans ((writePrim_owner hen' howner _ _).trans ?_)
    rw [hcfg, beginWait_issue_open hb]
  have hend := serve_exchange any (script := script) (p := p) (c := .write x) hes hes' h rfl nofun
    (respects_loadData x) hstep hb hberr (peerAnswer_write _ x p)
  have heq : resume (.blkNext next k) .ok (completed (.write x)
      (any ((loadData x (runJob (.block pos k) (sent any cs d u))).busTrace.length + 1))
      (loadData x (runJob (.block pos k) (sent any cs d u)))) =
      runJob (.block next k) (sent any (cs ++ [.write x]) x u) := by
    simp [resume, completed, loadData, runJob, sent, exchanged, answered_append, answered_length, answered, busCmdKind,
      busCmdEvent]
  rwa [heq] at hend

/-- The final `STOP` of a block operation that owns the bus. -/
theorem serve_stop (hes : es ∈ S) {got : List Byte} (hen : u.enabled = true) (howner : u.owner = true)
    (h : Follows S (runJob (.block (.stop got) k) u) t) :
    ∃ t', serve any (es :: script) (t, p) = serve any script (t', p) ∧
      Follows S (deliverBlock k .ok got (stopEngine u)) t' := by
  have hend := serve_step any (script := script) (p := p) hes h rfl nofun
    ((respects_deliverBlock k got).comp respects_stopEngine) fun v hv =>
      stopDeliver_owner ((congrArg EngineFields.enabled hv.engine).trans hen)
        ((congrArg EngineFields.owner hv.engine).trans howner) k .ok got
  have heq : deliverBlock k .ok got (stopEngine (runJob (.block (.stop got) k) u)) =
      deliverBlock k .ok got (stopEngine u) :=
    deliverBlock_ok_runJob k got (.block (.stop got) k) (stopEngine u)
  rwa [heq] at hend

/-- R161: the bytes of a block write that are left, and the stop. -/
theorem serve_bytes {bytes : List Byte} (hS : script ⊆ S) (hlen : 2 * bytes.length + 1 ≤ script.length)
    (hen : u.enabled = true) (hberr : u.flagBerr = false) (hb : u.cfg.toWrite ≠ 0)
    (h : Follows S (runJob (.block (afterByte bytes) k) (sent any cs d u)) t) (hp : p.first = false) :
    ∃ t', serve any script (t, p) = serve any (script.drop (2 * bytes.length + 1))
        (t', { p with mem := storeBytes p.dev p.ptr bytes p.mem, ptr := p.ptr + BitVec.ofNat 8 bytes.length }) ∧
      Follows S (deliverBlock k .ok [] (stopEngine (sent any (cs ++ bytes.map .write) (bytes.getLastD d) u))) t' := by
  induction bytes generalizing script cs d t p with
  | nil =>
    obtain ⟨es, script, rfl⟩ := List.exists_cons_of_length_pos (Nat.lt_of_lt_of_le (Nat.succ_pos _) hlen)
    obtain ⟨hes, -⟩ := List.cons_subset.mp hS
    obtain ⟨t', hserve, hfollow⟩ := serve_stop any (script := script) (p := p) (u := sent any cs d u) hes hen rfl h
    refine ⟨t', ?_, by simpa using hfollow⟩
    rw [hserve]
    simp [storeBytes]
  | cons x bytes ih =>
    obtain ⟨es, es', script, rfl⟩ : ∃ es es' rest, script = es :: es' :: rest := by
      match script, hlen with
      | es :: es' :: rest, _ => exact ⟨es, es', rest, rfl⟩
    obtain ⟨hes, hS'⟩ := List.cons_subset.mp hS
    obtain ⟨hes', hrest⟩ := List.cons_subset.mp hS'
    obtain ⟨t', hserve, hfollow⟩ := serve_byte any (script := script) (p := p) hes hes' hen hberr hb h fun _ => rfl
    have htake : peerTake x p = { p with mem := peerWrite p.mem (peerCell p.dev p.ptr) x, ptr := p.ptr + 1 } :=
      if_neg (ne_true_of_eq_false hp)
    obtain ⟨t'', hserve', hfollow'⟩ := ih (p := peerTake x p) hrest (by simp at hlen; omega) hfollow
      (by rw [htake]; exact hp)
    refine ⟨t'', ?_, ?_⟩
    · rw [hserve, hserve', htake]
      simp only [storeBytes, register_succ, List.length_cons]
      rfl
    · simpa only [List.map_cons, List.getLastD_cons, List.append_assoc, List.singleton_append] using hfollow'

/-- R160, R161: the answer to the address byte of a block operation. -/
theorem serve_address (hes : es ∈ S) {next : BlkPos} (hberr : u.flagBerr = false) (haddr : u.cfg.toAddr ≠ 0)
    (h : Follows S u v) :
    ∃ t, serve any (es :: script) (addressed a7 (.blkStart next k) v, p) =
        serve any script (t, { p with dev := a7, first := true }) ∧
      Follows S (runJob (.block next k) (sent any [.addr (addressByte a7 false) false] (addressByte a7 false) u))
        t := by
  have hcfg : v.cfg = u.cfg := h.frame.cfg
  have hend := serve_reply any (script := script) (w := .blkStart next k) (c := .addr (addressByte a7 false) false) hes
    (h.map ((respects_takeBus.comp (respects_loadData (addressByte a7 false))).comp respects_clearPriorFlags)) haddr
    hberr (peerAnswer_address _ a7 false false p)
  have heq : resume (.blkStart next k) .ok (completed (.addr (addressByte a7 false) false)
      (any ((takeBus (loadData (addressByte a7 false) (clearPriorFlags u))).busTrace.length + 1))
      (takeBus (loadData (addressByte a7 false) (clearPriorFlags u)))) =
      runJob (.block next k) (sent any [.addr (addressByte a7 false) false] (addressByte a7 false) u) := by
    simp [resume, completed, loadData, takeBus, clearPriorFlags, runJob, sent, exchanged, answered, busCmdKind,
      busCmdEvent]
  rw [heq] at hend
  rw [addressed, hcfg]
  exact hend

/-- R161: a block write to the healthy peer, from the wait for the answer to its address byte. -/
theorem serve_blockWrite {reg : Byte} {bytes : List Byte} (hS : script ⊆ S)
    (hlen : 2 * bytes.length + 4 ≤ script.length) (hen : u.enabled = true) (hberr : u.flagBerr = false)
    (haddr : u.cfg.toAddr ≠ 0) (hwrite : u.cfg.toWrite ≠ 0) (h : Follows S u v) :
    ∃ t, serve any script (addressed a7 (.blkStart (.wReg reg bytes) k) v, p) =
        serve any (script.drop (2 * bytes.length + 4)) (t, peerStored a7 reg bytes p) ∧
      Follows S (deliverBlock k .ok [] (blockWritten any a7 reg bytes u)) t := by
  obtain ⟨es, es', es'', script, rfl⟩ : ∃ es es' es'' rest, script = es :: es' :: es'' :: rest := by
    match script, hlen with
    | es :: es' :: es'' :: rest, _ => exact ⟨es, es', es'', rest, rfl⟩
  obtain ⟨hes, hS'⟩ := List.cons_subset.mp hS
  obtain ⟨hes', hS''⟩ := List.cons_subset.mp hS'
  obtain ⟨hes'', hrest⟩ := List.cons_subset.mp hS''
  obtain ⟨t, hserve, hfollow⟩ := serve_address any (script := es' :: es'' :: script) (p := p) hes hberr haddr h
  obtain ⟨t', hserve', hfollow'⟩ := serve_byte any (script := script) (p := { p with dev := a7, first := true })
    (pos := .wReg reg bytes) (x := reg) (k := k) hes' hes'' hen hberr hwrite hfollow fun _ => rfl
  obtain ⟨t'', hserve'', hfollow''⟩ := serve_bytes any (p := peerTake reg { p with dev := a7, first := true }) hrest
    (by simp at hlen; omega) hen hberr hwrite hfollow' rfl
  refine ⟨t'', (hserve.trans hserve').trans hserve'', ?_⟩
  have hdone : stopEngine (sent any ([.addr (addressByte a7 false) false] ++ [.write reg] ++ bytes.map .write)
      (bytes.getLastD reg) u) = blockWritten any a7 reg bytes u := by
    simp [stopEngine, sent, exchanged, blockWritten, writeTransaction]
  rwa [hdone] at hfollow''

/-! ### A block read -/

/-- What an `RBYTE` of a block operation finds in the engine (R160). -/
structure ReadyToRead (s : State) : Prop where
  enabled : s.enabled = true
  owner : s.owner = true
  read_pos : s.cfg.toRead ≠ 0
  no_error : s.flagBerr = false

/-- The policy of an `RBYTE` of `RDBLK`: the last byte is declined (R160). -/
def readPolicy (left : Nat) : AckPolicy :=
  if left ≤ 1 then .nack else .ack

/-- The phase after a byte of `RDBLK` (R160). -/
def afterRead (left : Nat) (got : List Byte) : BlkPos :=
  if left ≤ 1 then .stop got else .rByte (left - 1) got

/-- R160: the repeated start of a block read. -/
theorem serve_restart (hes : es ∈ S) (hes' : es' ∈ S) {count : Nat} (hu : ReadyToRead u) (haddr : u.cfg.toAddr ≠ 0)
    (h : Follows S (runJob (.block (.rRestart a7 count) k) u) t) :
    ∃ t' u', serve any (es :: es' :: script) (t, p) = serve any script (t', { p with dev := a7 }) ∧ ReadyToRead u' ∧
      Follows S (runJob (.block (.rByte count []) k) u') t' := by
  have hstep (v : State) (hv : BesideFrame (runJob (.block (.rRestart a7 count) k) u) v) :
      hostStep (.block (.rRestart a7 count) k) v = .next (openWait u.cfg.toAddr (.blkNext (.rByte count []) k)
        (issue (.addr (addressByte a7 true) true) (loadData (addressByte a7 true) v))) := by
    have hen : v.enabled = true := (congrArg EngineFields.enabled hv.engine).trans hu.enabled
    have howner : v.owner = true := (congrArg EngineFields.owner hv.engine).trans hu.owner
    have hcfg : v.cfg = u.cfg := hv.cfg
    refine (restartPrim_owner hen howner _ _).trans ?_
    rw [hcfg, beginWait_issue_open haddr]
  obtain ⟨t', hserve, hfollow⟩ := serve_exchange any (script := script) (p := p)
    (c := .addr (addressByte a7 true) true) hes hes' h rfl nofun (respects_loadData _) hstep haddr hu.no_error
    (peerAnswer_address _ a7 true true p)
  exact ⟨t', completed (.addr (addressByte a7 true) true) _ (loadData (addressByte a7 true) u), hserve,
    ⟨hu.enabled, hu.owner, hu.read_pos, hu.no_error⟩, hfollow⟩

/-- R160: one byte of a block read. -/
theorem serve_read (hes : es ∈ S) (hes' : es' ∈ S) {left : Nat} {got : List Byte} (hu : ReadyToRead u)
    (h : Follows S (runJob (.block (.rByte left got) k) u) t) :
    ∃ t' u', serve any (es :: es' :: script) (t, p) = serve any script (t', { p with ptr := p.ptr + 1 }) ∧
      ReadyToRead u' ∧
      Follows S (runJob (.block (afterRead left (got ++ [peerRead p.mem (peerCell p.dev p.ptr)])) k) u') t' := by
  have hstep (v : State) (hv : BesideFrame (runJob (.block (.rByte left got) k) u) v) :
      hostStep (.block (.rByte left got) k) v =
        .next (openWait u.cfg.toRead (.blkRead left got k)
          (issue (.read (readPolicy left)) (latchPolicy (readPolicy left) v))) := by
    have hen : v.enabled = true := (congrArg EngineFields.enabled hv.engine).trans hu.enabled
    have howner : v.owner = true := (congrArg EngineFields.owner hv.engine).trans hu.owner
    have hcfg : v.cfg = u.cfg := hv.cfg
    refine (readPrim_owner hen howner _ _).trans ?_
    rw [hcfg, beginWait_issue_open hu.read_pos]
    rfl
  obtain ⟨t', hserve, hfollow⟩ := serve_exchange any (script := script) (p := p) (c := .read (readPolicy left)) hes
    hes' h rfl nofun (respects_latchPolicy _) hstep hu.read_pos hu.no_error rfl
  refine ⟨t', completed (.read (readPolicy left)) (peerRead p.mem (peerCell p.dev p.ptr))
    (latchPolicy (readPolicy left) u), hserve, ⟨hu.enabled, hu.owner, hu.read_pos, hu.no_error⟩, ?_⟩
  unfold afterRead
  simp only [resume, if_true] at hfollow
  split at hfollow
  · next hlast => rw [if_pos hlast]; exact hfollow
  · next hmore => rw [if_neg hmore]; exact hfollow

/-- R160: the bytes of a block read that are left, and the stop. -/
theorem serve_readBytes {bytes got : List Byte} (hne : bytes ≠ []) (hS : script ⊆ S)
    (hlen : 2 * bytes.length + 1 ≤ script.length) (hu : ReadyToRead u)
    (h : Follows S (runJob (.block (.rByte bytes.length got) k) u) t)
    (hmem : ∀ (i : Nat) (hi : i < bytes.length),
      peerRead p.mem (peerCell p.dev (p.ptr + BitVec.ofNat 8 i)) = bytes[i]) :
    ∃ t' u' q, serve any script (t, p) = serve any (script.drop (2 * bytes.length + 1)) (t', q) ∧ q.mem = p.mem ∧
      Follows S (deliverBlock k .ok (got ++ bytes) (stopEngine u')) t' := by
  induction bytes generalizing script got u t p with
  | nil => exact absurd rfl hne
  | cons x bytes ih =>
    obtain ⟨es, es', es'', script, rfl⟩ : ∃ es es' es'' rest, script = es :: es' :: es'' :: rest := by
      match script, hlen with
      | es :: es' :: es'' :: rest, _ => exact ⟨es, es', es'', rest, rfl⟩
    obtain ⟨hes, hS'⟩ := List.cons_subset.mp hS
    obtain ⟨hes', hrest⟩ := List.cons_subset.mp hS'
    obtain ⟨t', u', hserve, hu', hfollow⟩ := serve_read any (script := es'' :: script) (p := p) hes hes' hu h
    have hbyte : peerRead p.mem (peerCell p.dev p.ptr) = x := by
      have := hmem 0 (Nat.succ_pos _)
      rwa [BitVec.add_zero] at this
    rw [hbyte] at hfollow
    cases bytes with
    | nil =>
      obtain ⟨t'', hserve', hfollow'⟩ := serve_stop any (script := script) (p := { p with ptr := p.ptr + 1 })
        (List.cons_subset.mp hrest).1 hu'.enabled hu'.owner hfollow
      exact ⟨t'', u', _, hserve.trans hserve', rfl, hfollow'⟩
    | cons y bytes =>
      obtain ⟨t'', u'', q, hserve', hq, hfollow'⟩ := ih (p := { p with ptr := p.ptr + 1 }) nofun hrest
        (by simp at hlen ⊢; omega) hu' hfollow fun i hi => by
          rw [register_succ]
          exact hmem (i + 1) (Nat.succ_lt_succ hi)
      refine ⟨t'', u'', q, hserve.trans hserve', hq, ?_⟩
      rwa [List.append_assoc, List.singleton_append] at hfollow'

/-- R160: a block read from the healthy peer, from the wait for the answer to its address byte. -/
theorem serve_blockRead {reg : Byte} {bytes : List Byte} (hne : bytes ≠ []) (hS : script ⊆ S)
    (hlen : 2 * bytes.length + 6 ≤ script.length) (hu : BusReady u) (h : Follows S u v)
    (hmem : ∀ (i : Nat) (hi : i < bytes.length), peerRead p.mem (peerCell a7 (reg + BitVec.ofNat 8 i)) = bytes[i]) :
    ∃ t u' q, serve any script (addressed a7 (.blkStart (.rReg a7 reg bytes.length) k) v, p) =
        serve any (script.drop (2 * bytes.length + 6)) (t, q) ∧ q.mem = p.mem ∧
      Follows S (deliverBlock k .ok bytes (stopEngine u')) t := by
  obtain ⟨-, hen, -, hberr, haddr, hread, hwrite⟩ := hu
  obtain ⟨e1, e2, e3, e4, e5, script, rfl⟩ : ∃ e1 e2 e3 e4 e5 rest, script = e1 :: e2 :: e3 :: e4 :: e5 :: rest := by
    match script, hlen with
    | e1 :: e2 :: e3 :: e4 :: e5 :: rest, _ => exact ⟨e1, e2, e3, e4, e5, rest, rfl⟩
  simp only [List.cons_subset] at hS
  obtain ⟨h1, h2, h3, h4, h5, hrest⟩ := hS
  obtain ⟨t1, hserve1, hfollow1⟩ := serve_address any (script := e2 :: e3 :: e4 :: e5 :: script) (p := p) (k := k)
    (next := .rReg a7 reg bytes.length) (a7 := a7) h1 hberr haddr h
  obtain ⟨t2, hserve2, hfollow2⟩ := serve_byte any (script := e4 :: e5 :: script)
    (p := { p with dev := a7, first := true }) (pos := .rReg a7 reg bytes.length) (x := reg) (k := k) h2 h3 hen hberr
    hwrite hfollow1 fun _ => rfl
  obtain ⟨t3, u3, hserve3, hu3, hfollow3⟩ := serve_restart any (script := script)
    (p := peerTake reg { p with dev := a7, first := true }) (u := sent any _ reg u) h4 h5 ⟨hen, rfl, hread, hberr⟩ haddr
    hfollow2
  obtain ⟨t4, u4, q, hserve4, hq, hfollow4⟩ := serve_readBytes any (script := script)
    (p := { peerTake reg { p with dev := a7, first := true } with dev := a7 }) hne hrest (by simp at hlen; omega) hu3
    hfollow3 hmem
  exact ⟨t4, u4, q, ((hserve1.trans hserve2).trans hserve3).trans hserve4, hq, hfollow4⟩

end

/-! ### A recovery, and the commands of the host -/

section
variable (any : Nat → Byte) {S script : List (List Beside)} {s t u : State} {p : Peer} {a7 : BitVec 7} {reg : Byte}
  {bytes : List Byte} {k : Cont} {i : Instr}

theorem runServed_next (h : exec i s = .next t) : runServed any script i (s, p) = some (serve any script (t, p)) := by
  simp only [runServed, h]

/-- R162: the host's own recovery, with anything around its steps. -/
theorem serve_recovery {a : RecAct} {todo : List RecAct} (hS : script ⊆ S) (hlen : todo.length + 1 ≤ script.length)
    (h : Follows S (runJob (.recover (a :: todo)) u) t) :
    ∃ t', serve any script (t, p) = serve any (script.drop (todo.length + 1)) (t', p) ∧
      Follows S (giveResult .none ((a :: todo).foldl (fun s a => recoveryAct a s) u)) t' := by
  induction todo generalizing script a u t with
  | nil =>
    obtain ⟨es, script, rfl⟩ := List.exists_cons_of_length_pos (Nat.lt_of_lt_of_le (Nat.succ_pos _) hlen)
    obtain ⟨t', hserve, hfollow⟩ := serve_step any (script := script) (p := p) (List.cons_subset.mp hS).1 h rfl nofun
      ((respects_giveResult .none).comp (respects_recoveryAct a)) fun _ _ => rfl
    refine ⟨t', hserve, ?_⟩
    cases a <;> exact hfollow
  | cons a' todo ih =>
    obtain ⟨es, script, rfl⟩ := List.exists_cons_of_length_pos (Nat.lt_of_lt_of_le (Nat.succ_pos _) hlen)
    obtain ⟨hes, hrest⟩ := List.cons_subset.mp hS
    obtain ⟨t', hserve, hfollow⟩ := serve_step any (script := script) (p := p) hes h rfl nofun
      ((respects_runJob (.recover (a' :: todo))).comp (respects_recoveryAct a)) fun _ _ => rfl
    rw [runJob_recoveryAct_runJob] at hfollow
    obtain ⟨t'', hserve', hfollow'⟩ := ih hrest (Nat.le_of_succ_le_succ hlen) hfollow
    exact ⟨t'', hserve.trans hserve', hfollow'⟩

/-- R161: a command that is one block write to the healthy peer. -/
theorem runServed_blockWrite (hexec : exec i s = writeBlock a7 reg bytes k s) (hen : s.enabled = true)
    (howner : s.owner = false) (hberr : s.flagBerr = false) (haddr : s.cfg.toAddr ≠ 0) (hwrite : s.cfg.toWrite ≠ 0)
    (hlen : 2 * bytes.length + 4 ≤ script.length)
    (hend : (deliverBlock k .ok [] (blockWritten any a7 reg bytes s)).ctl = .idle) :
    ∃ t, runServed any script i (s, p) = some (t, peerStored a7 reg bytes p) ∧
      Follows script (deliverBlock k .ok [] (blockWritten any a7 reg bytes s)) t := by
  have hstart : exec i s = .next (addressed a7 (.blkStart (.wReg reg bytes) k) s) :=
    hexec.trans (startPrim_waits hen howner hberr haddr _ _)
  obtain ⟨t, hserve, hfollow⟩ := serve_blockWrite any (S := script) (p := p) (a7 := a7) (reg := reg) (k := k)
    (List.Subset.refl script) hlen hen hberr haddr hwrite (.refl script s)
  refine ⟨t, ?_, hfollow⟩
  rw [runServed_next any hstart, hserve, serve_idle any _ _ (hfollow.frame.ctl.trans hend)]

end

theorem BesideFrame.busReady {s t : State} (h : BesideFrame s t) (hs : BusReady s) : BusReady t where
  idle := h.ctl.trans hs.idle
  enabled := (congrArg EngineFields.enabled h.engine).trans hs.enabled
  not_owner := (congrArg EngineFields.owner h.engine).trans hs.not_owner
  no_error := (congrArg EngineFields.flagBerr h.engine).trans hs.no_error
  addr_pos := h.cfg ▸ hs.addr_pos
  read_pos := h.cfg ▸ hs.read_pos
  write_pos := h.cfg ▸ hs.write_pos

/-- R160: an `RDBLK` of registers of the healthy peer that hold `bytes`. -/
theorem runServed_rdblk (any : Nat → Byte) {script : List (List Beside)} {s : State} {p : Peer} {a7 : BitVec 7}
    {reg : Byte} {bytes : List Byte} (hready : BusReady s) (hne : bytes ≠ []) (hcount : bytes.length ≤ 255)
    (hlen : 2 * bytes.length + 6 ≤ script.length)
    (hmem : ∀ (i : Nat) (hi : i < bytes.length), peerRead p.mem (peerCell a7 (reg + BitVec.ofNat 8 i)) = bytes[i]) :
    ∃ t q, runServed any script (.rdblk a7 reg (BitVec.ofNat 8 bytes.length)) (s, p) = some (t, q) ∧
      t.ctl = .idle ∧ t.result = .block .ok (some bytes) ∧ q.mem = p.mem ∧ t.owner = false := by
  have hnat : (BitVec.ofNat 8 bytes.length : Byte).toNat = bytes.length := by
    rw [BitVec.toNat_ofNat, Nat.mod_eq_of_lt (by omega)]
  have hpos : (BitVec.ofNat 8 bytes.length : Byte) ≠ 0 := fun h => by
    rw [h] at hnat
    exact hne (List.eq_nil_of_length_eq_zero hnat.symm)
  have hstart : exec (.rdblk a7 reg (BitVec.ofNat 8 bytes.length)) s =
      .next (addressed a7 (.blkStart (.rReg a7 reg bytes.length) .hostRead) s) := by
    rw [exec_rdblk_idle hready.idle hpos, hnat]
    exact startPrim_waits hready.enabled hready.not_owner hready.no_error hready.addr_pos _ _
  obtain ⟨t, u, q, hserve, hq, hfollow⟩ := serve_blockRead any (p := p) (k := .hostRead) hne (List.Subset.refl script)
    hlen hready (.refl script s) hmem
  refine ⟨t, q, ?_, hfollow.frame.ctl, congrArg HostFields.result hfollow.frame.host, hq,
    congrArg EngineFields.owner hfollow.frame.engine⟩
  rw [runServed_next any hstart, hserve, serve_idle any _ _ hfollow.frame.ctl]

/-- Settles O36: the write leaves the bytes in the peer's memory, where the read finds them. -/
theorem healthyWriteThenRead : Obligations.HealthyWriteThenRead := by
  intro any s p a7 reg bytes script script' hready hmem hlen hscript hscript'
  obtain ⟨t, hrun, hfollow⟩ := runServed_blockWrite any (p := p) (script := script) (k := .hostWrite)
    (exec_wrblk_idle hready.idle hlen) hready.enabled hready.not_owner hready.no_error hready.addr_pos hready.write_pos
    (by omega) rfl
  have hwritten (i : Nat) (hi : i < bytes.length) : peerRead (peerStored a7 reg bytes p).mem
      (peerCell a7 (reg + BitVec.ofNat 8 i)) = bytes[i] := peerRead_storeBytes hmem (by omega) hi
  have hready' : BusReady t := hfollow.frame.busReady
    ⟨rfl, hready.enabled, rfl, hready.no_error, hready.addr_pos, hready.read_pos, hready.write_pos⟩
  exact ⟨t, _, hrun, hready'.idle, congrArg HostFields.result hfollow.frame.host, hready'.not_owner,
    hfollow.frame.busTrace, hwritten, fun a ha => peerRead_storeBytes_other hmem ha,
    fun hne => runServed_rdblk any hready' hne hlen (by omega) hwritten⟩

/-- The steps of a recovery, taken one after the other, leave the engine as after an initialisation. -/
theorem recoveryPlan_foldl (s : State) :
    giveResult .none (recoveryPlan.foldl (fun s a => recoveryAct a s) s) =
      giveResult .none (rearmed recoveryTrace .idle s) := by
  simp [recoveryPlan, recoveryTrace, recPulses, recReinits, List.replicate, recoveryAct, initEngine, rearmed,
    giveResult]

/-- Settles O37: a recovery leaves an engine in which a block write can begin. -/
theorem recoveryIsEffective : Obligations.RecoveryIsEffective := by
  intro any s p a7 reg bytes script script' hidle haddr hwrite hlen hscript hscript'
  have hfirst : exec .recover s = .next (runJob (.recover recoveryPlan.tail) (recoveryAct .release s)) :=
    exec_idle (n := 0) hidle rfl rfl
  obtain ⟨u, hserve, hfollow⟩ := serve_recovery any (p := p) (a := .pulse) (todo := recoveryPlan.tail.tail)
    (List.Subset.refl script) hscript (.refl script (runJob (.recover recoveryPlan.tail) (recoveryAct .release s)))
  have hdone : Follows script (giveResult .none (rearmed recoveryTrace .idle s)) u := recoveryPlan_foldl s ▸ hfollow
  have hcfg : u.cfg = s.cfg := hdone.frame.cfg
  obtain ⟨v, hrun, hfollow'⟩ := runServed_blockWrite any (p := p) (script := script') (k := .hostWrite)
    (exec_wrblk_idle (a7 := a7) (reg := reg) hdone.frame.ctl hlen)
    (congrArg EngineFields.enabled hdone.frame.engine) (congrArg EngineFields.owner hdone.frame.engine)
    (congrArg EngineFields.flagBerr hdone.frame.engine) (hcfg ▸ haddr) (hcfg ▸ hwrite) (by omega) rfl
  refine ⟨u, ?_, hdone.frame.ctl, hdone.frame.busTrace, v, _, hrun, hfollow'.frame.ctl,
    congrArg HostFields.result hfollow'.frame.host, hfollow'.frame.busTrace⟩
  rw [runServed_next any hfirst]
  exact congrArg some (hserve.trans (serve_idle any _ _ hdone.frame.ctl))

end Sys2Proof.Machine
end

section
/-! The display operations and the main loop with the healthy peer (R233 to R239, R276). -/

namespace Sys2Proof.Machine

/-! ### The configuration commands -/

section
variable {s : State} {i : Instr} {cmd : Byte}

/-- R235 to R238, R102: each configuration command, with an operand in range, and its command byte. -/
theorem exec_config_idle_eq (hidle : s.ctl = .idle)
    (hi : (∃ r : Byte, r.toNat ≤ 3 ∧ i = .setblink r ∧ cmd = s.cfg.cmdDisp ||| (r <<< 1) ||| 1) ∨
      (∃ o : Byte, o.toNat ≤ 1 ∧ i = .setosc o ∧ cmd = s.cfg.cmdOsc ||| o) ∨
      (∃ o : Byte, o.toNat ≤ 1 ∧ i = .setdisp o ∧ cmd = s.cfg.cmdDisp ||| o) ∨
      (∃ l : Byte, l.toNat ≤ 15 ∧ i = .setdim l ∧ cmd = s.cfg.cmdDim ||| l)) :
    exec i s = writeBlock s.cfg.dispAddr cmd [] (.config .host) s := by
  obtain ⟨r, hr, rfl, rfl⟩ | ⟨o, ho, rfl, rfl⟩ | ⟨o, ho, rfl, rfl⟩ | ⟨l, hl, rfl, rfl⟩ := hi
  · exact (exec_setblink_idle hidle r).trans (blinkRate_inRange hr _ _)
  · exact exec_setosc_idle hidle ho
  · have hcmd : dispCommand s.cfg 0 o = s.cfg.cmdDisp ||| o := by simp [dispCommand]
    exact hcmd ▸ exec_setdisp_idle hidle ho
  · exact exec_setdim_idle hidle hl

/-- R235 to R238: an operand out of range sends nothing. -/
theorem exec_config_outOfRange (hidle : s.ctl = .idle)
    (hi : (∃ r : Byte, 3 < r.toNat ∧ i = .setblink r) ∨ (∃ o : Byte, 1 < o.toNat ∧ (i = .setosc o ∨ i = .setdisp o)) ∨
      (∃ l : Byte, 15 < l.toNat ∧ i = .setdim l)) : exec i s = .next { s with result := .code .ok } := by
  rw [← giveResult_of_idle hidle]
  obtain ⟨r, hr, rfl⟩ | ⟨o, ho, rfl | rfl⟩ | ⟨l, hl, rfl⟩ := hi
  · exact (exec_setblink_idle hidle r).trans (if_neg (Nat.not_le.mpr hr))
  · exact (exec_idle (n := 0) hidle rfl rfl).trans (if_neg (Nat.not_le.mpr ho))
  · exact (exec_idle (n := 0) hidle rfl rfl).trans (if_neg (Nat.not_le.mpr ho))
  · exact (exec_idle (n := 0) hidle rfl rfl).trans (if_neg (Nat.not_le.mpr hl))

end

theorem onlyTicks_of_quiet {script : List (List Beside)} (h : quiet script) : onlyTicks script := by
  intro es hes e he
  rw [h es hes] at he
  cases he

/-- Settles O39. -/
theorem displayCommandsSendOneByte : Obligations.DisplayCommandsSendOneByte := by
  refine ⟨fun any s p i cmd script hready hlen hi => ⟨?_, ?_⟩, fun s i hidle hi => exec_config_outOfRange hidle hi,
    fun s r rest hready hr hctl => ?_⟩
  · rw [exec_config_idle_eq hready.idle hi, writeBlock, addressByte_eq]
    exact startPrim_waits hready.enabled hready.not_owner hready.no_error hready.addr_pos _ _
  · obtain ⟨t, hrun, hfollow⟩ := runServed_blockWrite any (p := p) (script := script)
      (exec_config_idle_eq hready.idle hi) hready.enabled hready.not_owner hready.no_error hready.addr_pos
      hready.write_pos hlen rfl
    have hhost : hostOf (deliverBlock (.config .host) .ok [] (blockWritten any s.cfg.dispAddr cmd [] s)) =
        { hostOf s with result := .code .ok } := by
      rw [hostOf, hostOf, hready.idle]
      rfl
    exact ⟨t, _, hrun, rfl, hfollow.frame.engine, hfollow.frame.host.trans hhost, hfollow.frame.dispBuf,
      hfollow.frame.cfg, fun hq => ⟨hfollow.quiet hq, hfollow.ticks (onlyTicks_of_quiet hq)⟩⟩
  · rw [hostSteps_one hctl]
    refine (blinkRate_inRange hr _ _).trans ?_
    rw [configWrite, writeBlock, addressByte_eq]
    exact startPrim_waits hready.enabled hready.not_owner hready.no_error hready.addr_pos _ _

/-! ### WRITEALL -/

/-- What the peripheral holds after the writes of positions (R234). -/
def storeDigits (c : Config) (seg : Fin 5 → Byte) (positions : List (Fin 5)) (mem : List Host.Cell) : List Host.Cell :=
  match positions with
  | [] => mem
  | i :: rest => storeDigits c seg rest (peerWrite mem (peerCell c.dispAddr (digitRegister c i)) (seg i))

/-- `s` after the block writes of positions, each taken by the healthy peer (R233). -/
def digitsWritten (any : Nat → Byte) (seg : Fin 5 → Byte) (positions : List (Fin 5)) (s : State) : State :=
  match positions with
  | [] => s
  | i :: rest =>
    digitsWritten any seg rest (blockWritten any s.cfg.dispAddr (digitRegister s.cfg i) [seg i] s)

section
variable {c : Config} {seg : Fin 5 → Byte} {positions : List (Fin 5)} {mem : List Host.Cell}

theorem peerRead_storeDigits_other (hmem : peerMemWf mem = true) {a : Nat}
    (ha : ∀ i ∈ positions, a ≠ peerCell c.dispAddr (digitRegister c i)) :
    peerRead (storeDigits c seg positions mem) a = peerRead mem a := by
  induction positions generalizing mem with
  | nil => rfl
  | cons i rest ih =>
    obtain ⟨hi, hrest⟩ := List.forall_mem_cons.mp ha
    exact (ih (peerWrite_wf hmem _ _) hrest).trans (peerRead_write_other hmem _ hi)

/-- R234: positions with registers of their own hold their segment bytes. -/
theorem peerRead_storeDigits (hmem : peerMemWf mem = true)
    (hinj : ∀ i j, digitRegister c i = digitRegister c j → i = j) {i : Fin 5} (hi : i ∈ positions) :
    peerRead (storeDigits c seg positions mem) (peerCell c.dispAddr (digitRegister c i)) = seg i := by
  induction positions generalizing mem with
  | nil => cases hi
  | cons j rest ih =>
    by_cases hrest : i ∈ rest
    · exact ih (peerWrite_wf hmem _ _) hrest
    · obtain rfl : i = j := (List.mem_cons.mp hi).resolve_right hrest
      refine (peerRead_storeDigits_other (peerWrite_wf hmem _ _) fun k hk heq => ?_).trans
        (peerRead_write_same hmem _ _)
      exact hrest (hinj _ _ (peerCell_inj heq) ▸ hk)

/-- R8, R234: in an admitted configuration with a stride that is not 0, no two positions share a register. -/
theorem digitRegister_inj (hadm : admitted c = true) (hstride : c.dispStride ≠ 0) {i j : Fin 5}
    (h : digitRegister c i = digitRegister c j) : i = j := by
  have hcfg := configFacts hadm
  have hnat (k : Fin 5) : (digitRegister c k).toNat = c.dispBase.toNat + k.val * c.dispStride.toNat := by
    have hk : k.val * c.dispStride.toNat ≤ 4 * c.dispStride.toNat := Nat.mul_le_mul_right _ (by omega)
    have hbase := hcfg.base_le
    have hfits := hcfg.stride_le
    have hkb : (BitVec.ofNat 8 k.val : Byte).toNat = k.val := by
      rw [BitVec.toNat_ofNat, Nat.mod_eq_of_lt (by omega)]
    rw [digitRegister, BitVec.toNat_add, BitVec.toNat_mul, hkb,
      Nat.mod_eq_of_lt (b := 2 ^ 8) (a := k.val * _) (by omega), Nat.mod_eq_of_lt (by omega)]
  have hpos : 0 < c.dispStride.toNat := Nat.pos_of_ne_zero fun h => hstride (BitVec.eq_of_toNat_eq h)
  have heq := congrArg BitVec.toNat h
  rw [hnat, hnat] at heq
  exact Fin.ext (Nat.eq_of_mul_eq_mul_right hpos (Nat.add_left_cancel heq))

end

section
variable {s t u v : State} {i : Fin 5} {res : Code} {up : Upper} {seg : Fin 5 → Byte}

/-- R233: the beginning of a position's block write, on a free bus. -/
theorem digitStep_addressed (hen : s.enabled = true) (howner : s.owner = false) (hberr : s.flagBerr = false)
    (haddr : s.cfg.toAddr ≠ 0) {x : Byte} (hx : digitSegments s.cfg s.dispBuf i = some x) :
    digitStep i res up s = .next (addressed s.cfg.dispAddr
      (.blkStart (.wReg (digitRegister s.cfg i) [x]) (.writeAll i res up)) s) := by
  rw [digitStep_some hx]
  exact startPrim_waits hen howner hberr haddr _ _

/-- The display can be written: `BusReady` but for what the host is doing and the read budget, and a segment byte for
every position (R233). -/
structure DisplayReady (seg : Fin 5 → Byte) (s : State) : Prop where
  enabled : s.enabled = true
  not_owner : s.owner = false
  no_error : s.flagBerr = false
  addr_pos : s.cfg.toAddr ≠ 0
  write_pos : s.cfg.toWrite ≠ 0
  segments : ∀ i, digitSegments s.cfg s.dispBuf i = some (seg i)

theorem DisplayReady.blockWritten (h : DisplayReady seg s) (any : Nat → Byte) (a7 : BitVec 7) (reg : Byte)
    (bytes : List Byte) : DisplayReady seg (blockWritten any a7 reg bytes s) :=
  ⟨h.enabled, rfl, h.no_error, h.addr_pos, h.write_pos, h.segments⟩

theorem DisplayReady.runJob (h : DisplayReady seg s) (j : Job) : DisplayReady seg (runJob j s) :=
  ⟨h.enabled, h.not_owner, h.no_error, h.addr_pos, h.write_pos, h.segments⟩

theorem digitStep_addressed_of_frame (hframe : BesideFrame u v) (h : DisplayReady seg u) :
    digitStep i res up v = .next (addressed u.cfg.dispAddr
      (.blkStart (.wReg (digitRegister u.cfg i) [seg i]) (.writeAll i res up)) v) := by
  have hcfg : v.cfg = u.cfg := hframe.cfg
  have hx : digitSegments v.cfg v.dispBuf i = some (seg i) := by rw [hcfg, hframe.dispBuf, h.segments i]
  rw [digitStep_addressed ((congrArg EngineFields.enabled hframe.engine).trans h.enabled)
    ((congrArg EngineFields.owner hframe.engine).trans h.not_owner)
    ((congrArg EngineFields.flagBerr hframe.engine).trans h.no_error) (hcfg ▸ h.addr_pos) hx, hcfg]

end

theorem finRange_drop (i : Fin 5) : (List.finRange 5).drop i.val = i :: (List.finRange 5).drop (i.val + 1) := by
  rw [List.drop_eq_getElem_cons (by simp), List.getElem_finRange]
  rfl

theorem digitsWritten_runJob (any : Nat → Byte) (seg : Fin 5 → Byte) (positions : List (Fin 5)) (j : Job) (s : State) :
    digitsWritten any seg positions (runJob j s) = runJob j (digitsWritten any seg positions s) := by
  induction positions generalizing s with
  | nil => rfl
  | cons i rest ih => exact ih (blockWritten any s.cfg.dispAddr (digitRegister s.cfg i) [seg i] s)

section
variable (any : Nat → Byte) {S script : List (List Beside)} {s t u v : State} {p : Peer} {up : Upper}
  {seg : Fin 5 → Byte}

/-- R233: the position `i` and the `m` after it, from the wait for the answer to the address byte of `i`. -/
theorem serve_positions {m : Nat} {i : Fin 5} (hi : i.val + m = 4) (hS : script ⊆ S)
    (hlen : 7 * m + 6 ≤ script.length) (hu : DisplayReady seg u) (h : Follows S u v) :
    ∃ t q, serve any script (addressed u.cfg.dispAddr
        (.blkStart (.wReg (digitRegister u.cfg i) [seg i]) (.writeAll i .ok up)) v, p) =
        serve any (script.drop (7 * m + 6)) (t, q) ∧
      q.mem = storeDigits u.cfg seg ((List.finRange 5).drop i.val) p.mem ∧
      Follows S (returnAggregate up .ok (digitsWritten any seg ((List.finRange 5).drop i.val) u)) t := by
  induction m generalizing i script u v p with
  | zero =>
    obtain ⟨t, hserve, hfollow⟩ := serve_blockWrite any (p := p) (bytes := [seg i]) (reg := digitRegister u.cfg i)
      (k := .writeAll i .ok up) (a7 := u.cfg.dispAddr) hS hlen hu.enabled hu.no_error hu.addr_pos hu.write_pos h
    obtain rfl : i = 4 := Fin.ext hi
    exact ⟨t, _, hserve, rfl, hfollow⟩
  | succ m ih =>
    obtain ⟨first, es, script, rfl, hfirst⟩ : ∃ first es rest, script = first ++ es :: rest ∧ first.length = 6 := by
      refine ⟨script.take 6, script[6], script.drop 7, ?_, by simp; omega⟩
      rw [← List.drop_eq_getElem_cons, List.take_append_drop]
    obtain ⟨-, hrest⟩ := List.append_subset.mp hS
    obtain ⟨hes, hrest⟩ := List.cons_subset.mp hrest
    have hlt : i.val + 1 < 5 := by omega
    have hw := (hu.blockWritten any u.cfg.dispAddr (digitRegister u.cfg i) [seg i]).runJob
      (.digit ⟨i.val + 1, hlt⟩ .ok up)
    obtain ⟨t, hserve, hfollow⟩ := serve_blockWrite any (p := p) (bytes := [seg i]) (reg := digitRegister u.cfg i)
      (k := .writeAll i .ok up) (a7 := u.cfg.dispAddr) hS (by simp; omega) hu.enabled hu.no_error hu.addr_pos
      hu.write_pos h
    have hnext : deliverBlock (.writeAll i .ok up) .ok []
        (blockWritten any u.cfg.dispAddr (digitRegister u.cfg i) [seg i] u) =
        runJob (.digit ⟨i.val + 1, hlt⟩ .ok up) (blockWritten any u.cfg.dispAddr (digitRegister u.cfg i) [seg i] u) :=
      dif_pos hlt
    rw [hnext] at hfollow
    have hv := hfollow.trans (follows_besides hes t)
    obtain ⟨t', q, hserve', hq, hfollow'⟩ := ih (i := ⟨i.val + 1, hlt⟩) (script := script)
      (p := peerStored u.cfg.dispAddr (digitRegister u.cfg i) [seg i] p) (by simp; omega) hrest
      (by simp at hlen; omega) hw hv
    have hstep := digitStep_addressed_of_frame (i := ⟨i.val + 1, hlt⟩) (res := .ok) (up := up) hv.frame hw
    have hdrop : (first ++ es :: script).drop (2 * [seg i].length + 4) = es :: script := List.drop_left' hfirst
    have hlast : (first ++ es :: script).drop (7 * (m + 1) + 6) = script.drop (7 * m + 6) := by
      rw [show 7 * (m + 1) + 6 = 6 + (7 * m + 6 + 1) by omega, ← List.drop_drop, List.drop_left' hfirst,
        List.drop_succ_cons]
    refine ⟨t', q, ?_, ?_, ?_⟩
    · rw [hserve, hdrop, serve_run any script _ hfollow.frame.ctl nofun (by exact hstep), hlast]
      exact hserve'
    · rw [finRange_drop]
      exact hq
    · rw [digitsWritten_runJob, returnAggregate_runJob] at hfollow'
      rw [finRange_drop]
      exact hfollow'

end

theorem writeTransaction_length (any : Nat → Byte) (n : Nat) (a7 : BitVec 7) (bytes : List Byte) :
    (writeTransaction any n a7 bytes).length = 2 * bytes.length + 3 := by
  simp [writeTransaction, answered_length, Nat.mul_add]

/-- The five transactions of a `WRITEALL` (R233). -/
def writeallTrace (any : Nat → Byte) (n : Nat) (c : Config) (seg : Fin 5 → Byte) : List BusEvent :=
  (List.finRange 5).flatMap fun i => writeTransaction any (n + 7 * i.val) c.dispAddr [digitRegister c i, seg i]

/-- R233: each position's transaction is seven entries of the trace. -/
theorem digitsWritten_busTrace (any : Nat → Byte) (seg : Fin 5 → Byte) (s : State) :
    (digitsWritten any seg (List.finRange 5) s).busTrace =
      s.busTrace ++ writeallTrace any s.busTrace.length s.cfg seg := by
  have hrange : List.finRange 5 = [0, 1, 2, 3, 4] := rfl
  simp [hrange, digitsWritten, blockWritten, writeallTrace, writeTransaction_length]

theorem writeallTrace_length (any : Nat → Byte) (n : Nat) (c : Config) (seg : Fin 5 → Byte) :
    (writeallTrace any n c seg).length = 35 := by
  have hrange : List.finRange 5 = [0, 1, 2, 3, 4] := rfl
  simp [writeallTrace, hrange, writeTransaction_length]

/-- What `WRITEALL` leaves, but for the engine's data register, flags and trace. -/
theorem digitsWritten_only (any : Nat → Byte) (seg : Fin 5 → Byte) (positions : List (Fin 5)) (s : State) :
    OnlyEngine s (digitsWritten any seg positions s) := by
  induction positions generalizing s with
  | nil => exact .refl s
  | cons i rest ih =>
    have hfirst : OnlyEngine s (blockWritten any s.cfg.dispAddr (digitRegister s.cfg i) [seg i] s) :=
      ⟨rfl, rfl, rfl, rfl, rfl⟩
    exact hfirst.trans (ih _)

theorem DisplayReady.digitsWritten {seg : Fin 5 → Byte} {s : State} (h : DisplayReady seg s) (any : Nat → Byte)
    (positions : List (Fin 5)) : DisplayReady seg (digitsWritten any seg positions s) := by
  induction positions generalizing s with
  | nil => exact h
  | cons i rest ih => exact ih (h.blockWritten any _ _ _)

/-- Settles O41. -/
theorem writeallShowsTheBuffer : Obligations.WriteallShowsTheBuffer := by
  intro any s p seg script hready hadm hmem hlen hseg
  have hdisp : DisplayReady seg s :=
    ⟨hready.enabled, hready.not_owner, hready.no_error, hready.addr_pos, hready.write_pos, hseg⟩
  obtain ⟨t, q, hserve, hq, hfollow⟩ := serve_positions any (p := p) (up := .host) (m := 4) (i := 0) rfl
    (List.Subset.refl script) hlen hdisp (.refl script s)
  have hidle : t.ctl = .idle := hfollow.frame.ctl
  have hstart := (exec_writeall_idle hready.idle).trans (digitStep_addressed_of_frame (.refl s) hdisp)
  refine ⟨t, q, ?_, hidle, congrArg HostFields.result hfollow.frame.host,
    hfollow.frame.dispBuf.trans (digitsWritten_only any seg _ s).dispBuf,
    (congrArg EngineFields.owner hfollow.frame.engine).trans (hdisp.digitsWritten any _).not_owner,
    hfollow.frame.busTrace.trans (digitsWritten_busTrace any seg s), fun hstride i => ?_⟩
  · rw [runServed_next any hstart, hserve, serve_idle any _ _ hidle]
  · rw [hq]
    exact peerRead_storeDigits hmem (fun _ _ => digitRegister_inj hadm hstride) (List.mem_finRange i)

end Sys2Proof.Machine
end

section
/-! The two scenarios of R276: a main-loop iteration with the healthy peer, with timeout ticks around its answers. -/

namespace Sys2Proof.Machine

/-! ### Steps of an iteration with ticks around them -/

section
variable {S : List (List Beside)} {s t u u' : State}

/-- With nothing but ticks in the script, only the timeout counter can differ. -/
theorem Follows.eq_ticked (h : Follows S u t) (hS : onlyTicks S) : ∃ c, t = { u with toCount := c } := by
  refine ⟨t.toCount, ?_⟩
  obtain ⟨hlife, hout⟩ := h.ticks hS
  simp only [lifecycleOf, LifecycleFields.mk.injEq] at hlife
  simp only [outputOf, OutputFields.mk.injEq] at hout
  obtain ⟨hidx, hcmp, haf, hcd, hroll, hphase, hhigh, hlow, hcie, hwie, hboard, -, hinp, -⟩ := hlife
  obtain ⟨hled, -, hlp, htrace⟩ := hout
  have hgraft := h.frame.eq_graft
  rw [hgraft, graft, hidx, hcmp, haf, hcd, hroll, hphase, hhigh, hlow, hcie, hwie, hboard, hinp, hled, hlp, htrace]

end

/-- What `Enter` and `SETDIGIT` of the main loop write (R267, R271); the other actions are steps of another kind. -/
def loopWrite (a : LoopAct) (s : State) : State :=
  match a with
  | .enter b => enter b s
  | .setDigit i g => putDigit i g s
  | _ => s

/-- `a` is an `Enter` or a `SETDIGIT`. -/
def isWrite (a : LoopAct) : Prop :=
  (∃ b, a = .enter b) ∨ ∃ i g, a = .setDigit i g

theorem loopStep_isWrite {a : LoopAct} (ha : isWrite a) (rest : List LoopAct) (c : Counter) (s : State) :
    loopStep a rest (loopOn (a :: rest) { s with toCount := c }) =
      .next { loopOn rest (loopWrite a s) with toCount := c } := by
  obtain ⟨b, rfl⟩ | ⟨i, g, rfl⟩ := ha
  · cases b <;> cases rest <;> rfl
  · cases rest <;> rfl

theorem loopWrite_toCount {a : LoopAct} (ha : isWrite a) (rest : List LoopAct) (s : State) :
    (loopOn rest (loopWrite a s)).toCount = s.toCount := by
  obtain ⟨b, rfl⟩ | ⟨i, g, rfl⟩ := ha
  · cases b <;> cases rest <;> rfl
  · cases rest <;> rfl

section
variable (any : Nat → Byte) {S script : List (List Beside)} {es : List Beside} {s t u u' : State} {p : Peer}
  {a : LoopAct} {rest : List LoopAct} {c : Counter}

/-- A step of an iteration that does not look at the timeout counter. -/
theorem serve_loopAct (hS : onlyTicks S) (hes : es ∈ S) (h : Follows S (loopOn (a :: rest) u) t)
    (hstep : ∀ c, loopStep a rest (loopOn (a :: rest) { u with toCount := c }) = .next { u' with toCount := c })
    (hcount : u'.toCount = u.toCount) :
    ∃ t', serve any (es :: script) (t, p) = serve any script (t', p) ∧ Follows S u' t' := by
  have hv := h.trans (follows_besides hes t)
  obtain ⟨c, hc⟩ := hv.eq_ticked hS
  have hmove : hostStep (.loop (a :: rest)) (besides es t) = .next { u' with toCount := c } := by
    rw [hc]
    exact hstep c
  refine ⟨_, serve_run any script p h.frame.ctl nofun hmove, ⟨rfl, rfl, rfl, rfl, rfl⟩, fun _ => ⟨rfl, rfl⟩,
    fun hq => ?_⟩
  have hquiet := hv.quiet hq
  rw [hc] at hquiet
  exact hquiet.trans hcount.symm

/-- R267: rollover. -/
theorem serve_takeRoll_rollover (hS : onlyTicks S) (hes : es ∈ S) (h : Follows S (loopOn [.takeRoll] u) t)
    (hroll : u.rollover = true) :
    ∃ t', serve any (es :: script) (t, p) = serve any script (t', p) ∧
      Follows S (loopOn (rolloverActs u.cfg) { u with rollover := false }) t' :=
  serve_loopAct any hS hes h (fun _ => if_pos hroll) rfl

/-- R267: no rollover. -/
theorem serve_takeRoll_clear (hS : onlyTicks S) (hes : es ∈ S) (h : Follows S (loopOn [.takeRoll] u) t)
    (hroll : u.rollover = false) :
    ∃ t', serve any (es :: script) (t, p) = serve any script (t', p) ∧ Follows S (loopOn [.readInputs] u) t' := by
  have hclear : { u with rollover := false } = u := by rw [← hroll]
  have hend := serve_loopAct any (script := script) (p := p) (u' := loopOn [.readInputs] { u with rollover := false })
    hS hes h (fun _ => if_neg (ne_true_of_eq_false hroll)) rfl
  rwa [hclear] at hend

/-- R267: the safe input alone. -/
theorem serve_readInputs_safe (hS : onlyTicks S) (hes : es ∈ S) (h : Follows S (loopOn [.readInputs] u) t)
    (hsafe : u.inputs = safeMask u.safeIdx) :
    ∃ t', serve any (es :: script) (t, p) = serve any script (t', p) ∧ Follows S (loopOn (successActs u.cfg) u) t' :=
  serve_loopAct any hS hes h (fun _ => congrArg (fun l => Host.Outcome.next (loopOn (l ++ []) _)) (if_pos hsafe)) rfl

/-- A run of `Enter` and `SETDIGIT` steps of an iteration. -/
theorem serve_loopWrites {acts : List LoopAct} (hS : onlyTicks S) (hscript : script ⊆ S)
    (hlen : acts.length ≤ script.length) (hacts : ∀ a ∈ acts, isWrite a) (h : Follows S (loopOn (acts ++ rest) u) t) :
    ∃ t', serve any script (t, p) = serve any (script.drop acts.length) (t', p) ∧
      Follows S (loopOn rest (acts.foldl (fun s a => loopWrite a s) u)) t' := by
  induction acts generalizing script u t with
  | nil => exact ⟨t, rfl, h⟩
  | cons a acts ih =>
    obtain ⟨es, script, rfl⟩ := List.exists_cons_of_length_pos (Nat.lt_of_lt_of_le (Nat.succ_pos _) hlen)
    obtain ⟨hes, hrest⟩ := List.cons_subset.mp hscript
    obtain ⟨ha, hacts⟩ := List.forall_mem_cons.mp hacts
    obtain ⟨t', hserve, hfollow⟩ := serve_loopAct any (script := script) (p := p) hS hes h
      (fun c => loopStep_isWrite ha (acts ++ rest) c u) (loopWrite_toCount ha _ u)
    obtain ⟨t'', hserve', hfollow'⟩ := ih hrest (Nat.le_of_succ_le_succ hlen) hacts hfollow
    exact ⟨t'', hserve.trans hserve', hfollow'⟩

/-- R275: the main loop's `SETBLINK`, taken by the healthy peer. -/
theorem serve_setBlink {rate : BitVec 2} (hscript : script ⊆ S) (hlen : 5 ≤ script.length)
    (hen : u.enabled = true) (howner : u.owner = false) (hberr : u.flagBerr = false) (haddr : u.cfg.toAddr ≠ 0)
    (hwrite : u.cfg.toWrite ≠ 0) (h : Follows S (loopOn [.setBlink (rate.setWidth 8)] u) t) :
    ∃ t' q, serve any script (t, p) = serve any (script.drop 5) (t', q) ∧
      Follows S (giveResult .none
        (blockWritten any u.cfg.dispAddr (dispCommand u.cfg (rate.setWidth 8) 1) [] u)) t' := by
  obtain ⟨es, script, rfl⟩ := List.exists_cons_of_length_pos (Nat.lt_of_lt_of_le (Nat.succ_pos _) hlen)
  obtain ⟨hes, hrest⟩ := List.cons_subset.mp hscript
  have hv := h.trans (follows_besides hes t)
  have hcfg : (besides es t).cfg = u.cfg := hv.frame.cfg
  have hrate : (rate.setWidth 8).toNat ≤ 3 := by
    have := rate.isLt
    rw [BitVec.toNat_setWidth, Nat.mod_eq_of_lt] <;> omega
  have hstep : hostStep (.loop [.setBlink (rate.setWidth 8)]) (besides es t) = .next (addressed u.cfg.dispAddr
      (.blkStart (.wReg (dispCommand u.cfg (rate.setWidth 8) 1) []) (.config (.loop []))) (besides es t)) := by
    refine (blinkRate_inRange hrate _ _).trans ?_
    rw [configWrite, writeBlock, hcfg]
    exact startPrim_waits ((congrArg EngineFields.enabled hv.frame.engine).trans hen)
      ((congrArg EngineFields.owner hv.frame.engine).trans howner)
      ((congrArg EngineFields.flagBerr hv.frame.engine).trans hberr) (hcfg ▸ haddr) _ _
  obtain ⟨t', hserve, hfollow⟩ := serve_blockWrite any (p := p) (bytes := []) (k := .config (.loop []))
    (a7 := u.cfg.dispAddr) (reg := dispCommand u.cfg (rate.setWidth 8) 1) hrest (Nat.le_of_succ_le_succ hlen)
    (by exact hen) (by exact hberr) (by exact haddr) (by exact hwrite) hv
  exact ⟨t', _, (serve_run any script p h.frame.ctl nofun hstep).trans hserve, hfollow⟩

/-- R275: the main loop's `WRITEALL`, taken by the healthy peer. -/
theorem serve_loopWriteAll {seg : Fin 5 → Byte} (hscript : script ⊆ S) (hlen : 35 ≤ script.length)
    (hu : DisplayReady seg u) (h : Follows S (loopOn (.writeAll :: rest) u) t) :
    ∃ t' q, serve any script (t, p) = serve any (script.drop 35) (t', q) ∧
      Follows S (loopOn rest (digitsWritten any seg (List.finRange 5) u)) t' := by
  obtain ⟨es, script, rfl⟩ := List.exists_cons_of_length_pos (Nat.lt_of_lt_of_le (Nat.succ_pos _) hlen)
  obtain ⟨hes, hrest⟩ := List.cons_subset.mp hscript
  have hv := h.trans (follows_besides hes t)
  have hu' := hu.runJob (.loop (.writeAll :: rest))
  have hstep := digitStep_addressed_of_frame (i := 0) (res := .ok) (up := .loop rest) hv.frame hu'
  obtain ⟨t', q, hserve, -, hfollow⟩ := serve_positions any (p := p) (up := .loop rest) (m := 4) (i := 0) rfl hrest
    (Nat.le_of_succ_le_succ hlen) hu' hv
  refine ⟨t', q, (serve_run any script p h.frame.ctl nofun (by exact hstep)).trans hserve, ?_⟩
  rw [digitsWritten_runJob, returnAggregate_runJob] at hfollow
  exact hfollow

end

/-! ### The success scenario -/

theorem feedAudio_lowpower (s : State) : (feedAudio s).lowpower = s.lowpower := by
  unfold feedAudio
  split
  · rfl
  · unfold feedOneShot
    split <;> rfl
  · rfl

/-- No underflow begins a low-power wait. -/
theorem exec_pwmUnderflow_lowpower {s t : State} (h : exec .pwmUnderflow s = .next t) (hlow : s.lowpower = false) :
    t.lowpower = false := by
  simp only [exec, execPwmUnderflow] at h
  split_ifs at h <;> cases h
  · exact feedAudio_lowpower _
  · exact hlow

theorem execSeq_pwmUnderflow_lowpower {n : Nat} {s t : State}
    (h : execSeq (List.replicate n .pwmUnderflow) s = .next t) (hlow : s.lowpower = false) : t.lowpower = false := by
  induction n generalizing s with
  | zero => cases h; exact hlow
  | succ n ih =>
    rw [List.replicate_succ, execSeq] at h
    split at h
    · next u hu => exact ih h (exec_pwmUnderflow_lowpower hu hlow)
    · cases h
    · cases h

/-- R190, R268: from the entry to `SUCCESS`, the underflows play the table once, and the next iteration enters
`DONE`. -/
theorem successPlaysThenDone {s : State} (hidle : s.ctl = .idle) (hlow : s.lowpower = false)
    (hboard : s.boardState = .success) (haf : s.afEnable = true) (hzero : s.afIndex = 0)
    (hlen : s.cfg.win.length < 2 ^ 16) (k : Nat) :
    ∃ u, execSeq (List.replicate (s.cfg.win.length + k) .pwmUnderflow) s = .next u ∧
      u.outTrace = s.outTrace ++ s.cfg.win.map .pwm ∧
      ∃ v w, exec .mainloop u = .next v ∧ hostSteps 3 v = .next w ∧ w.boardState = .done ∧ w.afEnable = false := by
  have hsel : selectedTable s.cfg s.boardState = some (s.cfg.win, false) := by rw [hboard]; rfl
  obtain ⟨u, hrun, hplayed⟩ := execSeq_pwmUnderflow_oneShot haf hsel hlen hzero (s.cfg.win.length + k)
  have hidle' : u.ctl = .idle := (congrArg State.ctl hplayed).trans hidle
  have hout : u.outTrace = _ := congrArg State.outTrace hplayed
  have hsel' : selectedTable u.cfg u.boardState = some (s.cfg.win, false) := hplayed.selectedTable.trans hsel
  have hend : s.cfg.win.length ≤ u.afIndex.toNat := by
    rw [hplayed.afIndex, Nat.min_eq_right (Nat.le_add_right ..), counter_toNat_ofNat hlen]
  refine ⟨u, hrun, ?_, _, _, (exec_mainloop_idle hidle').trans
    (startLoop_oneShot (execSeq_pwmUnderflow_lowpower hrun hlow) hsel'), hostSteps_exhausted hsel' hend, rfl, rfl⟩
  rw [hout, List.take_of_length_le (Nat.le_add_right ..)]

/-- Settles O59. -/
theorem successScenario : Obligations.SuccessScenario := by
  intro any s p script k hinv hadm hready hlow hboard hroll hsafe hlen hticks
  have hstart := (exec_mainloop_idle hready.idle).trans (startLoop_countingDown hlow hboard hready.enabled)
  obtain ⟨es1, es2, es3, rest, rfl⟩ : ∃ es1 es2 es3 rest, script = es1 :: es2 :: es3 :: rest := by
    match script, hlen with
    | es1 :: es2 :: es3 :: rest, _ => exact ⟨es1, es2, es3, rest, rfl⟩
  obtain ⟨h1, hS⟩ := List.cons_subset.mp (List.Subset.refl (es1 :: es2 :: es3 :: rest))
  obtain ⟨h2, hS⟩ := List.cons_subset.mp hS
  obtain ⟨-, hrest⟩ := List.cons_subset.mp hS
  obtain ⟨t1, hserve1, hfollow1⟩ := serve_takeRoll_clear any (script := es2 :: es3 :: rest) (p := p) hticks h1
    (.refl _ (loopOn [.takeRoll] s)) hroll
  obtain ⟨t2, hserve2, hfollow2⟩ := serve_readInputs_safe any (script := es3 :: rest) (p := p) hticks h2 hfollow1 hsafe
  obtain ⟨t3, hserve3, hfollow3⟩ := serve_loopWrites any (p := p) (acts := [.enter .success]) hticks hS
    (Nat.succ_pos _) (by simp [isWrite]) hfollow2
  obtain ⟨t, q, hserve, hfollow⟩ := serve_setBlink any (p := p) (u := enter .success s) hrest
    (by simpa using hlen) hready.enabled
    hready.not_owner hready.no_error hready.addr_pos hready.write_pos hfollow3
  have hidle : t.ctl = .idle := hfollow.frame.ctl
  obtain ⟨hlife, hout⟩ := hfollow.ticks hticks
  have hcfg : t.cfg = s.cfg := hfollow.frame.cfg
  have hend := successPlaysThenDone hidle ((congrArg OutputFields.lowpower hout).trans hlow)
    (congrArg LifecycleFields.boardState hlife) (congrArg LifecycleFields.afEnable hlife)
    (congrArg LifecycleFields.afIndex hlife) (hcfg ▸ (configFacts hadm).win_lt) k
  rw [hcfg, show t.outTrace = s.outTrace from congrArg OutputFields.outTrace hout] at hend
  refine ⟨t, q, ?_, hidle, congrArg LifecycleFields.boardState hlife, hfollow.frame.busTrace, hend⟩
  rw [runServed_next any hstart, hserve1, hserve2, hserve3]
  exact congrArg some (hserve.trans (serve_idle any _ _ hidle))

/-! ### The rollover scenario -/

/-- The segment bytes of zeros in the four numeric positions, the separator as it is in `buf` (R103). -/
def zeroSegments (c : Config) (buf : Vector Byte 5) (i : Fin 5) : Byte :=
  if i.val = 2 then (if buf[2] = 1 then c.sepOn else 0) else c.glyph.getD 0 0

theorem digitSegments_zeros {c : Config} (hglyph : 0 < c.glyph.length) (buf : Vector Byte 5) (i : Fin 5) :
    digitSegments c (showDigits 0 0 0 0 buf) i = some (zeroSegments c buf i) := by
  have hzero : c.glyph[(0 : Byte).toNat]? = some (c.glyph.getD 0 0) := by
    rw [List.getD_eq_getElem?_getD, List.getElem?_eq_getElem (by exact hglyph)]
    simp [hglyph]
  match i with
  | 0 => exact hzero
  | 1 => exact hzero
  | 2 => rfl
  | 3 => exact hzero
  | 4 => exact hzero

theorem CountsOn.besideFrame {s t : State} (h : CountsOn s t) : BesideFrame s t where
  engine := by
    rw [h.engine, show t.toCount = s.toCount from congrArg EngineFields.toCount h.engine]
    rfl
  host := h.host
  dispBuf := h.dispBuf
  cfg := h.cfg
  safeIdx := h.safeIdx

/-- A `WRITEALL` and a command byte after it, in the trace. -/
theorem blockWritten_digitsWritten_busTrace (any : Nat → Byte) (a7 : BitVec 7) (cmd : Byte) (seg : Fin 5 → Byte)
    (s : State) :
    (blockWritten any a7 cmd [] (digitsWritten any seg (List.finRange 5) s)).busTrace =
      s.busTrace ++ writeallTrace any s.busTrace.length s.cfg seg ++
        writeTransaction any (s.busTrace.length + 35) a7 [cmd] := by
  simp [blockWritten, digitsWritten_busTrace, writeallTrace_length]

/-- `s` after the writes of an iteration that found rollover (R267). -/
def rolledOver (s : State) : State :=
  { enter .failure { s with rollover := false } with dispBuf := showDigits 0 0 0 0 s.dispBuf }

/-- R267, R275: an iteration that finds rollover, with the healthy peer. -/
theorem runServed_rollover (any : Nat → Byte) {script : List (List Beside)} {s : State} {p : Peer} (hready : BusReady s)
    (hlow : s.lowpower = false) (hboard : s.boardState = .countingDown) (hroll : s.rollover = true)
    (hglyph : 0 < s.cfg.glyph.length) (hlen : 46 ≤ script.length) (hticks : onlyTicks script) :
    ∃ t q, runServed any script .mainloop (s, p) = some (t, q) ∧
      Follows script (giveResult .none (blockWritten any s.cfg.dispAddr
        (dispCommand s.cfg (s.cfg.blinkFail.setWidth 8) 1) []
        (digitsWritten any (zeroSegments s.cfg s.dispBuf) (List.finRange 5) (rolledOver s)))) t := by
  have hstart := (exec_mainloop_idle hready.idle).trans (startLoop_countingDown hlow hboard hready.enabled)
  have hdisp : DisplayReady (zeroSegments s.cfg s.dispBuf) (rolledOver s) :=
    ⟨hready.enabled, hready.not_owner, hready.no_error, hready.addr_pos, hready.write_pos,
      digitSegments_zeros hglyph s.dispBuf⟩
  obtain ⟨es, rest, rfl⟩ := List.exists_cons_of_length_pos (Nat.lt_of_lt_of_le (Nat.succ_pos _) hlen)
  obtain ⟨hes, hrest⟩ := List.cons_subset.mp (List.Subset.refl (es :: rest))
  obtain ⟨t1, hserve1, hfollow1⟩ := serve_takeRoll_rollover any (script := rest) (p := p) hticks hes
    (.refl _ (loopOn [.takeRoll] s)) hroll
  obtain ⟨t2, hserve2, hfollow2⟩ := serve_loopWrites any (p := p) (acts := .enter .failure :: fourDigits 0)
    (rest := [.writeAll, .setBlink (s.cfg.blinkFail.setWidth 8)]) hticks hrest (by simp [fourDigits] at hlen ⊢; omega)
    (by simp [isWrite, fourDigits]) hfollow1
  have hwritten : (LoopAct.enter .failure :: fourDigits 0).foldl (fun s a => loopWrite a s)
      { s with rollover := false } = rolledOver s :=
    putDigit_four (s := enter .failure { s with rollover := false }) hglyph hglyph hglyph hglyph
  rw [hwritten] at hfollow2
  obtain ⟨t3, q, hserve3, hfollow3⟩ := serve_loopWriteAll any (p := p) (script := rest.drop 5)
    (List.Subset.trans (List.drop_subset _ _) hrest) (by simp at hlen ⊢; omega) hdisp hfollow2
  have hdisp' := hdisp.digitsWritten any (List.finRange 5)
  have hcfg : (digitsWritten any (zeroSegments s.cfg s.dispBuf) (List.finRange 5) (rolledOver s)).cfg = s.cfg :=
    (digitsWritten_only ..).cfg
  obtain ⟨t, q', hserve, hfollow⟩ := serve_setBlink any (p := q) (script := (rest.drop 5).drop 35)
    (List.Subset.trans (List.drop_subset _ _) (List.Subset.trans (List.drop_subset _ _) hrest))
    (by simp at hlen ⊢; omega) hdisp'.enabled hdisp'.not_owner hdisp'.no_error hdisp'.addr_pos hdisp'.write_pos hfollow3
  rw [hcfg] at hfollow
  refine ⟨t, q', ?_, hfollow⟩
  rw [runServed_next any hstart, hserve1, hserve2]
  exact congrArg some ((hserve3.trans hserve).trans (serve_idle any _ _ hfollow.frame.ctl))

/-- Settles O60: the countdown ends with the rollover flag set, which the next iteration finds. -/
theorem rolloverScenario : Obligations.RolloverScenario := by
  intro any s p script hinv hadm hready hlow hboard hroll hstart hinputs hlen hticks
  obtain ⟨t, hrun, hcounts, hroll', -⟩ := countdown_reached (List.replicate s.cfg.cdStart.toNat false)
    (hinv.enables.timer_on (.inr hboard)) hboard hinv.timer.counter_pos (by rw [List.length_replicate, hstart])
  rw [List.map_replicate] at hrun
  have hcfg : t.cfg = s.cfg := hcounts.cfg
  have hbuf : t.dispBuf = s.dispBuf := hcounts.dispBuf
  have hglyph : 0 < t.cfg.glyph.length := by
    have := (configFacts hadm).glyphs_ten
    rw [hcfg]
    omega
  obtain ⟨u, q, hserve, hfollow⟩ := runServed_rollover any (p := p) (hcounts.besideFrame.busReady hready)
    (hcounts.lowpower hlow) (hcounts.boardState.trans hboard) hroll' hglyph hlen hticks
  have honly := digitsWritten_only any (zeroSegments t.cfg t.dispBuf) (List.finRange 5) (rolledOver t)
  have hlife := (hfollow.ticks hticks).1.trans honly.lifecycle
  refine ⟨t, hrun, u, q, hserve, hfollow.frame.ctl, congrArg LifecycleFields.boardState hlife,
    congrArg LifecycleFields.rollover hlife, ?_, ?_⟩
  · rw [hfollow.frame.dispBuf, ← hbuf]
    exact honly.dispBuf
  · have htrace := hfollow.frame.busTrace
    have hbus : (rolledOver t).busTrace = s.busTrace := congrArg EngineFields.busTrace hcounts.engine
    have hcfg' : (rolledOver t).cfg = s.cfg := hcfg
    rw [giveResult_busTrace, blockWritten_digitsWritten_busTrace, hbus, hcfg', hcfg, hbuf] at htrace
    exact htrace

end Sys2Proof.Machine
end
